-- ==== Sys2Proof/Word.lean ====
section
/-! DEFINITION. The word types of the block: its 8-bit bytes (R31, R72) and its 32-bit command words (R90).
Every value is unsigned (R11). -/

namespace Sys2Proof

/-- An 8-bit value: a frame byte, a bus byte, the result register. -/
abbrev Byte := BitVec 8

/-- A 32-bit command word (R90). -/
abbrev Word := BitVec 32

end Sys2Proof
end

