-- ==== Sys2Proof/Config.lean ====
section
/-! DEFINITION. The launch parameters (R3, R8), the constants that a decision of the spec fixes (R8, R9), and the
free values: inputs and draws that nothing in the model fixes. -/

namespace Sys2Proof

/-- `LEADER_MIN`, in ticks (R8, 92 D9). -/
def Config.leaderMin : Nat := 0x1F
/-- The bound that `LEADER_MAX` may take, in ticks: the third threshold literal of R9 (R8, 92 D10). -/
def Config.leaderMax : Nat := 0x27
/-- `BIT_MIN`, in ticks (R8, 92 D11). -/
def Config.bitMin : Nat := 0x04
/-- `A_DEV`, the address byte of the display (R8, R110). -/
def Config.aDev : Byte := 0x7C
/-- `CC_CMD`, the control code for commands (R8, R111). -/
def Config.ccCmd : Byte := 0x00

/-- `TMR_OVF_MODE`: what a timer read returns after an overflow (R259). -/
inductive OvfMode
  | havoc
  | wrap
  deriving DecidableEq, Repr

/-- `GATE` (R181). `defective` is the increment-loop variant a launch may ask for and is then refused. -/
inductive Gate
  | gated
  | ungated
  | defective
  deriving DecidableEq, Repr

/-- `HEX_LOCATE` (R167). -/
inductive HexLocate
  | each
  | once
  deriving DecidableEq, Repr

/-- `ENGINE_IMPL`; no rule depends on it (R145). -/
inductive EngineImpl
  | hwEngine
  | gpioBitbang
  deriving DecidableEq, Repr

/-- One item of the opaque initialisation sequence `INIT_SEQ` (R163). -/
inductive InitItem
  | cmd (b : Byte)
  | delay (n : BitVec 24)
  deriving DecidableEq, Repr

/-- The boot premises (a) to (e) of R281. -/
structure BootPremises where
  configured : Bool := true
  watchdogOff : Bool := true
  interruptsOff : Bool := true
  busIdle : Bool := true
  engineReady : Bool := true
  deriving DecidableEq, Repr

/-- A step of one agent, as a schedule names it (R20, R60). `hostRead` is the HOST reading RES (R25). -/
inductive Move
  | tick
  | ctrl
  | engine
  | host
  | hostRead
  deriving DecidableEq, Repr, Inhabited

/-- Who chooses the next step once the explicit schedule of a state is used up: the prompt schedule of R200 and
95_test_vectors.md, or the environment, freely (R60, R67). -/
inductive Policy
  | prompt
  | free
  deriving DecidableEq, Repr

/-- The parameters of a launch (R8). They are fixed for a launch: no step writes them (R180). -/
structure Launch where
  /-- `TMR_WIDTH` -/
  tmrWidth : Nat
  /-- `TMR_OVF_MODE` -/
  ovfMode : OvfMode
  /-- `LEADER_MAX`: `none`, the default, or `some Config.leaderMax` (R8). DESIGN CHOICE: the type admits every other
  bound too, and R10 refuses those below `LEADER_MIN` (notes/assumptions/20.md). -/
  leaderMax : Option Nat
  /-- `BIT_MEAS_LEVEL`, the level M -/
  bitMeasLevel : Bool
  /-- `GATE` -/
  gate : Gate
  /-- `T_DEBOUNCE`, in ticks -/
  tDebounce : Nat
  /-- `CC_CHAR` -/
  ccChar : Byte
  /-- `LOC_BASE` -/
  locBase : Nat
  /-- `LOC_STRIDE` -/
  locStride : Nat
  /-- `CMD_CLEAR` -/
  cmdClear : Byte
  /-- `INIT_SEQ` -/
  initSeq : List InitItem
  /-- `TICKS_PER_MS` -/
  ticksPerMs : Nat
  /-- `HEX_LOCATE` -/
  hexLocate : HexLocate
  /-- `SHOW_LEADER` -/
  showLeader : Bool
  /-- `ENGINE_IMPL` -/
  engineImpl : EngineImpl
  /-- `STALL`: the environment may withhold engine completion for ever (R139) -/
  stall : Bool
  /-- the boot premises of R281 -/
  boot : BootPremises
  /-- who chooses the next step when no explicit schedule is left (93 U18: the schedule is a parameter) -/
  policy : Policy
  deriving DecidableEq, Repr

/-- `T_CMD`, the post-command settle, 1 ms (R8). -/
def Launch.tCmd (l : Launch) : Nat := 1 * l.ticksPerMs
/-- `T_PWR`, the power stabilisation delay, 100 ms (R8). -/
def Launch.tPwr (l : Launch) : Nat := 100 * l.ticksPerMs
/-- `T_POST`, the post-sequence settle, 200 ms (R8). -/
def Launch.tPost (l : Launch) : Nat := 200 * l.ticksPerMs

/-- The launch with R8's other value of `LEADER_MAX`, the bound 0x27. -/
def Launch.bounded (l : Launch) : Launch := { l with leaderMax := some Config.leaderMax }

/-- What an algorithm of the HOST does next (R228). -/
inductive HostAction
  | issue (w : Word)
  | read
  | finish
  deriving DecidableEq, Repr, Inhabited

/-! Free values. None of these constants has a body, so no proof can use a value of one. -/

/-- FREE VALUE: the level of `IR` at a time for which the launch gives none (R45). -/
opaque Config.irLevel : Nat → Bool
/-- FREE VALUE: the level of `PRESENT` at a time for which the launch gives none (R45). -/
opaque Config.presentLevel : Nat → Bool
/-- FREE VALUE: the n-th draw, taken as a bit: an ACK level (R47), the reset value of `LEADER_OK` (R30). -/
opaque Config.freeBit : Nat → Bool
/-- FREE VALUE: the n-th draw, taken as a byte: a frame byte at reset (R31). -/
opaque Config.freeByte : Nat → Byte
/-- FREE VALUE: the n-th draw, taken as a count and reduced to the timer's width where it is used: `TMR_CNT` at
reset (R34), a timer read after an overflow (R259). -/
opaque Config.freeCount : Nat → Nat
/-- FREE VALUE: the n-th draw, taken as the agent that moves next (R60). -/
opaque Config.freeMove : Nat → Move

/-- FREE VALUE: what the n-th unlisted algorithm of the HOST does next, given the RES values read so far and the number
of words issued so far (R228). -/
opaque Config.hostAlgorithm : Nat → List Byte → Nat → HostAction

/-- FREE VALUE: `CUR` read while it holds no value; no reachable state does so (R23, 93 U25). -/
opaque Config.bottomWord : Word
/-- FREE VALUE: `SE_TXBUF` read while it holds no value; no reachable state does so (93 U25). -/
opaque Config.bottomByte : Byte
/-- FREE VALUE: `DLY_T0` read while it holds no value; no reachable state does so (R32, 93 U25). -/
opaque Config.bottomTime : Nat
/-- FREE VALUE: `FIDX` read while it holds no value; no reachable state does so (R29, 93 U25). -/
opaque Config.bottomFidx : Fin 4
/-- FREE VALUE: `BIDX` read while it holds no value; no reachable state does so (R29, 93 U25). -/
opaque Config.bottomBidx : Fin 8

/-- FREE VALUE: the launch's `CC_CHAR` (OPEN, R8). -/
opaque Config.ccChar : Byte
/-- FREE VALUE: the launch's `LOC_BASE` (OPEN, R8). -/
opaque Config.locBase : Nat
/-- FREE VALUE: the launch's `LOC_STRIDE` (OPEN, R8). -/
opaque Config.locStride : Nat
/-- FREE VALUE: the launch's `CMD_CLEAR` (OPEN, R8). -/
opaque Config.cmdClear : Byte
/-- FREE VALUE: the n-th command byte of the launch's `INIT_SEQ` (OPEN and opaque, R163). -/
opaque Config.initByte : Nat → Byte

/-- The launch that `State.reset` is in: the defaults of R8, with the OPEN numbers that steer a run taken from
95_test_vectors.md (`TMR_WIDTH`, `T_DEBOUNCE`, P6's `TICKS_PER_MS`), the OPEN bytes free, and an `INIT_SEQ` of the
shape R163 requires.
DESIGN CHOICE (unsafe: notes/assumptions/2.md). -/
def Launch.default : Launch where
  tmrWidth := 8
  ovfMode := .havoc
  leaderMax := none
  bitMeasLevel := false
  gate := .gated
  tDebounce := 0
  ccChar := Config.ccChar
  locBase := Config.locBase
  locStride := Config.locStride
  cmdClear := Config.cmdClear
  initSeq := [.cmd (Config.initByte 0), .delay 400, .cmd (Config.initByte 1), .delay 800]
  ticksPerMs := 4
  hexLocate := .each
  showLeader := false
  engineImpl := .hwEngine
  stall := false
  boot := {}
  policy := .prompt

end Sys2Proof
end

