-- ==== Sys2Proof/Syntax.lean ====
section
/-! DEFINITION. The operations of the block, one constructor per row of spec/opcode_table.json (R92).
Operands are the numbers of the assembly syntax (R100): bytes, a frame index, a delay in ticks. -/

namespace Sys2Proof

/-- An operation of the block (R92). -/
inductive Instr
  /-- `BUS.START` (R137) -/
  | busStart
  /-- `BUS.STOP` (R140) -/
  | busStop
  /-- `BUS.SEND d` (R141) -/
  | busSend (d : Byte)
  /-- `BUS.CHKACK` (R136) -/
  | busChkack
  /-- `BUS.WRITE a, c, d` (R150) -/
  | busWrite (a c d : Byte)
  /-- `DEC.CHECK` (R220) -/
  | decCheck
  /-- `DEC.FRAME` (R184) -/
  | decFrame
  /-- `DEC.SERVICE` (R222) -/
  | decService
  /-- `FRM.READ i` (R210) -/
  | frmRead (i : Nat)
  /-- `LDR.READ` (R212) -/
  | ldrRead
  /-- `SYS.DELAY n` (R224) -/
  | sysDelay (n : Nat)
  deriving DecidableEq, Repr

end Sys2Proof
end

