-- ==== Sys2Proof/WellFormed.lean ====
section
/-! DEFINITION. Which operations can be written as a command word: `FRM.READ i` with i in 0..3 and `SYS.DELAY n` with
n in 0..0xFFFFFF (R96, R100). Every other operation is well-formed whatever its operands. -/

namespace Sys2Proof

/-- The operand ranges of R100. -/
def Instr.wf : Instr → Bool
  | .busStart => true
  | .busStop => true
  | .busSend _ => true
  | .busChkack => true
  | .busWrite _ _ _ => true
  | .decCheck => true
  | .decFrame => true
  | .decService => true
  | .frmRead i => decide (i < 4)
  | .ldrRead => true
  | .sysDelay n => decide (n < 2 ^ 24)

end Sys2Proof
end

