-- ==== Sys2Proof/Decode.lean ====
section
/-! DEFINITION. The command word (R90, R91): its fields, the decoder of R99, total on every 32-bit word and rejecting
by name, the encoder (R100), and the opcode table as match and mask pairs (R99, spec/opcode_table.json). -/

namespace Sys2Proof

/-- `OPC = w[31:24]` (R91). -/
def Word.opc (w : Word) : Byte := w.extractLsb' 24 8
/-- `A = w[23:16]` (R91). -/
def Word.fieldA (w : Word) : Byte := w.extractLsb' 16 8
/-- `C = w[15:8]` (R91). -/
def Word.fieldC (w : Word) : Byte := w.extractLsb' 8 8
/-- `D = w[7:0]` (R91). -/
def Word.fieldD (w : Word) : Byte := w.extractLsb' 0 8
/-- `N = w[23:0]` (R91). -/
def Word.fieldN (w : Word) : BitVec 24 := w.extractLsb' 0 24

/-- Why a word is illegal (R94, R97). -/
inductive Illegal
  /-- the opcode is not in the table of R92 -/
  | unassignedOpcode
  /-- a required-zero field of R94 is not zero -/
  | requiredZero
  deriving DecidableEq, Repr

/-- What the decoder says of a word. -/
inductive Decoded
  | legal (i : Instr)
  | illegal (why : Illegal)
  deriving DecidableEq, Repr

/-- A legal reading only if the required-zero field is zero (R94). -/
def Decoded.ifZero {n : Nat} (field : BitVec n) (i : Instr) : Decoded :=
  if field = 0 then .legal i else .illegal .requiredZero

/-- The decode function of R99, with the operands of R93 and R95. -/
def decode (w : Word) : Decoded :=
  if Word.opc w = 0x01 then .ifZero (Word.fieldN w) .busStart
  else if Word.opc w = 0x02 then .ifZero (Word.fieldN w) .busStop
  else if Word.opc w = 0x03 then .ifZero (w.extractLsb' 8 16) (.busSend (Word.fieldD w))
  else if Word.opc w = 0x04 then .ifZero (Word.fieldN w) .busChkack
  else if Word.opc w = 0x05 then .legal (.busWrite (Word.fieldA w) (Word.fieldC w) (Word.fieldD w))
  else if Word.opc w = 0x10 then .ifZero (Word.fieldN w) .decCheck
  else if Word.opc w = 0x11 then .ifZero (Word.fieldN w) .decFrame
  else if Word.opc w = 0x12 then .ifZero (Word.fieldN w) .decService
  else if Word.opc w = 0x13 then .ifZero (w.extractLsb' 2 22) (.frmRead (w.extractLsb' 0 2).toNat)
  else if Word.opc w = 0x14 then .ifZero (Word.fieldN w) .ldrRead
  else if Word.opc w = 0x20 then .legal (.sysDelay (Word.fieldN w).toNat)
  else .illegal .unassignedOpcode

/-- The word of an operation (R91, R92, R100): the operands in their fields and every other bit zero. -/
def encode : Instr → Word
  | .busStart => 0x01#8 ++ 0#24
  | .busStop => 0x02#8 ++ 0#24
  | .busSend d => 0x03#8 ++ 0#8 ++ 0#8 ++ d
  | .busChkack => 0x04#8 ++ 0#24
  | .busWrite a c d => 0x05#8 ++ a ++ c ++ d
  | .decCheck => 0x10#8 ++ 0#24
  | .decFrame => 0x11#8 ++ 0#24
  | .decService => 0x12#8 ++ 0#24
  | .frmRead i => 0x13#8 ++ (BitVec.ofNat 2 i).setWidth 24
  | .ldrRead => 0x14#8 ++ 0#24
  | .sysDelay n => 0x20#8 ++ BitVec.ofNat 24 n

/-- A row of the opcode table: a word belongs to it when `w & mask = value` (R99). -/
structure TableRow where
  mnemonic : String
  value : Word
  mask : Word
  deriving DecidableEq, Repr

/-- The rows of spec/opcode_table.json. -/
def opcodeTable : List TableRow :=
  [ ⟨"BUS.START", 0x01000000, 0xFFFFFFFF⟩,
    ⟨"BUS.STOP", 0x02000000, 0xFFFFFFFF⟩,
    ⟨"BUS.SEND", 0x03000000, 0xFFFFFF00⟩,
    ⟨"BUS.CHKACK", 0x04000000, 0xFFFFFFFF⟩,
    ⟨"BUS.WRITE", 0x05000000, 0xFF000000⟩,
    ⟨"DEC.CHECK", 0x10000000, 0xFFFFFFFF⟩,
    ⟨"DEC.FRAME", 0x11000000, 0xFFFFFFFF⟩,
    ⟨"DEC.SERVICE", 0x12000000, 0xFFFFFFFF⟩,
    ⟨"FRM.READ", 0x13000000, 0xFFFFFFFC⟩,
    ⟨"LDR.READ", 0x14000000, 0xFFFFFFFF⟩,
    ⟨"SYS.DELAY", 0x20000000, 0xFF000000⟩ ]

/-- A word matches a row of the opcode table. -/
def TableRow.matches (r : TableRow) (w : Word) : Bool := (w &&& r.mask) == r.value

/-- The mnemonic of an operation, as the opcode table spells it. -/
def Instr.mnemonic : Instr → String
  | .busStart => "BUS.START"
  | .busStop => "BUS.STOP"
  | .busSend _ => "BUS.SEND"
  | .busChkack => "BUS.CHKACK"
  | .busWrite _ _ _ => "BUS.WRITE"
  | .decCheck => "DEC.CHECK"
  | .decFrame => "DEC.FRAME"
  | .decService => "DEC.SERVICE"
  | .frmRead _ => "FRM.READ"
  | .ldrRead => "LDR.READ"
  | .sysDelay _ => "SYS.DELAY"

/-- What the decoder reads from a row's word: `w` in its low `nbits` bits, zero above (a command word is presented
whole, R90, so there is no byte order to apply). -/
def decodeTableWord (nbits w : Nat) : Option Instr :=
  match decode (BitVec.ofNat 32 (w % 2 ^ nbits)) with
  | .legal i => some i
  | .illegal _ => none

end Sys2Proof
end

