-- ==== Sys2Proof/Machine/State.lean ====
section
/-! DEFINITION. The state of the block (10_state.md): everything R69 lists, the inputs of the launch (R45, R47), the
schedule (R60), and the HOST's command stream (R24, R228) with the values it read (R232). The hard-wired bits `TMR_IE`
and `SE_IE` (R37, R38) have no storage: they are read through accessors of Flags.lean that are always 0. -/

namespace Sys2Proof.Machine

/-- The decoder's eight states (R28). -/
inductive DState
  | idle
  | debounce
  | ldrWaitHigh
  | ldrMeasure
  | ldrWaitLow
  | bitSeek
  | bitMeasure
  | complete
  deriving DecidableEq, Repr

/-- The 3-bit code of R28. -/
def DState.code : DState → BitVec 3
  | .idle => 0
  | .debounce => 1
  | .ldrWaitHigh => 2
  | .ldrMeasure => 3
  | .ldrWaitLow => 4
  | .bitSeek => 5
  | .bitMeasure => 6
  | .complete => 7

/-- `BPH`, the phase of a bus primitive: `issue` is 0, `wait` is 1 (R41). -/
inductive BusPhase
  | issue
  | wait
  deriving DecidableEq, Repr

/-- `WSEQ`, the primitive of `BUS.WRITE` in progress, 0 to 4 in this order (R42). -/
inductive WriteStage
  | start
  | address
  | control
  | data
  | stop
  deriving DecidableEq, Repr

/-- The number that R42 gives a stage. -/
def WriteStage.code : WriteStage → BitVec 3
  | .start => 0
  | .address => 1
  | .control => 2
  | .data => 3
  | .stop => 4

/-- `BUSPH`: whether a transaction is open on the bus (R43). -/
inductive BusOpen
  | idle
  | active
  deriving DecidableEq, Repr

/-- A bus event (R49). The level of a byte's acknowledgment is `false` for 0 (ACK) and `true` for 1 (NACK). -/
inductive BusEvent
  | start
  | byte (b : Byte) (a : Bool)
  | stop
  deriving DecidableEq, Repr

/-- The codes of the sticky model faults (R241). -/
inductive FaultCode
  | illegal
  | busNotIdle
  | busNotActive
  | ackUndef
  | resUndef
  deriving DecidableEq, Repr

/-- The number that R241 gives a fault. -/
def FaultCode.number : FaultCode → Nat
  | .illegal => 1
  | .busNotIdle => 2
  | .busNotActive => 3
  | .ackUndef => 4
  | .resUndef => 5

/-- What `FAULT` holds when it is not `none` (R241). -/
structure FaultRecord where
  code : FaultCode
  info : Word
  deriving DecidableEq, Repr

/-- The Received Frame, the block's only memory: four bytes at the indices 0 to 3 (R31, R70). -/
structure Frame where
  byte0 : Byte
  byte1 : Byte
  byte2 : Byte
  byte3 : Byte
  deriving DecidableEq, Repr

/-- An input waveform, a total function from time to a level (R45): the levels listed from time 0 on, then one level held
for ever, or levels that nothing fixes. -/
structure Line where
  listed : List Bool
  /-- the level held past the list; `none`: each level past the list is free -/
  after : Option Bool
  deriving DecidableEq, Repr

/-- What an algorithm does once the words of a row are issued: it is done, goes on with a row, or reads RES and goes on
with the row that the value selects (R228). -/
inductive HostNext
  | finish
  | goto (row : Nat)
  | onRes (cases : List (Byte × Nat)) (otherwise : Nat)
  deriving DecidableEq, Repr

/-- A row of an algorithm: the words the HOST issues, and what it does then (R228). -/
structure HostRow where
  words : List Word
  next : HostNext
  deriving DecidableEq, Repr

/-- The HOST's algorithm beyond the words it already has in its stream (R20, R228). -/
inductive Client
  /-- none: its program is the stream -/
  | stream
  /-- the rendering of frame byte `i` of a `MAIN_ITER` (R226), repeated for ever or for one iteration -/
  | rendering (i : Fin 4) (forever : Bool)
  /-- an algorithm written out as rows, and what it does next -/
  | table (rows : List HostRow) (next : HostNext)
  /-- the n-th algorithm that is not written out: any function of the RES values read so far (a free value) -/
  | unlisted (n : Nat)
  deriving DecidableEq, Repr

/-- Everything the spec gives the machine. Names are those of R69 in lower case. -/
structure State where
  /-- the launch parameters (R8); no step writes them -/
  launch : Launch
  /-- the waveform `IR` (R45) -/
  ir : Line
  /-- the waveform `PRESENT` (R45) -/
  present : Line
  /-- the listed ACK levels of the next byte transfers (R47); past the list a level is free -/
  acks : List Bool
  /-- the listed agents that take the next steps (R60); past the list the launch's policy chooses -/
  sched : List Move
  /-- how many free values have been drawn; the model's own counter -/
  draws : Nat
  /-- `PROG`, the HOST's command stream as far as the HOST has decided it (R228) -/
  prog : List Word
  /-- `CPC` (R24) -/
  cpc : Nat
  /-- the HOST's algorithm (R228) -/
  client : Client
  /-- the RES values the HOST has read, in order (R232) -/
  resReads : List Byte
  /-- `now`, in ticks (R52) -/
  now : Nat
  /-- `READY` (R22) -/
  ready : Bool
  /-- `CUR`; `none` is ⊥ (R23) -/
  cur : Option Word
  /-- `RES`; `none` is ⊥ (R25) -/
  res : Option Byte
  /-- `FAULT` (R26) -/
  fault : Option FaultRecord
  /-- `DSTATE` (R28) -/
  dstate : DState
  /-- `FIDX`; `none` is ⊥ (R29) -/
  fidx : Option (Fin 4)
  /-- `BIDX`; `none` is ⊥ (R29) -/
  bidx : Option (Fin 8)
  /-- `LEADER_OK` (R30) -/
  leaderOk : Bool
  /-- `FRAME[0..3]` (R31) -/
  frame : Frame
  /-- `DLY_T0`; `none` is ⊥ (R32) -/
  dlyT0 : Option Nat
  /-- `IND` (R33) -/
  ind : Bool
  /-- `TMR_CNT`, below `2^TMR_WIDTH` in every state a run reaches (R34) -/
  tmrCnt : Nat
  /-- `TMR_ON` (R35) -/
  tmrOn : Bool
  /-- `TMR_OVF` (R36) -/
  tmrOvf : Bool
  /-- `SE_START_REQ` (R38) -/
  seStartReq : Bool
  /-- `SE_STOP_REQ` (R38) -/
  seStopReq : Bool
  /-- `SE_DONE` (R38, R39) -/
  seDone : Bool
  /-- `SE_ACKSTAT`; `none` is ⊥, `some false` is 0 (ACK), `some true` is 1 (NACK) (R38, R40) -/
  seAckstat : Option Bool
  /-- `SE_TXBUF`; `none` is ⊥ (R38) -/
  seTxbuf : Option Byte
  /-- `SE_TX_PEND` (R38) -/
  seTxPend : Bool
  /-- `BPH` (R41) -/
  bph : BusPhase
  /-- `WSEQ` (R42) -/
  wseq : WriteStage
  /-- `BUSPH` (R43) -/
  busph : BusOpen
  /-- `BUS_TRACE`, oldest event first (R48) -/
  busTrace : List BusEvent
  deriving DecidableEq, Repr

/-- Why the model's machine stops. Neither is a behaviour of the block: the sticky faults of R241 are held in the
state's `fault` field and are next states. -/
inductive Fault
  /-- raised by CTRL's step when no rule gives it one: `CUR` holds no legal word, or `DEC.FRAME` runs in `IDLE`.
  No state a run reaches is such (R64, R184). Safe: the model stops where the spec says nothing. -/
  | noRule
  /-- raised by `FRM.READ i` for an i of 4 or more, which no command word encodes (R76, R96). Safe. -/
  | noSuchByte
  deriving DecidableEq, Repr

/-- What the model gives no meaning to: launches (R252), and operations without a meaning yet. -/
inductive Refusal
  /-- raised by an arm of exec whose operation has no meaning yet. Safe. -/
  | notModelled (mnemonic : String)
  /-- raised by step: the launch's parameters break R10 (R252). Safe. -/
  | launchParameters
  /-- raised by step: the launch asks for the defective decoder variant (R181, R252). Safe. -/
  | defectiveDecoder
  /-- raised by step: the launch sets `SHOW_LEADER = true` (R226, R252). Safe. -/
  | showLeader
  /-- raised by step: `INIT_SEQ` lacks the power-stabilisation delay (R163, R252). Safe. -/
  | initSequence
  /-- raised by step: the launch does not meet the boot premises (R281, R252). Safe. -/
  | bootPremises
  deriving DecidableEq, Repr

/-- The outcome of a step or of an operation. -/
abbrev Result := Host.Outcome State Fault Refusal

/-- What is chosen outside the block before its first step: the inputs of the launch, the schedule and the HOST. -/
structure Inputs where
  ir : Line
  present : Line
  acks : List Bool
  sched : List Move
  prog : List Word
  client : Client
  deriving DecidableEq, Repr

/-- Reset (R280): every element at its value of R69, for a launch and its inputs. The draws of R69 (`FRAME`,
`LEADER_OK`, `TMR_CNT`) are the free values number `d` to `d + 5`. -/
def State.powerOn (l : Launch) (inp : Inputs) (d : Nat) : State where
  launch := l
  ir := inp.ir
  present := inp.present
  acks := inp.acks
  sched := inp.sched
  draws := d + 6
  prog := inp.prog
  cpc := 0
  client := inp.client
  resReads := []
  now := 0
  ready := true
  cur := none
  res := none
  fault := none
  dstate := .idle
  fidx := none
  bidx := none
  leaderOk := Config.freeBit (d + 4)
  frame := ⟨Config.freeByte d, Config.freeByte (d + 1), Config.freeByte (d + 2), Config.freeByte (d + 3)⟩
  dlyT0 := none
  ind := false
  tmrCnt := Config.freeCount (d + 5) % 2 ^ l.tmrWidth
  tmrOn := false
  tmrOvf := false
  seStartReq := false
  seStopReq := false
  seDone := false
  seAckstat := none
  seTxbuf := none
  seTxPend := false
  bph := .issue
  wseq := .start
  busph := .idle
  busTrace := []

/-- Nothing listed: every level and acknowledgment is free, the policy schedules, the HOST has no words. -/
def Inputs.none : Inputs where
  ir := ⟨[], .none⟩
  present := ⟨[], .none⟩
  acks := []
  sched := []
  prog := []
  client := .stream

/-- The machine right after reset, in the default launch, with nothing placed. -/
def State.reset : State := State.powerOn Launch.default Inputs.none 0

end Sys2Proof.Machine
end

