-- ==== Sys2Proof/Machine/Flags.lean ====
section
/-! DEFINITION. The decision functions and flag views: leader classification (R182), the data bit (R183), the byte a
flag reads as (R136, R212, R220), the images of the serial-engine registers (R38), the hard-wired interrupt enables
(R37, R38) and the result of the timer's tick rule (R256). -/

namespace Sys2Proof.Machine

/-- `Classify(L)` (R182). -/
def classify (l : Launch) (count : Nat) : Bool :=
  decide (Config.leaderMin ≤ count) &&
    match l.leaderMax with
    | none => true
    | some m => decide (count ≤ m)

/-- `BitOf(v)` (R183). -/
def bitOf (count : Nat) : Bool := decide (Config.bitMin ≤ count)

/-- `zext_8` of a 1-bit value (R12, R136). -/
def flagByte (b : Bool) : Byte := if b then 0x01 else 0x00

/-- `TMR_IE`, hard-wired 0 (R37). -/
def State.tmrIe (_ : State) : Bool := false

/-- `SE_IE`, hard-wired 0 (R38). -/
def State.seIe (_ : State) : Bool := false

/-- The image of `SE_CTRL`: bit 0 `SE_START_REQ`, bit 1 `SE_STOP_REQ`, bit 2 `SE_IE`, bits 7:3 reserved, read as 0
(R38). -/
def State.seCtrl (s : State) : Byte :=
  0#5 ++ BitVec.ofBool s.seIe ++ BitVec.ofBool s.seStopReq ++ BitVec.ofBool s.seStartReq

/-- The image of `SE_STAT`: bit 0 `SE_DONE`, bit 1 `SE_ACKSTAT`, bits 7:2 reserved, read as 0; no value while
`SE_ACKSTAT` holds none (R38). -/
def State.seStat (s : State) : Option Byte :=
  s.seAckstat.map fun a => 0#6 ++ BitVec.ofBool a ++ BitVec.ofBool s.seDone

/-- One tick of a running count of width `w`: the new count, and whether it passed its maximum (R256). -/
def countTick (w count : Nat) : Nat × Bool :=
  if count = 2 ^ w - 1 then (0, true) else (count + 1, false)

end Sys2Proof.Machine
end

