-- ==== Sys2Proof/Machine/Operands.lean ====
section
/-! DEFINITION. How an operation's step reads: the input lines at the current time (R45, R88), the elements that can
hold no value (R14), and one byte of the frame (R73). -/

namespace Sys2Proof.Machine

/-- The level of a line at a time: listed, or past the list the level held, or a free one (R45). -/
def levelAt (line : Line) (free : Nat → Bool) (t : Nat) : Bool := (line.listed[t]?).getD (line.after.getD (free t))

/-- `IR(t)` (R45). -/
def State.irAt (s : State) (t : Nat) : Bool := levelAt s.ir Config.irLevel t

/-- `PRESENT(t)` (R45). -/
def State.presentAt (s : State) (t : Nat) : Bool := levelAt s.present Config.presentLevel t

/-- `IR(now)` (R12). -/
def State.irNow (s : State) : Bool := s.irAt s.now

/-- `PRESENT(now)` (R12). -/
def State.presentNow (s : State) : Bool := s.presentAt s.now

/-- M, the level a bit measurement times (R8). -/
def State.measLevel (s : State) : Bool := s.launch.bitMeasLevel

/-- `CUR` as the info of a fault (R241). -/
def State.curWord (s : State) : Word := s.cur.getD Config.bottomWord

/-- `SE_TXBUF` as the ENGINE reads it (R138). -/
def State.txByte (s : State) : Byte := s.seTxbuf.getD Config.bottomByte

/-- `DLY_T0` as the delays read it (R32). -/
def State.delayStart (s : State) : Nat := s.dlyT0.getD Config.bottomTime

/-- `now − DLY_T0 < n`, over the integers (R185, R224). -/
def State.delayRuns (s : State) (n : Nat) : Bool := decide (s.now < s.delayStart + n)

/-- `FIDX` as `BIT_MEASURE` reads it (R192). -/
def State.frameIndex (s : State) : Fin 4 := s.fidx.getD Config.bottomFidx

/-- `BIDX` as `BIT_MEASURE` reads it (R192). -/
def State.bitIndex (s : State) : Fin 8 := s.bidx.getD Config.bottomBidx

/-- Byte `i` of a frame. -/
def Frame.get (f : Frame) (i : Fin 4) : Byte :=
  match i with
  | 0 => f.byte0
  | 1 => f.byte1
  | 2 => f.byte2
  | 3 => f.byte3

/-- A frame with byte `i` replaced. -/
def Frame.set (f : Frame) (i : Fin 4) (b : Byte) : Frame :=
  match i with
  | 0 => { f with byte0 := b }
  | 1 => { f with byte1 := b }
  | 2 => { f with byte2 := b }
  | 3 => { f with byte3 := b }

/-- The memory as a list of address and byte pairs, in rising address order: the whole address space is listed (R70),
so equal lists are equal frames. -/
def Frame.cells (f : Frame) : List Host.Cell :=
  [(0, f.byte0), (1, f.byte1), (2, f.byte2), (3, f.byte3)]

/-- The canonical form of a list of cells of the frame: every address of the space once, rising (R70). -/
def Memory.wf (m : List Host.Cell) : Bool := m.map Prod.fst == [0, 1, 2, 3]

/-- `FrameRead(i)` (R73). -/
def frameRead (i : Fin 4) (s : State) : Byte := s.frame.get i

/-- A byte with bit `p` replaced (R74). -/
def putBit (v : Byte) (p : Fin 8) (b : Bool) : Byte :=
  if b then v ||| (1#8 <<< p.val) else v &&& ~~~(1#8 <<< p.val)

end Sys2Proof.Machine
end

