-- ==== Sys2Proof/Machine/Ops.lean ====
section
/-! DEFINITION. The shared operations of every step: raising a fault (R242) and the power cycle that is the only way
out of one (R249), issue and `complete` (R61, R66), the frame write (R74), the timer primitives (R255 to R259), the
engine's requests and events (R38, R49), the acknowledgment draw (R47), and the shape of an operation (R64, R66). -/

namespace Sys2Proof.Machine

/-- `raise F(info)` (R242): `FAULT` is set and nothing else of the step takes effect. -/
def raise (code : FaultCode) (info : Word) (s : State) : State := { s with fault := some ⟨code, info⟩ }

/-- The power cycle, the only way out of a fault or a hang (R249, R264, R280): every element takes its reset value
again, with new draws. The launch and its inputs stay, and the HOST starts again with the stream it then has. It is an
event outside the block, no step of an agent. -/
def powerCycle (prog : List Word) (client : Client) (s : State) : State :=
  State.powerOn s.launch
    { ir := s.ir, present := s.present, acks := s.acks, sched := s.sched, prog := prog, client := client } s.draws

/-- `complete` (R61). -/
def complete (s : State) : State := { s with ready := true }

/-- The part of the issue step that every operation shares: `CUR <- w`, `READY <- 0` (R66). -/
def latch (i : Instr) (s : State) : State := { s with cur := some (encode i), ready := false }

/-- `RES <- v` (R25). -/
def setRes (v : Byte) (s : State) : State := { s with res := some v }

/-- `FrameWrite(i, p, b)` (R74). -/
def frameWrite (i : Fin 4) (p : Fin 8) (b : Bool) (s : State) : State :=
  { s with frame := s.frame.set i (putBit (s.frame.get i) p b) }

/-- `TmrClear()` (R255). -/
def tmrClear (s : State) : State := { s with tmrCnt := 0, tmrOvf := false }

/-- `TmrRun()` (R257). -/
def tmrRun (s : State) : State := { s with tmrOn := true }

/-- `TmrHalt()` (R258). -/
def tmrHalt (s : State) : State := { s with tmrOn := false }

/-- The timer's tick rule (R256). -/
def tmrTick (s : State) : State :=
  { s with
    tmrCnt := if s.tmrOn then (countTick s.launch.tmrWidth s.tmrCnt).1 else s.tmrCnt
    tmrOvf := s.tmrOvf || (s.tmrOn && (countTick s.launch.tmrWidth s.tmrCnt).2) }

/-- Whether a timer read is a draw (R259). -/
def tmrReadIsDraw (s : State) : Bool := s.tmrOvf && s.launch.ovfMode == .havoc

/-- The value `TmrRead()` returns (R259): the count, or after an overflow with `havoc` a free value of the timer's
width. -/
def tmrRead (s : State) : Nat :=
  if tmrReadIsDraw s then Config.freeCount s.draws % 2 ^ s.launch.tmrWidth else s.tmrCnt

/-- The state after `TmrRead()`: unchanged, but for the model's count of draws when the read was one (R259). -/
def afterTmrRead (s : State) : State :=
  { s with draws := if tmrReadIsDraw s then s.draws + 1 else s.draws }

/-- `Emit(e)` (R49). -/
def emit (e : BusEvent) (s : State) : State := { s with busTrace := s.busTrace ++ [e] }

/-- `SE_START_REQ <- 1`: a start condition is requested (R38, R78). -/
def requestStart (s : State) : State := { s with seStartReq := true }

/-- `SE_STOP_REQ <- 1`: a stop condition is requested (R38, R78). -/
def requestStop (s : State) : State := { s with seStopReq := true }

/-- A write of `SE_TXBUF`, which starts a byte transfer (R38, R78, R135). -/
def loadTx (b : Byte) (s : State) : State := { s with seTxbuf := some b, seTxPend := true }

/-- `SE_DONE <- 0` (R39). -/
def clearDone (s : State) : State := { s with seDone := false }

/-- The acknowledgment level of the next byte transfer (R47): listed, or free past the list. -/
def nextAck (s : State) : Bool := s.acks.headD (Config.freeBit s.draws)

/-- The state once that level is used. -/
def afterAck (s : State) : State :=
  { s with acks := s.acks.tail, draws := if s.acks.isEmpty then s.draws + 1 else s.draws }

/-- The shape of every operation. `exec` runs it twice over: as the HOST's issue of it when `READY = 1` (R66), with the
issue actions of its rule; and as CTRL's step of it when `READY = 0` (R64). A fault disables both (R242). -/
def operation (i : Instr) (issue : State → State) (ctrl : State → Result) (s : State) : Result :=
  if s.fault.isSome then .next s
  else if s.ready then .next (issue (latch i s))
  else ctrl s

end Sys2Proof.Machine
end

