-- ==== Sys2Proof/Machine/Client.lean ====
section
/-! DEFINITION. The HOST's pseudo-operations (R101): the display driver of 43_display_client.md and the main loop of
45_control_loop.md. Each expands into operations of the block. -/

namespace Sys2Proof.Machine

/-- `SYS.DELAY T_CMD`, the post-command settle. -/
def settle (l : Launch) : Instr := .sysDelay l.tCmd

/-- `SEND_CMD code` (R161). -/
def sendCmd (l : Launch) (code : Byte) : List Instr := [.busWrite Config.aDev Config.ccCmd code, settle l]

/-- `SEND_CHAR code` (R162). -/
def sendChar (l : Launch) (code : Byte) : List Instr := [.busWrite Config.aDev l.ccChar code]

/-- `LCD_CLEAR` (R164). -/
def lcdClear (l : Launch) : List Instr := sendCmd l l.cmdClear

/-- One item of `INIT_SEQ` (R163). -/
def initItem (l : Launch) : InitItem → List Instr
  | .cmd b => sendCmd l b
  | .delay n => [.sysDelay n.toNat]

/-- `LCD_INIT` (R163). -/
def lcdInit (l : Launch) : List Instr := l.initSeq.flatMap (initItem l) ++ lcdClear l

/-- The command byte of `LCD_LOCATE col, row`, over the integers and reduced modulo 256, with no range check
(R165). -/
def locateAddress (l : Launch) (col row : Nat) : Byte :=
  BitVec.ofInt 8 ((l.locBase : Int) + (l.locStride : Int) * ((row : Int) - 1) + ((col : Int) - 1))

/-- `LCD_LOCATE col, row` (R165). -/
def lcdLocate (l : Launch) (col row : Nat) : List Instr := sendCmd l (locateAddress l col row)

/-- `HexDigit(n)` (R166). -/
def hexDigit (n : BitVec 4) : Byte :=
  if n ≤ 9 then 0x30 + n.zeroExtend 8 else 0x41 + (n.zeroExtend 8 - 10)

/-- `v[7:4]`, the high nibble. -/
def highNibble (v : Byte) : BitVec 4 := v.extractLsb' 4 4

/-- `v[3:0]`, the low nibble. -/
def lowNibble (v : Byte) : BitVec 4 := v.extractLsb' 0 4

/-- `LCD_HEX col, row, v` (R167). -/
def lcdHex (l : Launch) (col row : Nat) (v : Byte) : List Instr :=
  match l.hexLocate with
  | .each =>
    lcdLocate l col row ++ sendChar l (hexDigit (highNibble v)) ++
      (lcdLocate l (col + 1) row ++ sendChar l (hexDigit (lowNibble v)))
  | .once =>
    lcdLocate l col row ++ sendChar l (hexDigit (highNibble v)) ++ sendChar l (hexDigit (lowNibble v))

/-- The operations of `MAIN_ITER` before its first read of RES (R226). -/
def iterationHead : List Instr := [.decService, .frmRead 0]

/-- What `MAIN_ITER` issues once it has read byte `i` of the frame from RES (R226): the byte's rendering, then the
read of the next byte, or, when the loop goes on for ever (R227), the head of the next iteration. -/
def afterByteRead (l : Launch) (i : Fin 4) (forever : Bool) (v : Byte) : List Instr :=
  lcdHex l (2 * i.val + 1) 1 v ++
    (if i.val < 3 then [.frmRead (i.val + 1)] else if forever then iterationHead else [])

/-- The HOST's algorithm once byte `i` is read (R226, R227). -/
def nextClient (i : Fin 4) (forever : Bool) : Client :=
  if i.val < 3 then .rendering (i + 1) forever else if forever then .rendering 0 true else .stream

/-- The HOST sets out to run one `MAIN_ITER` after its stream (R226). -/
def startIteration (s : State) : State :=
  { s with prog := s.prog ++ iterationHead.map encode, client := .rendering 0 false }

/-- The HOST sets out to run the whole firmware after its stream: `LCD_INIT` once, then `MAIN_ITER` for ever (R227,
R282). -/
def startFirmware (s : State) : State :=
  { s with prog := s.prog ++ (lcdInit s.launch ++ iterationHead).map encode, client := .rendering 0 true }

/-- The HOST sets out to run an algorithm after its stream, from its first row (R228). -/
def startAlgorithm (rows : List HostRow) (s : State) : State := { s with client := .table rows (.goto 0) }

/-- The HOST reads RES (R25) and goes on with the value: it notes the value, or the read raises `F_RES_UNDEF` (R245). -/
def readRes (k : Byte → State → State) (s : State) : State :=
  match s.res with
  | none => raise .resUndef 0 s
  | some v => k v { s with resReads := s.resReads ++ [v] }

/-- The HOST reads RES and decides nothing by it (R25). -/
def hostReadStep (s : State) : State := readRes (fun _ t => t) s

/-- The rendering of byte `i`, just read as `v` (R226). -/
def renderByte (i : Fin 4) (forever : Bool) (v : Byte) (s : State) : State :=
  { s with
    prog := s.prog ++ (afterByteRead s.launch i forever v).map encode
    client := nextClient i forever }

/-- The algorithm as it stands when it is to do `next`. -/
def clientAt (rows : List HostRow) (next : HostNext) : Client :=
  if next = .finish then .stream else .table rows next

/-- The HOST goes on with a row: it decides the row's words. A row that is not there ends the algorithm. -/
def enterRow (rows : List HostRow) (n : Nat) (s : State) : State :=
  match rows[n]? with
  | none => { s with client := .stream }
  | some row => { s with prog := s.prog ++ row.words, client := clientAt rows row.next }

/-- The row that a value of RES selects. -/
def selectRow (cases : List (Byte × Nat)) (otherwise : Nat) (v : Byte) : Nat := (cases.lookup v).getD otherwise

/-- What an algorithm that is written out does next. -/
def tableStep (rows : List HostRow) (next : HostNext) (s : State) : State :=
  match next with
  | .finish => { s with client := .stream }
  | .goto n => enterRow rows n s
  | .onRes cases otherwise => readRes (fun v => enterRow rows (selectRow cases otherwise v)) s

/-- What an algorithm that is not written out does next. -/
def unlistedStep (a : HostAction) (s : State) : State :=
  match a with
  | .issue w => { s with prog := s.prog ++ [w] }
  | .read => hostReadStep s
  | .finish => s

/-- What the n-th unlisted algorithm does next: a function of the RES values read so far and of how many words are
issued (R228). -/
def State.unlistedAction (s : State) (n : Nat) : HostAction := Config.hostAlgorithm n s.resReads s.cpc

/-- The HOST's step when its stream holds no further word: its algorithm, if it has one, reads RES or decides the next
words (R226, R228). -/
def clientStep (s : State) : State :=
  match s.client with
  | .stream => s
  | .rendering i forever => readRes (renderByte i forever) s
  | .table rows next => tableStep rows next s
  | .unlisted n => unlistedStep (s.unlistedAction n) s

/-- The HOST's algorithm has something left to do. -/
def clientMoves (s : State) : Bool :=
  match s.client with
  | .stream => false
  | .rendering _ _ => true
  | .table _ _ => true
  | .unlisted n => s.unlistedAction n != .finish

end Sys2Proof.Machine
end

