-- ==== Sys2Proof/Machine/Bus.lean ====
section
/-! DEFINITION. The bus primitives (R130 to R135), the operations `BUS.START`, `BUS.STOP`, `BUS.SEND` and `BUS.CHKACK`
(R136, R137, R140, R141), and the transaction `BUS.WRITE` (R150). -/

namespace Sys2Proof.Machine

/-- One CTRL step of a bus primitive: it goes on, or it ends in this step (R130). -/
inductive Primitive
  | goesOn (s : State)
  | ends (s : State)
  deriving DecidableEq, Repr

/-- `StartIssue()` (R131). -/
def startIssue (s : State) : State :=
  match s.busph with
  | .active => raise .busNotIdle s.curWord s
  | .idle => { requestStart s with bph := .wait }

/-- `StartWait()` (R132). -/
def startWait (s : State) : Primitive :=
  if s.seDone then .ends { clearDone s with busph := .active, bph := .issue } else .goesOn s

/-- `StopIssue()` (R133). -/
def stopIssue (s : State) : State :=
  match s.busph with
  | .idle => raise .busNotActive s.curWord s
  | .active => { requestStop s with bph := .wait }

/-- `StopWait()` (R134). -/
def stopWait (s : State) : Primitive :=
  if s.seDone then .ends { clearDone s with busph := .idle, bph := .issue } else .goesOn s

/-- `SendIssue(b)` (R135). -/
def sendIssue (b : Byte) (s : State) : State :=
  match s.busph with
  | .idle => raise .busNotActive s.curWord s
  | .active => { loadTx b s with bph := .wait }

/-- `SendWait()` (R135). -/
def sendWait (s : State) : Primitive :=
  if s.seDone then .ends { clearDone s with bph := .issue } else .goesOn s

/-- The start primitive's step in its phase (R130, R137). -/
def startStep (s : State) : Primitive :=
  match s.bph with
  | .issue => .goesOn (startIssue s)
  | .wait => startWait s

/-- The stop primitive's step in its phase (R130, R140). -/
def stopStep (s : State) : Primitive :=
  match s.bph with
  | .issue => .goesOn (stopIssue s)
  | .wait => stopWait s

/-- The byte primitive's step in its phase (R130, R141). -/
def sendStep (b : Byte) (s : State) : Primitive :=
  match s.bph with
  | .issue => .goesOn (sendIssue b s)
  | .wait => sendWait s

/-- An operation of one primitive completes in the step in which the primitive ends (R137, R140, R141). -/
def Primitive.completes : Primitive → State
  | .goesOn s => s
  | .ends s => complete s

/-- `BPH <- ISSUE`, the issue action of the bus operations (R137, R140, R141, R150). -/
def busIssue (s : State) : State := { s with bph := .issue }

/-- `BUS.START` (R137). -/
def execBusStart (s : State) : Result :=
  operation .busStart busIssue (fun s => .next (startStep s).completes) s

/-- `BUS.STOP` (R140). -/
def execBusStop (s : State) : Result :=
  operation .busStop busIssue (fun s => .next (stopStep s).completes) s

/-- `BUS.SEND d` (R141). -/
def execBusSend (d : Byte) (s : State) : Result :=
  operation (.busSend d) busIssue (fun s => .next (sendStep d s).completes) s

/-- The CTRL step of `BUS.CHKACK` (R136). -/
def chkackStep (s : State) : State :=
  match s.seAckstat with
  | none => raise .ackUndef s.curWord s
  | some a => complete (setRes (flagByte a) s)

/-- `BUS.CHKACK` (R136). -/
def execBusChkack (s : State) : Result :=
  operation .busChkack id (fun s => .next (chkackStep s)) s

/-- The primitive of the stage `WSEQ` (R150). -/
def writePrimitive (a c d : Byte) (s : State) : Primitive :=
  match s.wseq with
  | .start => startStep s
  | .address => sendStep a s
  | .control => sendStep c s
  | .data => sendStep d s
  | .stop => stopStep s

/-- What follows the end of a stage's primitive: the next stage, or after the stop the end of the operation (R150). -/
def writeAdvance (s : State) : State :=
  match s.wseq with
  | .start => { s with wseq := .address }
  | .address => { s with wseq := .control }
  | .control => { s with wseq := .data }
  | .data => { s with wseq := .stop }
  | .stop => complete { s with wseq := .start }

/-- The CTRL step of `BUS.WRITE` (R150). -/
def writeStep (a c d : Byte) (s : State) : State :=
  match writePrimitive a c d s with
  | .goesOn t => t
  | .ends t => writeAdvance t

/-- `BUS.WRITE a, c, d` (R150). -/
def execBusWrite (a c d : Byte) (s : State) : Result :=
  operation (.busWrite a c d) (fun s => { busIssue s with wseq := .start }) (fun s => .next (writeStep a c d s)) s

end Sys2Proof.Machine
end

