-- ==== Sys2Proof/Machine/Control.lean ====
section
/-! DEFINITION. The delay operation `SYS.DELAY` (R224). -/

namespace Sys2Proof.Machine

/-- The CTRL step of `SYS.DELAY n` (R224). -/
def delayStep (n : Nat) (s : State) : State := if s.delayRuns n then s else complete s

/-- `SYS.DELAY n` (R224). -/
def execSysDelay (n : Nat) (s : State) : Result :=
  operation (.sysDelay n) (fun s => { s with dlyT0 := some s.now }) (fun s => .next (delayStep n s)) s

end Sys2Proof.Machine
end

