-- ==== Sys2Proof/Machine/Decoder.lean ====
section
/-! DEFINITION. The pulse-width decoder: one definition per step rule (R185 to R194), the operations `DEC.FRAME`
(R184), `DEC.CHECK` (R220), `DEC.SERVICE` (R222), and the reads `FRM.READ` (R210) and `LDR.READ` (R212). -/

namespace Sys2Proof.Machine

/-- The `DEBOUNCE` step (R185). -/
def debounceStep (s : State) : State :=
  if s.delayRuns s.launch.tDebounce then s else { s with ind := true, dstate := .ldrWaitHigh }

/-- The `LDR_WAIT_HIGH` step (R186). -/
def ldrWaitHighStep (s : State) : State :=
  if s.irNow = false then s else { tmrRun (tmrClear s) with dstate := .ldrMeasure }

/-- The `LDR_MEASURE` step (R188). -/
def ldrMeasureStep (s : State) : State :=
  if s.irNow = true then s
  else
    { afterTmrRead (tmrHalt s) with
      leaderOk := classify s.launch (tmrRead (tmrHalt s)), dstate := .ldrWaitLow }

/-- Whether the gate keeps the bits from being extracted (R189). -/
def gatedOut (s : State) : Bool := s.launch.gate == .gated && !s.leaderOk

/-- The `LDR_WAIT_LOW` step, and the gate (R189). -/
def ldrWaitLowStep (s : State) : State :=
  if s.irNow = s.measLevel then s
  else if gatedOut s then { s with dstate := .complete }
  else { s with fidx := some 0, bidx := some 0, dstate := .bitSeek }

/-- The `BIT_SEEK` step (R190). -/
def bitSeekStep (s : State) : State :=
  if s.irNow ≠ s.measLevel then s else { tmrRun (tmrClear s) with dstate := .bitMeasure }

/-- The advance of the indices after a stored bit (R192). -/
def advanceBit (s : State) : State :=
  if s.bitIndex < 7 then { s with bidx := some (s.bitIndex + 1), dstate := .bitSeek }
  else if s.frameIndex < 3 then { s with fidx := some (s.frameIndex + 1), bidx := some 0, dstate := .bitSeek }
  else { s with dstate := .complete }

/-- The `BIT_MEASURE` step (R192): the bit goes to position `7 − BIDX` of byte `FIDX`. -/
def bitMeasureStep (s : State) : State :=
  if s.irNow = s.measLevel then s
  else
    advanceBit
      (frameWrite s.frameIndex (Fin.rev s.bitIndex) (bitOf (tmrRead (tmrHalt s))) (afterTmrRead (tmrHalt s)))

/-- The `COMPLETE` step (R194). -/
def completeStep (s : State) : State := complete { tmrHalt s with ind := false, dstate := .idle }

/-- The decoder step of the current `DSTATE` (R184). `IDLE` has none. -/
def decoderStep (s : State) : Result :=
  match s.dstate with
  | .idle => .fault .noRule
  | .debounce => .next (debounceStep s)
  | .ldrWaitHigh => .next (ldrWaitHighStep s)
  | .ldrMeasure => .next (ldrMeasureStep s)
  | .ldrWaitLow => .next (ldrWaitLowStep s)
  | .bitSeek => .next (bitSeekStep s)
  | .bitMeasure => .next (bitMeasureStep s)
  | .complete => .next (completeStep s)

/-- `DEC.FRAME` (R184). -/
def execDecFrame (s : State) : Result :=
  operation .decFrame (fun s => { s with dlyT0 := some s.now, dstate := .debounce }) decoderStep s

/-- `DEC.CHECK` (R220). -/
def execDecCheck (s : State) : Result :=
  operation .decCheck id (fun s => .next (complete (setRes (flagByte s.presentNow) s))) s

/-- The presence check of `DEC.SERVICE` (R222). -/
def presenceCheck (s : State) : State :=
  if s.presentNow then { setRes 0x01 s with dlyT0 := some s.now, dstate := .debounce }
  else complete (setRes 0x00 s)

/-- The CTRL step of `DEC.SERVICE` (R222): the presence check in `IDLE`, then the decoder's steps. -/
def serviceStep (s : State) : Result :=
  match s.dstate with
  | .idle => .next (presenceCheck s)
  | _ => decoderStep s

/-- `DEC.SERVICE` (R222). -/
def execDecService (s : State) : Result :=
  operation .decService (fun s => { s with dstate := .idle }) serviceStep s

/-- The CTRL step of `FRM.READ i` (R210). An index of 4 or more cannot be encoded (R96). -/
def frmReadStep (i : Nat) (s : State) : Result :=
  if h : i < 4 then .next (complete (setRes (frameRead ⟨i, h⟩ s) s)) else .fault .noSuchByte

/-- `FRM.READ i` (R210). -/
def execFrmRead (i : Nat) (s : State) : Result := operation (.frmRead i) id (frmReadStep i) s

/-- `LDR.READ` (R212). -/
def execLdrRead (s : State) : Result :=
  operation .ldrRead id (fun s => .next (complete (setRes (flagByte s.leaderOk) s))) s

end Sys2Proof.Machine
end

