-- ==== Sys2Proof/Machine/Dispatch.lean ====
section
/-! DEFINITION. One arm per operation (R92): its issue when `READY = 1`, its CTRL step when `READY = 0`. -/

namespace Sys2Proof.Machine

def exec (i : Instr) (s : State) : Host.Outcome State Fault Refusal :=
  match i with
  | .busStart => Sys2Proof.Machine.execBusStart s
  | .busStop => Sys2Proof.Machine.execBusStop s
  | .busSend d => Sys2Proof.Machine.execBusSend d s
  | .busChkack => Sys2Proof.Machine.execBusChkack s
  | .busWrite a c d => Sys2Proof.Machine.execBusWrite a c d s
  | .decCheck => Sys2Proof.Machine.execDecCheck s
  | .decFrame => Sys2Proof.Machine.execDecFrame s
  | .decService => Sys2Proof.Machine.execDecService s
  | .frmRead k => Sys2Proof.Machine.execFrmRead k s
  | .ldrRead => Sys2Proof.Machine.execLdrRead s
  | .sysDelay n => Sys2Proof.Machine.execSysDelay n s

end Sys2Proof.Machine
end

