-- ==== Sys2Proof/Machine/Launch.lean ====
section
/-! DEFINITION. Which launches have a meaning (R10, R252). -/

namespace Sys2Proof.Machine

/-- The parameter constraints of R10. (`BIT_MEAS_LEVEL` is a bit by its type.)
DESIGN CHOICE: `LEADER_MAX` may be every bound from `LEADER_MIN` on, as R10 alone says, and not only R8's 0x27
(notes/assumptions/20.md). -/
def launchParametersOk (l : Launch) : Bool :=
  decide (6 ≤ l.tmrWidth) &&
  (match l.leaderMax with
    | none => true
    | some m => decide (Config.leaderMin ≤ m)) &&
  decide (l.tDebounce < 2 ^ 24) && decide (l.tCmd < 2 ^ 24) && decide (l.tPwr < 2 ^ 24) && decide (l.tPost < 2 ^ 24)

/-- An item of `INIT_SEQ` is the power-stabilisation delay `SYS.DELAY T_PWR` (R163). -/
def isPowerDelay (l : Launch) : InitItem → Bool
  | .cmd _ => false
  | .delay n => n.toNat == l.tPwr

/-- `INIT_SEQ` holds the power-stabilisation delay after its first item and before its last (R163).
DESIGN CHOICE: the post-sequence settle `SYS.DELAY T_POST`, which R288 says the sequence includes, is not asked for, since
R252 refuses no launch that lacks it (notes/assumptions/21.md). -/
def initSequenceOk (l : Launch) : Bool := (l.initSeq.tail.dropLast).any (isPowerDelay l)

/-- The boot premises of R281 are met. -/
def bootOk (b : BootPremises) : Bool :=
  b.configured && b.watchdogOff && b.interruptsOff && b.busIdle && b.engineReady

/-- Why the model gives a launch no meaning, or none if it gives it one (R252). -/
def launchRefusal (l : Launch) : Option Refusal :=
  if !launchParametersOk l then some .launchParameters
  else if l.gate == .defective then some .defectiveDecoder
  else if l.showLeader then some .showLeader
  else if !initSequenceOk l then some .initSequence
  else if !bootOk l.boot then some .bootPremises
  else none

end Sys2Proof.Machine
end

