-- ==== Sys2Proof/Machine/Agents.lean ====
section
/-! DEFINITION. The four agents (R20): when each is enabled and what its step is (R62, R64 to R66, R138), which steps
are spins (R63, R196), and the prompt schedule (R200 and 95_test_vectors.md). -/

namespace Sys2Proof.Machine

/-- CTRL is enabled (R64). -/
def ctrlEnabled (s : State) : Bool := !s.ready && s.fault.isNone

/-- The HOST may issue a word or read RES (R25, R66, R242). -/
def hostEnabled (s : State) : Bool := s.ready && s.fault.isNone

/-- A request is pending (R65). That the environment lets the engine complete is what the schedule says (R139). -/
def engineEnabled (s : State) : Bool := s.seStartReq || s.seStopReq || s.seTxPend

/-- The TICK step (R62). -/
def tickStep (s : State) : State := { tmrTick s with now := s.now + 1 }

/-- The ENGINE step (R138). Without a pending request there is none. -/
def engineStep (s : State) : State :=
  if s.seStartReq then { emit .start s with seStartReq := false, seDone := true }
  else if s.seStopReq then { emit .stop s with seStopReq := false, seDone := true }
  else if s.seTxPend then
    { emit (.byte s.txByte (nextAck s)) (afterAck s) with
      seAckstat := some (nextAck s), seTxPend := false, seDone := true }
  else s

/-- CTRL's step when it is enabled: that of the operation in `CUR` (R64). -/
def ctrlStep (s : State) : Result :=
  match s.cur.map decode with
  | some (.legal i) => exec i s
  | _ => .fault .noRule

/-- The HOST's issue of a word: an illegal one raises `F_ILLEGAL` (R243), a legal one advances `CPC` and starts its
operation (R24, R66). -/
def issueWord (w : Word) (s : State) : Result :=
  match decode w with
  | .illegal _ => .next (raise .illegal w s)
  | .legal i => exec i { s with cpc := s.cpc + 1 }

/-- The HOST's step when it is enabled: the next word of its stream, or what its algorithm does next (R228). -/
def hostStep (s : State) : Result :=
  match s.prog[s.cpc]? with
  | some w => issueWord w s
  | none => .next (clientStep s)

/-- The step an agent takes. Scheduled while it is not enabled, it takes none and the state is unchanged. -/
def agentStep (m : Move) (s : State) : Result :=
  match m with
  | .tick => .next (tickStep s)
  | .ctrl => if ctrlEnabled s then ctrlStep s else .next s
  | .engine => .next (engineStep s)
  | .host => if hostEnabled s then hostStep s else .next s
  | .hostRead => if hostEnabled s then .next (hostReadStep s) else .next s

/-- The decoder's step in this state is a spin: the condition to leave the state, in the table of R196, is false. -/
def decoderSpins (s : State) : Bool :=
  match s.dstate with
  | .idle => false
  | .debounce => s.delayRuns s.launch.tDebounce
  | .ldrWaitHigh => s.irNow == false
  | .ldrMeasure => s.irNow == true
  | .ldrWaitLow => s.irNow == s.measLevel
  | .bitSeek => s.irNow != s.measLevel
  | .bitMeasure => s.irNow == s.measLevel
  | .complete => false

/-- A bus primitive's step is a spin: it waits and `SE_DONE` is 0 (R130). -/
def busSpins (s : State) : Bool := s.bph == .wait && !s.seDone

/-- CTRL's step of an operation is a spin (R63). -/
def spins (i : Instr) (s : State) : Bool :=
  match i with
  | .busStart => busSpins s
  | .busStop => busSpins s
  | .busSend _ => busSpins s
  | .busChkack => false
  | .busWrite _ _ _ => busSpins s
  | .decCheck => false
  | .decFrame => decoderSpins s
  | .decService => decoderSpins s
  | .frmRead _ => false
  | .ldrRead => false
  | .sysDelay n => s.delayRuns n

/-- CTRL is enabled and its step is no spin. -/
def ctrlMoves (s : State) : Bool :=
  ctrlEnabled s &&
    match s.cur.map decode with
    | some (.legal i) => !spins i s
    | _ => true

/-- The HOST is enabled and has something to do: a word to issue, or an algorithm to go on with. -/
def hostMoves (s : State) : Bool :=
  hostEnabled s && (decide (s.cpc < s.prog.length) || clientMoves s)

/-- The prompt schedule: the HOST, CTRL and the ENGINE take every step they can before TICK moves time on (R200 and
95_test_vectors.md). In an environment that stalls the engine it takes none (R139). -/
def promptMove (s : State) : Move :=
  if hostMoves s then .host
  else if ctrlMoves s then .ctrl
  else if engineEnabled s && !s.launch.stall then .engine
  else .tick

/-- The agent that takes the next step: the listed one, or the one the launch's policy chooses (R60). -/
def nextMove (s : State) : Move :=
  match s.sched with
  | m :: _ => m
  | [] =>
    match s.launch.policy with
    | .prompt => promptMove s
    | .free => Config.freeMove s.draws

/-- The state once that choice is made: the listed agent is used up, or a free choice is counted. -/
def afterChoice (s : State) : State :=
  { s with
    sched := s.sched.tail
    draws := if s.sched.isEmpty && s.launch.policy == .free then s.draws + 1 else s.draws }

/-- A stream with `w` at index `n`: the words before and after keep their places, and missing words before it are
0x00000000. -/
def placeWord (prog : List Word) (n : Nat) (w : Word) : List Word :=
  prog.take n ++ List.replicate (n - prog.length) 0 ++ w :: prog.drop (n + 1)

end Sys2Proof.Machine
end

