-- ==== Sys2Proof/Machine/Step.lean ====
section
/-! DEFINITION. The step: one atomic transition of one agent (R60). The HOST's issue takes the word at `PROG[CPC]`
(R66, R228): the block has no other fetch (R79, R86). -/

namespace Sys2Proof.Machine

/-- One step of the machine: a launch without a meaning is refused (R252); else the next agent takes its step. -/
def step (s : State) : Host.Outcome State Fault Refusal :=
  match launchRefusal s.launch with
  | some r => .refused r
  | none => agentStep (nextMove s) (afterChoice s)

/-- The state with a word placed where the HOST takes its next one, at `PROG[CPC]`, and the HOST next to step, with
nothing in the way of its issue (`READY = 1`, no fault). -/
def State.withFetchWord (s : State) (nbits w : Nat) : State :=
  { s with
    prog := placeWord s.prog s.cpc (BitVec.ofNat 32 (w % 2 ^ nbits))
    sched := .host :: s.sched
    ready := true
    fault := none }

end Sys2Proof.Machine
end

