-- ==== Sys2Proof/Safety.lean ====
section
/-! DEFINITION. What a safe state is and what runs are, in the terms the statements use: the invariant every step
keeps (R144, R230 and what they rest on), the states a launch reaches, and the run of one operation. -/

namespace Sys2Proof.Machine

/-- No request is pending at the engine. -/
def NoRequest (s : State) : Prop := s.seStartReq = false ∧ s.seStopReq = false ∧ s.seTxPend = false

/-- Nothing is pending and no completion is waiting to be seen (R144). -/
def EngineQuiet (s : State) : Prop := NoRequest s ∧ s.seDone = false

/-- The three requests CTRL makes of the engine (R131, R133, R135). -/
inductive Request
  | start
  | stop
  | byte
  deriving DecidableEq, Repr

/-- Exactly this request is pending, and no completion has been set (R38). -/
def Pending (k : Request) (s : State) : Prop :=
  s.seStartReq = decide (k = .start) ∧ s.seStopReq = decide (k = .stop) ∧ s.seTxPend = decide (k = .byte) ∧
    s.seDone = false ∧ (k = .byte → s.seTxbuf.isSome = true)

/-- The request has been completed and CTRL has not yet seen it (R39). -/
def Answered (s : State) : Prop := NoRequest s ∧ s.seDone = true

/-- A bus primitive is where its phase says (R130). -/
def PrimitiveOk (k : Request) (s : State) : Prop :=
  (s.bph = .issue → EngineQuiet s) ∧ (s.bph = .wait → Pending k s ∨ Answered s)

/-- The bus driver rests: phase `ISSUE`, engine quiet (R144). -/
def BusResting (s : State) : Prop := s.bph = .issue ∧ EngineQuiet s

/-- The decoder's timer runs exactly in the two measuring states (R28). -/
def measuring : DState → Bool
  | .ldrMeasure => true
  | .bitMeasure => true
  | _ => false

/-- The states in which the indicator is on: from the end of the debounce to FrameComplete (R33). -/
def decoding : DState → Bool
  | .idle => false
  | .debounce => false
  | _ => true

/-- What the decoder's state reads has been written (R29, R32). -/
def DecoderOk (s : State) : Prop :=
  (s.dstate = .debounce → s.dlyT0.isSome = true) ∧
    (s.dstate = .bitSeek ∨ s.dstate = .bitMeasure → s.fidx.isSome = true ∧ s.bidx.isSome = true)

/-- An operation in progress is in one of its own sub-states (R64). -/
def OperationOk (i : Instr) (s : State) : Prop :=
  match i with
  | .busStart => s.dstate = .idle ∧ PrimitiveOk .start s
  | .busStop => s.dstate = .idle ∧ PrimitiveOk .stop s
  | .busSend _ => s.dstate = .idle ∧ PrimitiveOk .byte s
  | .busWrite _ _ _ =>
    s.dstate = .idle ∧
      match s.wseq with
      | .start => PrimitiveOk .start s
      | .address => s.busph = .active ∧ PrimitiveOk .byte s
      | .control => s.busph = .active ∧ PrimitiveOk .byte s
      | .data => s.busph = .active ∧ PrimitiveOk .byte s
      | .stop => s.busph = .active ∧ PrimitiveOk .stop s
  | .decFrame => BusResting s ∧ s.dstate ≠ .idle ∧ DecoderOk s
  | .decService => BusResting s ∧ DecoderOk s
  | .sysDelay _ => BusResting s ∧ s.dstate = .idle ∧ s.dlyT0.isSome = true
  | .busChkack => BusResting s ∧ s.dstate = .idle
  | .decCheck => BusResting s ∧ s.dstate = .idle
  | .frmRead _ => BusResting s ∧ s.dstate = .idle
  | .ldrRead => BusResting s ∧ s.dstate = .idle

/-- The invariant of the machine. -/
structure Inv (s : State) : Prop where
  /-- the launch has a meaning (R252) -/
  launch : launchRefusal s.launch = none
  /-- the count fits the timer's width (R34) -/
  count : s.tmrCnt < 2 ^ s.launch.tmrWidth
  /-- the timer runs exactly while an interval is measured (R28) -/
  timer : s.tmrOn = measuring s.dstate
  /-- the indicator is on from the end of the debounce to FrameComplete (R33) -/
  indicator : s.ind = decoding s.dstate
  /-- a delay started in the past (R32) -/
  delay : ∀ t, s.dlyT0 = some t → t ≤ s.now
  /-- `CPC` stays inside the HOST's stream (R24, R228) -/
  stream : s.cpc ≤ s.prog.length
  /-- `READY = 1`: the bus driver and the decoder rest (R144, R230) -/
  rest : s.ready = true → BusResting s ∧ s.dstate = .idle
  /-- `READY = 0`: `CUR` is the word of an operation that is in one of its sub-states (R64) -/
  busy : s.ready = false → ∃ i : Instr, i.wf = true ∧ s.cur = some (encode i) ∧ OperationOk i s

/-- The states a run reaches, in any launch with a meaning, with any inputs, schedule and HOST stream. -/
inductive Reachable : State → Prop
  | reset (l : Launch) (inp : Inputs) (d : Nat) (h : launchRefusal l = none) : Reachable (State.powerOn l inp d)
  | step {s t : State} (h : Reachable s) (hs : step s = .next t) : Reachable t

/-- A run of the machine from `s` to `t` through states in which `READY = 0`: the run of the operation in progress in
`s`, up to and including the step that completes it. -/
inductive BusyRun : State → State → Prop
  | here (s : State) : BusyRun s s
  | step {s t u : State} (h : BusyRun s t) (hb : t.ready = false) (hs : step t = .next u) : BusyRun s u

/-- `k` steps of the machine. -/
abbrev runFor (k : Nat) (s : State) : Result := Host.Core.run Sys2Proof.core k s

/-- `n` TICK steps in a row. -/
def ticks : Nat → State → State
  | 0, s => s
  | n + 1, s => ticks n (tickStep s)

/-- An infinite execution: in each of its states one agent takes its step (R60). -/
def Execution (x : Nat → State) : Prop := ∀ n, step (x n) = .next (x (n + 1))

/-- A fair execution (R67): time advances without bound; CTRL, enabled for ever, takes a step again; and so does the
ENGINE in an environment that does not stall it. Nothing bounds when. -/
structure Fair (x : Nat → State) : Prop where
  tick : ∀ n, ∃ m, n ≤ m ∧ nextMove (x m) = .tick
  ctrl : ∀ n, (∀ m, n ≤ m → ctrlEnabled (x m) = true) → ∃ m, n ≤ m ∧ nextMove (x m) = .ctrl
  engine : (x 0).launch.stall = false →
    ∀ n, (∀ m, n ≤ m → engineEnabled (x m) = true) → ∃ m, n ≤ m ∧ nextMove (x m) = .engine

/-- A hang (R251): from some point on CTRL is enabled for ever and each of its steps is a spin. -/
def Hangs (x : Nat → State) : Prop :=
  ∃ n, ∀ m, n ≤ m → ctrlEnabled (x m) = true ∧ (nextMove (x m) = .ctrl → x (m + 1) = afterChoice (x m))

/-- A state in which the program is used up, `READY = 1` and there is no fault (R232). The program of an algorithm is
used up only when the algorithm has nothing left to issue or decide (R228; DESIGN CHOICE, notes/assumptions/6.md). -/
def EndState (s : State) : Prop :=
  s.cpc = s.prog.length ∧ clientMoves s = false ∧ s.ready = true ∧ s.fault = none

/-- The run from `s` ends in `t`, after `k` steps: `t` is the first of its states that is an end state (R232). -/
def EndsAfter (k : Nat) (s t : State) : Prop :=
  runFor k s = .next t ∧ EndState t ∧ ∀ j u, j < k → runFor j s = .next u → ¬ EndState u

/-- What is observed of an end state (R232). -/
structure Observation where
  frame : Frame
  leaderOk : Bool
  res : Option Byte
  busTrace : List BusEvent
  ind : Bool
  timer : Nat × Bool × Bool
  resReads : List Byte
  deriving DecidableEq, Repr

/-- The observation of a state (R232). -/
def State.observe (s : State) : Observation :=
  ⟨s.frame, s.leaderOk, s.res, s.busTrace, s.ind, (s.tmrCnt, s.tmrOn, s.tmrOvf), s.resReads⟩

/-- The prompt schedule runs with no listed step left, so it alone chooses. -/
def PromptRun (s : State) : Prop := s.launch.policy = .prompt ∧ s.sched = []

/-- The line `IR` carries the bit pulses `ps` from time `t` on, and level `¬M` at the end (R105): each pulse is a
separator of `p.1` ticks at level `¬M` and a measured interval of `p.2` ticks at level M. -/
def Carries (s : State) : Nat → List (Nat × Nat) → Prop
  | t, [] => s.irAt t = !s.measLevel
  | t, p :: ps =>
    (∀ u, t ≤ u → u < t + p.1 → s.irAt u = !s.measLevel) ∧
    (∀ u, t + p.1 ≤ u → u < t + p.1 + p.2 → s.irAt u = s.measLevel) ∧
    Carries s (t + p.1 + p.2) ps

/-- Two states that agree on everything but what the frame holds. -/
def AgreeButFrame (s t : State) : Prop := { s with frame := t.frame } = t

/-- Two outcomes that agree on everything but `SE_ACKSTAT`. -/
def AgreeButAck (r q : Result) : Prop :=
  match r, q with
  | .next s, .next t => { s with seAckstat := t.seAckstat } = t
  | .fault f, .fault g => f = g
  | .refused f, .refused g => f = g
  | _, _ => False

end Sys2Proof.Machine
end

