-- ==== Sys2Proof/Certificates/Slice0/Obligations.lean ====
section
/-! DEFINITION. The statements for the provers. Each docstring names the rule of spec/ it formalises. "Free" values of
the model are bound by `∃` with what the spec does say of them, or stay inside the model's own state. -/

open Sys2Proof Sys2Proof.Machine

/-! ## Encoding -/

/-- The words of V10 decode as the spec says (R92, R94, R97, R243's examples). -/
def Obligations.CommandWordsOfTheSpecDecode : Prop :=
  decode 0x01000000 = .legal .busStart ∧
  decode 0x02000000 = .legal .busStop ∧
  decode 0x030000FF = .legal (.busSend 0xFF) ∧
  decode 0x04000000 = .legal .busChkack ∧
  decode 0x057C0001 = .legal (.busWrite 0x7C 0x00 0x01) ∧
  decode 0x10000000 = .legal .decCheck ∧
  decode 0x11000000 = .legal .decFrame ∧
  decode 0x12000000 = .legal .decService ∧
  decode 0x13000003 = .legal (.frmRead 3) ∧
  decode 0x14000000 = .legal .ldrRead ∧
  decode 0x20FFFFFF = .legal (.sysDelay 16777215) ∧
  decode 0x00000000 = .illegal .unassignedOpcode ∧
  decode 0xFF000000 = .illegal .unassignedOpcode ∧
  decode 0x01000001 = .illegal .requiredZero ∧
  decode 0x03000100 = .illegal .requiredZero ∧
  decode 0x13000004 = .illegal .requiredZero

/-- Every operation the assembly syntax can write is what its word decodes to, operands and all (R91, R93, R100). -/
def Obligations.EncodedOperationsDecodeBack : Prop :=
  ∀ i : Instr, i.wf = true → decode (encode i) = .legal i

/-- Every legal word is the word of the well-formed operation it decodes to: no bit of it is dropped (R94, R99). -/
def Obligations.LegalWordsEncodeBack : Prop :=
  ∀ (w : Word) (i : Instr), decode w = .legal i → i.wf = true ∧ encode i = w

/-- R99: the decode function opcode by opcode, and the same verdicts as match and mask pairs: a word is legal with
mnemonic m exactly when it matches m's row, and no word matches two rows. -/
def Obligations.DecodeFollowsTheOpcodeTable : Prop :=
  (∀ w : Word,
    (w.extractLsb' 24 8 = 0x01 →
      decode w = if w.extractLsb' 0 24 = 0 then .legal .busStart else .illegal .requiredZero) ∧
    (w.extractLsb' 24 8 = 0x02 →
      decode w = if w.extractLsb' 0 24 = 0 then .legal .busStop else .illegal .requiredZero) ∧
    (w.extractLsb' 24 8 = 0x03 →
      decode w = if w.extractLsb' 8 16 = 0 then .legal (.busSend (w.extractLsb' 0 8)) else .illegal .requiredZero) ∧
    (w.extractLsb' 24 8 = 0x04 →
      decode w = if w.extractLsb' 0 24 = 0 then .legal .busChkack else .illegal .requiredZero) ∧
    (w.extractLsb' 24 8 = 0x05 →
      decode w = .legal (.busWrite (w.extractLsb' 16 8) (w.extractLsb' 8 8) (w.extractLsb' 0 8))) ∧
    (w.extractLsb' 24 8 = 0x10 →
      decode w = if w.extractLsb' 0 24 = 0 then .legal .decCheck else .illegal .requiredZero) ∧
    (w.extractLsb' 24 8 = 0x11 →
      decode w = if w.extractLsb' 0 24 = 0 then .legal .decFrame else .illegal .requiredZero) ∧
    (w.extractLsb' 24 8 = 0x12 →
      decode w = if w.extractLsb' 0 24 = 0 then .legal .decService else .illegal .requiredZero) ∧
    (w.extractLsb' 24 8 = 0x13 →
      decode w = if w.extractLsb' 2 22 = 0 then .legal (.frmRead (w.extractLsb' 0 2).toNat)
        else .illegal .requiredZero) ∧
    (w.extractLsb' 24 8 = 0x14 →
      decode w = if w.extractLsb' 0 24 = 0 then .legal .ldrRead else .illegal .requiredZero) ∧
    (w.extractLsb' 24 8 = 0x20 → decode w = .legal (.sysDelay (w.extractLsb' 0 24).toNat)) ∧
    (w.extractLsb' 24 8 ∉ ([0x01, 0x02, 0x03, 0x04, 0x05, 0x10, 0x11, 0x12, 0x13, 0x14, 0x20] : List Byte) →
      decode w = .illegal .unassignedOpcode)) ∧
  (∀ (w : Word) (m : String),
    (∃ i, decode w = .legal i ∧ i.mnemonic = m) ↔ ∃ r ∈ opcodeTable, r.mnemonic = m ∧ w &&& r.mask = r.value) ∧
  (∀ (w : Word) (r q : TableRow), r ∈ opcodeTable → q ∈ opcodeTable →
    w &&& r.mask = r.value → w &&& q.mask = q.value → r = q)

/-! ## Reset and the invariant -/

/-- Reset leaves every element at its value of R69, in any launch and with any inputs. The draws (`FRAME`, `LEADER_OK`,
`TMR_CNT`) are left open, but that the count fits the timer. A power cycle is a reset: of the block's own state nothing
survives it (R249, R264, R280). Three clauses are the model's choice and no rule's: that a power cycle keeps the launch and
the waveforms of `IR` and `PRESENT` (log entry 14), that the HOST has a log of RES reads (log entry 6), and that
`State.reset` is a reset in an accepted launch (log entry 2). -/
def Obligations.ResetLeavesEveryElementAtItsValue : Prop :=
  (∀ (l : Launch) (inp : Inputs) (d : Nat) (s : State), s = State.powerOn l inp d →
    s.launch = l ∧ s.ir = inp.ir ∧ s.present = inp.present ∧
    s.now = 0 ∧ s.ready = true ∧ s.cur = none ∧ s.cpc = 0 ∧ s.res = none ∧ s.fault = none ∧
    s.dstate = .idle ∧ s.fidx = none ∧ s.bidx = none ∧ s.dlyT0 = none ∧ s.ind = false ∧
    s.tmrCnt < 2 ^ l.tmrWidth ∧ s.tmrOn = false ∧ s.tmrOvf = false ∧ s.tmrIe = false ∧ s.seIe = false ∧
    s.seStartReq = false ∧ s.seStopReq = false ∧ s.seTxPend = false ∧ s.seDone = false ∧
    s.seAckstat = none ∧ s.seTxbuf = none ∧ s.bph = .issue ∧ s.wseq = .start ∧ s.busph = .idle ∧
    s.busTrace = [] ∧ s.resReads = []) ∧
  (∀ (p : List Word) (c : Client) (s : State), ∃ (inp : Inputs) (d : Nat),
    powerCycle p c s = State.powerOn s.launch inp d ∧ inp.ir = s.ir ∧ inp.present = s.present ∧ inp.prog = p ∧
      inp.client = c) ∧
  State.reset = State.powerOn Launch.default Inputs.none 0 ∧ launchRefusal Launch.default = none

/-- The invariant holds at reset, in every launch with a meaning and with any inputs. -/
def Obligations.ResetMeetsTheInvariant : Prop :=
  ∀ (l : Launch) (inp : Inputs) (d : Nat), launchRefusal l = none → Inv (State.powerOn l inp d)

/-- Every step of every agent keeps the invariant. -/
def Obligations.StepKeepsTheInvariant : Prop :=
  ∀ s t : State, Inv s → step s = .next t → Inv t

/-- The machine never stops: from every state that meets the invariant a step answers a next state, whichever agent
takes it. So every fault of the spec is a next state, and the model's own stops are out of reach. -/
def Obligations.InvariantStatesNeverStop : Prop :=
  ∀ s : State, Inv s → ∃ t, step s = .next t

/-- R144 and R230: whenever `READY = 1` in a state a run reaches, the bus driver and the decoder are at rest. -/
def Obligations.ReadyMeansAtRest : Prop :=
  ∀ s : State, Reachable s → s.ready = true →
    s.seDone = false ∧ s.bph = .issue ∧ s.seStartReq = false ∧ s.seStopReq = false ∧ s.seTxPend = false ∧
    s.dstate = .idle

/-- In every state a run reaches at most one request is pending, never beside a completion not yet seen (R38's derived
sentence); the timer runs only in a measuring state, and `IND` is 1 exactly from the end of the debounce to FrameComplete
(R28, R33). -/
def Obligations.OneRequestAtATime : Prop :=
  ∀ s : State, Reachable s →
    ¬ (s.seStartReq = true ∧ s.seStopReq = true) ∧ ¬ (s.seStartReq = true ∧ s.seTxPend = true) ∧
    ¬ (s.seStopReq = true ∧ s.seTxPend = true) ∧
    (s.seDone = true → s.seStartReq = false ∧ s.seStopReq = false ∧ s.seTxPend = false) ∧
    (s.tmrOn = true ↔ s.dstate = .ldrMeasure ∨ s.dstate = .bitMeasure) ∧
    (s.ind = true ↔ s.dstate ≠ .idle ∧ s.dstate ≠ .debounce)

/-! ## The agents -/

/-- R64: CTRL is enabled exactly when `READY = 0` and `FAULT = none`, and its step is that of the operation in `CUR`;
when it is not enabled it takes no step. -/
def Obligations.CtrlRunsTheCurrentOperation : Prop :=
  ∀ s : State, launchRefusal s.launch = none → nextMove s = .ctrl →
    (∀ (w : Word) (i : Instr), s.ready = false → s.fault = none → s.cur = some w → decode w = .legal i →
      step s = exec i (afterChoice s)) ∧
    ((s.ready = true ∨ s.fault ≠ none) → step s = .next (afterChoice s))

/-- R66: the HOST's issue step, for a HOST that runs a program. A legal word is latched into `CUR`, `READY` becomes 0,
`CPC` advances and the operation's issue actions are applied; an illegal one raises `F_ILLEGAL` with the word and nothing
else changes; while `READY = 0` or a fault is set the HOST has no step. -/
def Obligations.HostIssuesTheNextWord : Prop :=
  ∀ s : State, launchRefusal s.launch = none → nextMove s = .host →
    (∀ (w : Word) (i : Instr), s.ready = true → s.fault = none → s.prog[s.cpc]? = some w → decode w = .legal i →
      step s = exec i { afterChoice s with cpc := s.cpc + 1 } ∧
      ∃ t, step s = .next t ∧ t.cur = some w ∧ t.ready = false ∧ t.cpc = s.cpc + 1 ∧ t.prog = s.prog) ∧
    (∀ (w : Word) (why : Illegal), s.ready = true → s.fault = none → s.prog[s.cpc]? = some w →
      decode w = .illegal why → step s = .next { afterChoice s with fault := some ⟨.illegal, w⟩ }) ∧
    ((s.ready = false ∨ s.fault ≠ none) → step s = .next (afterChoice s))

/-- A word placed by `withFetchWord` is the operation the very next step starts, whatever the state. `withFetchWord` is
the model's choice of how a word is loaded from outside (log entry 8): its writes of `READY` and `FAULT` are no step of the
block. That the HOST then issues the word at `PROG[CPC]` is R66 and R228. -/
def Obligations.FetchedWordRunsNext : Prop :=
  ∀ (s : State) (nbits w : Nat) (i : Instr), launchRefusal s.launch = none → decodeTableWord nbits w = some i →
    ∃ p : List Word, step (s.withFetchWord nbits w) =
      exec i { s with prog := p, cpc := s.cpc + 1, ready := true, fault := none }

/-- What issuing an operation does, for each of the eleven (R66 and the issue paragraphs of R136, R137, R140, R141,
R150, R184, R210, R212, R220, R222, R224). Nothing else changes. -/
def Obligations.EveryOperationIssues : Prop :=
  ∀ s : State, s.ready = true → s.fault = none →
    exec .busStart s = .next { s with cur := some 0x01000000, ready := false, bph := .issue } ∧
    exec .busStop s = .next { s with cur := some 0x02000000, ready := false, bph := .issue } ∧
    (∀ d, exec (.busSend d) s = .next { s with cur := some (encode (.busSend d)), ready := false, bph := .issue }) ∧
    exec .busChkack s = .next { s with cur := some 0x04000000, ready := false } ∧
    (∀ a c d, exec (.busWrite a c d) s =
      .next { s with cur := some (encode (.busWrite a c d)), ready := false, bph := .issue, wseq := .start }) ∧
    exec .decCheck s = .next { s with cur := some 0x10000000, ready := false } ∧
    exec .decFrame s =
      .next { s with cur := some 0x11000000, ready := false, dlyT0 := some s.now, dstate := .debounce } ∧
    exec .decService s = .next { s with cur := some 0x12000000, ready := false, dstate := .idle } ∧
    (∀ k, exec (.frmRead k) s = .next { s with cur := some (encode (.frmRead k)), ready := false }) ∧
    exec .ldrRead s = .next { s with cur := some 0x14000000, ready := false } ∧
    (∀ n, exec (.sysDelay n) s =
      .next { s with cur := some (encode (.sysDelay n)), ready := false, dlyT0 := some s.now })

/-- R62 and R256: the TICK step. -/
def Obligations.TickAdvancesTimeAndTimer : Prop :=
  ∀ s : State, launchRefusal s.launch = none → nextMove s = .tick →
    (s.tmrOn = true → s.tmrCnt = 2 ^ s.launch.tmrWidth - 1 →
      step s = .next { afterChoice s with now := s.now + 1, tmrCnt := 0, tmrOvf := true }) ∧
    (s.tmrOn = true → s.tmrCnt ≠ 2 ^ s.launch.tmrWidth - 1 →
      step s = .next { afterChoice s with now := s.now + 1, tmrCnt := s.tmrCnt + 1 }) ∧
    (s.tmrOn = false → step s = .next { afterChoice s with now := s.now + 1 })

/-- R138: the ENGINE completes the one pending request; the level `a` of a byte is the environment's. With no request
pending it has no step (R65). -/
def Obligations.EngineCompletesThePendingRequest : Prop :=
  ∀ s : State, launchRefusal s.launch = none → nextMove s = .engine →
    (s.seStartReq = true →
      step s = .next { afterChoice s with
        busTrace := s.busTrace ++ [.start], seStartReq := false, seDone := true }) ∧
    (s.seStartReq = false → s.seStopReq = true →
      step s = .next { afterChoice s with
        busTrace := s.busTrace ++ [.stop], seStopReq := false, seDone := true }) ∧
    (∀ b : Byte, s.seStartReq = false → s.seStopReq = false → s.seTxPend = true → s.seTxbuf = some b →
      ∃ (a : Bool) (l : List Bool) (n : Nat),
        (∀ x xs, s.acks = x :: xs → a = x ∧ l = xs) ∧
        step s = .next { afterChoice s with
          busTrace := s.busTrace ++ [.byte b a], seAckstat := some a, seTxPend := false, seDone := true,
          acks := l, draws := n }) ∧
    (s.seStartReq = false → s.seStopReq = false → s.seTxPend = false → step s = .next (afterChoice s))

/-- The HOST's read of RES: a value is noted (R25, R82); `F_RES_UNDEF` while RES holds none, with info 0 and `READY` kept
(R245). -/
def Obligations.HostReadsTheResult : Prop :=
  ∀ s : State, launchRefusal s.launch = none → nextMove s = .hostRead → s.ready = true → s.fault = none →
    (∀ v, s.res = some v → step s = .next { afterChoice s with resReads := s.resReads ++ [v] }) ∧
    (s.res = none → step s = .next { afterChoice s with fault := some ⟨.resUndef, 0⟩ })

/-- R242: once a fault is set it stays, CTRL and the HOST take no step, and only time, the timer, and a completion of the
ENGINE can change anything. -/
def Obligations.FaultIsSticky : Prop :=
  ∀ s t : State, s.fault ≠ none → step s = .next t →
    t = afterChoice s ∨
    (nextMove s = .tick ∧ t = tickStep (afterChoice s)) ∨
    (nextMove s = .engine ∧ (s.seStartReq = true ∨ s.seStopReq = true ∨ s.seTxPend = true) ∧
      t.fault = s.fault ∧ t.ready = s.ready ∧ t.cur = s.cur ∧ t.cpc = s.cpc ∧ t.res = s.res ∧ t.now = s.now)

/-- R63: CTRL's step of an operation leaves the state as it is exactly when the condition it awaits is false: `SE_DONE = 1`
for a bus primitive that waits (R132, R134, R135), the elapsed delay (R185, R224), the level of `IR` that the step of the
decoder's state awaits (R186 to R192). -/
def Obligations.OnlySpinsChangeNothing : Prop :=
  ∀ (i : Instr) (s t : State), s.ready = false → s.fault = none → exec i s = .next t →
    (t = s ↔
      match i with
      | .busStart => s.bph = .wait ∧ s.seDone = false
      | .busStop => s.bph = .wait ∧ s.seDone = false
      | .busSend _ => s.bph = .wait ∧ s.seDone = false
      | .busWrite _ _ _ => s.bph = .wait ∧ s.seDone = false
      | .sysDelay n => s.now < s.delayStart + n
      | .decFrame | .decService =>
        (s.dstate = .debounce ∧ s.now < s.delayStart + s.launch.tDebounce) ∨
        (s.dstate = .ldrWaitHigh ∧ s.irNow = false) ∨
        (s.dstate = .ldrMeasure ∧ s.irNow = true) ∨
        (s.dstate = .ldrWaitLow ∧ s.irNow = s.measLevel) ∨
        (s.dstate = .bitSeek ∧ s.irNow ≠ s.measLevel) ∨
        (s.dstate = .bitMeasure ∧ s.irNow = s.measLevel)
      | .busChkack | .decCheck | .frmRead _ | .ldrRead => False)

/-! ## The bus driver -/

/-- R131 and R132, as `BUS.START` runs them: the request, `F_BUS_NOT_IDLE` while a transaction is open, the spin, and the
end of the primitive, which completes the operation (R137). Nothing else changes. -/
def Obligations.StartPrimitive : Prop :=
  ∀ s : State, s.ready = false → s.fault = none →
    (s.bph = .issue → s.busph = .idle → exec .busStart s = .next { s with seStartReq := true, bph := .wait }) ∧
    (∀ w, s.bph = .issue → s.busph = .active → s.cur = some w →
      exec .busStart s = .next { s with fault := some ⟨.busNotIdle, w⟩ }) ∧
    (s.bph = .wait → s.seDone = false → exec .busStart s = .next s) ∧
    (s.bph = .wait → s.seDone = true →
      exec .busStart s = .next { s with seDone := false, busph := .active, bph := .issue, ready := true })

/-- R133 and R134, as `BUS.STOP` runs them (R140). -/
def Obligations.StopPrimitive : Prop :=
  ∀ s : State, s.ready = false → s.fault = none →
    (s.bph = .issue → s.busph = .active → exec .busStop s = .next { s with seStopReq := true, bph := .wait }) ∧
    (∀ w, s.bph = .issue → s.busph = .idle → s.cur = some w →
      exec .busStop s = .next { s with fault := some ⟨.busNotActive, w⟩ }) ∧
    (s.bph = .wait → s.seDone = false → exec .busStop s = .next s) ∧
    (s.bph = .wait → s.seDone = true →
      exec .busStop s = .next { s with seDone := false, busph := .idle, bph := .issue, ready := true })

/-- R135, as `BUS.SEND d` runs it (R141), for every byte. -/
def Obligations.BytePrimitive : Prop :=
  ∀ (s : State) (d : Byte), s.ready = false → s.fault = none →
    (s.bph = .issue → s.busph = .active →
      exec (.busSend d) s = .next { s with seTxbuf := some d, seTxPend := true, bph := .wait }) ∧
    (∀ w, s.bph = .issue → s.busph = .idle → s.cur = some w →
      exec (.busSend d) s = .next { s with fault := some ⟨.busNotActive, w⟩ }) ∧
    (s.bph = .wait → s.seDone = false → exec (.busSend d) s = .next s) ∧
    (s.bph = .wait → s.seDone = true →
      exec (.busSend d) s = .next { s with seDone := false, bph := .issue, ready := true })

/-- `BUS.CHKACK` (R136): RES is the last byte's level, or `F_ACK_UNDEF` before any byte (R246). -/
def Obligations.CheckAckReadsTheLastLevel : Prop :=
  ∀ s : State, s.ready = false → s.fault = none →
    (s.seAckstat = some false → exec .busChkack s = .next { s with res := some 0x00, ready := true }) ∧
    (s.seAckstat = some true → exec .busChkack s = .next { s with res := some 0x01, ready := true }) ∧
    (∀ w, s.seAckstat = none → s.cur = some w →
      exec .busChkack s = .next { s with fault := some ⟨.ackUndef, w⟩ })

/-- R150's pseudocode, stage by stage: the five primitives in order on A, C and D, each with its request, spin and end;
the end of the stop completes the operation. -/
def Obligations.WriteTransactionStages : Prop :=
  ∀ (s : State) (a c d : Byte), s.ready = false → s.fault = none →
    (s.bph = .wait → s.seDone = false → exec (.busWrite a c d) s = .next s) ∧
    (s.wseq = .start →
      (s.bph = .issue → s.busph = .idle →
        exec (.busWrite a c d) s = .next { s with seStartReq := true, bph := .wait }) ∧
      (∀ w, s.bph = .issue → s.busph = .active → s.cur = some w →
        exec (.busWrite a c d) s = .next { s with fault := some ⟨.busNotIdle, w⟩ }) ∧
      (s.bph = .wait → s.seDone = true →
        exec (.busWrite a c d) s =
          .next { s with seDone := false, busph := .active, bph := .issue, wseq := .address })) ∧
    (∀ (b : Byte) (q : WriteStage),
      (s.wseq = .address ∧ b = a ∧ q = .control) ∨ (s.wseq = .control ∧ b = c ∧ q = .data) ∨
        (s.wseq = .data ∧ b = d ∧ q = .stop) →
      (s.bph = .issue → s.busph = .active →
        exec (.busWrite a c d) s = .next { s with seTxbuf := some b, seTxPend := true, bph := .wait }) ∧
      (s.bph = .wait → s.seDone = true →
        exec (.busWrite a c d) s = .next { s with seDone := false, bph := .issue, wseq := q })) ∧
    (s.wseq = .stop →
      (s.bph = .issue → s.busph = .active →
        exec (.busWrite a c d) s = .next { s with seStopReq := true, bph := .wait }) ∧
      (s.bph = .wait → s.seDone = true →
        exec (.busWrite a c d) s =
          .next { s with seDone := false, busph := .idle, bph := .issue, wseq := .start, ready := true }))

/-- R152: a completed `BUS.WRITE` has appended exactly its five events, contiguous and in order, whatever the schedule and
whatever levels the device returned; the level of the data byte is the one left in `SE_ACKSTAT`, and neither
`DSTATE`, `FIDX`, `BIDX`, `DLY_T0`, `IND`, `LEADER_OK`, the frame and `TMR_ON` nor RES, `CPC` and the HOST's stream have
changed. -/
def Obligations.CompletedWriteEmitsFiveEvents : Prop :=
  ∀ (s t : State) (a c d : Byte), s.ready = false → s.fault = none → s.cur = some (encode (.busWrite a c d)) →
    s.bph = .issue → s.wseq = .start → s.busph = .idle → EngineQuiet s →
    BusyRun s t → t.ready = true →
    ∃ a1 a2 a3 : Bool,
      t.busTrace = s.busTrace ++ [.start, .byte a a1, .byte c a2, .byte d a3, .stop] ∧
      t.seAckstat = some a3 ∧ t.busph = .idle ∧ t.bph = .issue ∧ t.wseq = .start ∧ EngineQuiet t ∧
      t.fault = none ∧ t.cur = s.cur ∧ t.res = s.res ∧ t.frame = s.frame ∧ t.leaderOk = s.leaderOk ∧
      t.dstate = s.dstate ∧ t.fidx = s.fidx ∧ t.bidx = s.bidx ∧ t.dlyT0 = s.dlyT0 ∧ t.ind = s.ind ∧
      t.tmrOn = s.tmrOn ∧ t.cpc = s.cpc ∧ t.prog = s.prog

/-- Under the prompt schedule a `BUS.WRITE` on an idle bus does complete, without a tick: in ten CTRL steps and five
ENGINE steps, with the levels the device's list gives (R150, R295, V13). -/
def Obligations.WriteCompletesPromptly : Prop :=
  ∀ (s : State) (a c d : Byte) (a1 a2 a3 : Bool) (l : List Bool),
    launchRefusal s.launch = none → PromptRun s → s.launch.stall = false →
    s.ready = false → s.fault = none → s.cur = some (encode (.busWrite a c d)) →
    s.bph = .issue → s.wseq = .start → s.busph = .idle → EngineQuiet s → s.acks = a1 :: a2 :: a3 :: l →
    runFor 15 s = .next { s with
      ready := true, acks := l, seTxbuf := some d, seAckstat := some a3,
      busTrace := s.busTrace ++ [.start, .byte a a1, .byte c a2, .byte d a3, .stop] }

/-- R142: if the ENGINE never completes the pending request, CTRL waits for ever: `READY` stays 0 and no fault is raised,
for any schedule of the other agents. Nothing appears on the bus. -/
def Obligations.UncompletedRequestHangsTheBus : Prop :=
  ∀ (s : State) (w : Word) (i : Instr),
    launchRefusal s.launch = none → s.ready = false → s.fault = none → s.cur = some w → decode w = .legal i →
    (i = .busStart ∨ i = .busStop ∨ (∃ d, i = .busSend d) ∨ ∃ a c d, i = .busWrite a c d) →
    s.bph = .wait → s.seDone = false →
    ∀ k : Nat, (∀ j u, j < k → runFor j s = .next u → nextMove u ≠ .engine) →
      ∃ t, runFor k s = .next t ∧ t.ready = false ∧ t.fault = none ∧ t.cur = s.cur ∧ t.bph = .wait ∧
        t.wseq = s.wseq ∧ t.busTrace = s.busTrace ∧ t.cpc = s.cpc

/-- Bus operations hang only on a stalled engine (R139, R251): in every fair execution with `STALL = false` a bus operation
in progress completes, or faults because its precondition did not hold. -/
def Obligations.FairBusOperationsEnd : Prop :=
  ∀ (x : Nat → State) (i : Instr), Execution x → Fair x → Inv (x 0) → (x 0).launch.stall = false →
    (x 0).fault = none → (x 0).ready = false → i.wf = true → (x 0).cur = some (encode i) →
    (i = .busStart ∨ i = .busStop ∨ (∃ d, i = .busSend d) ∨ ∃ a c d, i = .busWrite a c d) →
    ∃ m, (x m).ready = true ∨ ∃ w, (x m).fault = some ⟨.busNotIdle, w⟩ ∨ (x m).fault = some ⟨.busNotActive, w⟩

/-- R40: `SE_ACKSTAT` is set by the ENGINE's completion of a byte transfer, to that byte's level, and by nothing else. -/
def Obligations.AckStatusOnlyFromByteTransfers : Prop :=
  ∀ s t : State, step s = .next t →
    (nextMove s = .engine ∧ s.seStartReq = false ∧ s.seStopReq = false ∧ s.seTxPend = true ∧
      ∃ (b : Byte) (a : Bool), t.busTrace = s.busTrace ++ [.byte b a] ∧ t.seAckstat = some a) ∨
    t.seAckstat = s.seAckstat

/-- R143: no step depends on `SE_ACKSTAT`, but CTRL's step of `BUS.CHKACK`, which only copies it to RES: two states that
differ in nothing else take the same step. -/
def Obligations.AcknowledgmentIsNeverEnforced : Prop :=
  (∀ (s : State) (x : Option Bool), ¬ (nextMove s = .ctrl ∧ s.cur = some (encode .busChkack)) →
    AgreeButAck (step s) (step { s with seAckstat := x })) ∧
  (∀ (s : State) (a : Bool), s.ready = false → s.fault = none → s.seAckstat = some a →
    exec .busChkack s = .next { s with res := some (if a then 0x01 else 0x00), ready := true })

/-- R48: the bus trace is empty at reset; only the ENGINE writes it, and it appends one event: the one of the request it
completes. -/
def Obligations.OnlyTheEngineExtendsTheTrace : Prop :=
  (∀ s t : State, step s = .next t → t.busTrace ≠ s.busTrace →
    nextMove s = .engine ∧
    ((s.seStartReq = true ∧ t.busTrace = s.busTrace ++ [.start]) ∨
     (s.seStopReq = true ∧ t.busTrace = s.busTrace ++ [.stop]) ∨
     (s.seTxPend = true ∧ ∃ a, t.busTrace = s.busTrace ++ [.byte s.txByte a]))) ∧
  ∀ (l : Launch) (inp : Inputs) (d : Nat), (State.powerOn l inp d).busTrace = []

/-- The register images of R38: the bits stand where it says, the reserved bits and `SE_IE` read 0, and `TMR_IE` reads 0
(R37). -/
def Obligations.EngineRegisterImages : Prop :=
  ∀ s : State,
    s.seCtrl.getLsbD 0 = s.seStartReq ∧ s.seCtrl.getLsbD 1 = s.seStopReq ∧ s.seCtrl.extractLsb' 2 6 = 0 ∧
    (∀ a, s.seAckstat = some a → ∃ v, s.seStat = some v ∧
      v.getLsbD 0 = s.seDone ∧ v.getLsbD 1 = a ∧ v.extractLsb' 2 6 = 0) ∧
    s.tmrIe = false ∧ s.seIe = false

/-! ## The timer -/

/-- The timer primitives (R255, R257, R258): each writes what its rule says and nothing else; a read is the count,
or after an overflow with `havoc` a value of the timer's width that nothing fixes (R259). -/
def Obligations.TimerPrimitives : Prop :=
  ∀ s : State,
    tmrClear s = { s with tmrCnt := 0, tmrOvf := false } ∧
    tmrRun s = { s with tmrOn := true } ∧
    tmrHalt s = { s with tmrOn := false } ∧
    (s.tmrOvf = false ∨ s.launch.ovfMode = .wrap → tmrRead s = s.tmrCnt) ∧
    (s.tmrCnt < 2 ^ s.launch.tmrWidth → tmrRead s < 2 ^ s.launch.tmrWidth)

/-- The count a measurement gives (R198, R256, V11): a running timer counts the ticks modulo `2^W` and remembers that it
passed its maximum; a stopped one keeps its count. -/
def Obligations.TimerCountsTheTicks : Prop :=
  ∀ (n : Nat) (s : State), s.tmrCnt < 2 ^ s.launch.tmrWidth →
    (s.tmrOn = true → ticks n s = { s with
      now := s.now + n, tmrCnt := (s.tmrCnt + n) % 2 ^ s.launch.tmrWidth,
      tmrOvf := s.tmrOvf || decide (2 ^ s.launch.tmrWidth ≤ s.tmrCnt + n) }) ∧
    (s.tmrOn = false → ticks n s = { s with now := s.now + n })

/-! ## The decoder -/

/-- R182 and R183: the two decision functions, with their boundaries. -/
def Obligations.ThresholdFunctions : Prop :=
  (∀ (l : Launch) (n : Nat), classify l n = true ↔
    0x1F ≤ n ∧ (l.leaderMax = none ∨ ∃ m, l.leaderMax = some m ∧ n ≤ m)) ∧
  (∀ l : Launch, l.leaderMax = none → classify l 0x1F = true ∧ classify l 0x1E = false) ∧
  (∀ n : Nat, bitOf n = true ↔ 0x04 ≤ n) ∧
  bitOf 4 = true ∧ bitOf 3 = false ∧ bitOf 0 = false ∧ (∀ w : Nat, 6 ≤ w → bitOf (2 ^ w - 1) = true)

/-- R185, R186 and R188: the steps of `DEBOUNCE`, `LDR_WAIT_HIGH` and `LDR_MEASURE`, in `DEC.FRAME` and `DEC.SERVICE`
alike. The leader is classified by the count, or after an overflow with `havoc` by a value that nothing fixes. -/
def Obligations.LeaderSteps : Prop :=
  ∀ (s : State) (i : Instr), i = .decFrame ∨ i = .decService → s.ready = false → s.fault = none →
    (∀ t0, s.dstate = .debounce → s.dlyT0 = some t0 → s.now < t0 + s.launch.tDebounce → exec i s = .next s) ∧
    (∀ t0, s.dstate = .debounce → s.dlyT0 = some t0 → t0 + s.launch.tDebounce ≤ s.now →
      exec i s = .next { s with ind := true, dstate := .ldrWaitHigh }) ∧
    (s.dstate = .ldrWaitHigh → s.irAt s.now = false → exec i s = .next s) ∧
    (s.dstate = .ldrWaitHigh → s.irAt s.now = true →
      exec i s = .next { s with tmrCnt := 0, tmrOvf := false, tmrOn := true, dstate := .ldrMeasure }) ∧
    (s.dstate = .ldrMeasure → s.irAt s.now = true → exec i s = .next s) ∧
    (s.dstate = .ldrMeasure → s.irAt s.now = false → s.tmrCnt < 2 ^ s.launch.tmrWidth →
      ∃ v n : Nat, v < 2 ^ s.launch.tmrWidth ∧
        (s.tmrOvf = false ∨ s.launch.ovfMode = .wrap → v = s.tmrCnt ∧ n = s.draws) ∧
        exec i s = .next { s with
          tmrOn := false, leaderOk := classify s.launch v, dstate := .ldrWaitLow, draws := n })

/-- R189: the `LDR_WAIT_LOW` step and the gate. -/
def Obligations.GateStep : Prop :=
  ∀ (s : State) (i : Instr), i = .decFrame ∨ i = .decService → s.ready = false → s.fault = none →
    s.dstate = .ldrWaitLow →
    (s.irAt s.now = s.launch.bitMeasLevel → exec i s = .next s) ∧
    (s.irAt s.now ≠ s.launch.bitMeasLevel → s.launch.gate = .gated → s.leaderOk = false →
      exec i s = .next { s with dstate := .complete }) ∧
    (s.irAt s.now ≠ s.launch.bitMeasLevel → s.launch.gate ≠ .gated ∨ s.leaderOk = true →
      exec i s = .next { s with fidx := some 0, bidx := some 0, dstate := .bitSeek })

/-- R190 and R192: the steps of `BIT_SEEK` and `BIT_MEASURE`. The bit is stored at position `7 − BIDX` of byte `FIDX` and
the indices advance; every other byte of the frame is kept. -/
def Obligations.BitSteps : Prop :=
  ∀ (s : State) (i : Instr), i = .decFrame ∨ i = .decService → s.ready = false → s.fault = none →
    (s.dstate = .bitSeek → s.irAt s.now ≠ s.launch.bitMeasLevel → exec i s = .next s) ∧
    (s.dstate = .bitSeek → s.irAt s.now = s.launch.bitMeasLevel →
      exec i s = .next { s with tmrCnt := 0, tmrOvf := false, tmrOn := true, dstate := .bitMeasure }) ∧
    (s.dstate = .bitMeasure → s.irAt s.now = s.launch.bitMeasLevel → exec i s = .next s) ∧
    (∀ (fi : Fin 4) (bi : Fin 8), s.dstate = .bitMeasure → s.irAt s.now ≠ s.launch.bitMeasLevel →
      s.fidx = some fi → s.bidx = some bi → s.tmrCnt < 2 ^ s.launch.tmrWidth →
      ∃ (v n : Nat) (b : Byte), v < 2 ^ s.launch.tmrWidth ∧
        (s.tmrOvf = false ∨ s.launch.ovfMode = .wrap → v = s.tmrCnt ∧ n = s.draws) ∧
        (∀ k, k < 8 → b.getLsbD k =
          if k = 7 - bi.val then decide (0x04 ≤ v) else (s.frame.get fi).getLsbD k) ∧
        exec i s = .next
          (if bi.val < 7 then
            { s with tmrOn := false, draws := n, frame := s.frame.set fi b,
                     bidx := some (bi + 1), dstate := .bitSeek }
          else if fi.val < 3 then
            { s with tmrOn := false, draws := n, frame := s.frame.set fi b,
                     fidx := some (fi + 1), bidx := some 0, dstate := .bitSeek }
          else
            { s with tmrOn := false, draws := n, frame := s.frame.set fi b, dstate := .complete }))

/-- R194: the `COMPLETE` step ends `DEC.FRAME` and `DEC.SERVICE`. -/
def Obligations.FrameComplete : Prop :=
  ∀ (s : State) (i : Instr), i = .decFrame ∨ i = .decService → s.ready = false → s.fault = none →
    s.dstate = .complete →
    exec i s = .next { s with tmrOn := false, ind := false, dstate := .idle, ready := true }

/-- The presence check of `DEC.SERVICE` (R222) and `DEC.CHECK` (R220). -/
def Obligations.PresenceChecks : Prop :=
  ∀ s : State, s.ready = false → s.fault = none →
    (s.dstate = .idle → s.presentAt s.now = true →
      exec .decService s = .next { s with res := some 0x01, dlyT0 := some s.now, dstate := .debounce }) ∧
    (s.dstate = .idle → s.presentAt s.now = false →
      exec .decService s = .next { s with res := some 0x00, ready := true }) ∧
    (s.dstate ≠ .idle → exec .decService s = exec .decFrame s) ∧
    (s.presentAt s.now = true → exec .decCheck s = .next { s with res := some 0x01, ready := true }) ∧
    (s.presentAt s.now = false → exec .decCheck s = .next { s with res := some 0x00, ready := true })

/-- `FRM.READ` (R210) and `LDR.READ` (R212). No command word encodes an index of 4 or more (R96); that
such an index stops with `noSuchByte` is the model's choice (log entry 10). -/
def Obligations.FrameAndFlagReads : Prop :=
  ∀ s : State, s.ready = false → s.fault = none →
    exec (.frmRead 0) s = .next { s with res := some s.frame.byte0, ready := true } ∧
    exec (.frmRead 1) s = .next { s with res := some s.frame.byte1, ready := true } ∧
    exec (.frmRead 2) s = .next { s with res := some s.frame.byte2, ready := true } ∧
    exec (.frmRead 3) s = .next { s with res := some s.frame.byte3, ready := true } ∧
    (∀ k, 4 ≤ k → exec (.frmRead k) s = .fault .noSuchByte) ∧
    (s.leaderOk = true → exec .ldrRead s = .next { s with res := some 0x01, ready := true }) ∧
    (s.leaderOk = false → exec .ldrRead s = .next { s with res := some 0x00, ready := true })

/-- R74: `FrameWrite` changes one bit of one byte and nothing else, so that after all eight bits of a byte are written it
holds exactly those bits, whatever it held before. -/
def Obligations.FrameWriteChangesOneBit : Prop :=
  ∀ (s : State) (i : Fin 4) (p : Fin 8) (b : Bool),
    (∀ k, k < 8 → ((frameWrite i p b s).frame.get i).getLsbD k =
      if k = p.val then b else (s.frame.get i).getLsbD k) ∧
    (∀ j, j ≠ i → (frameWrite i p b s).frame.get j = s.frame.get j) ∧
    { frameWrite i p b s with frame := s.frame } = s ∧
    ∀ v : Byte,
      ((List.finRange 8).foldl (fun t q => frameWrite i q (v.getLsbD q.val) t) s).frame.get i = v

/-- R71: the only step that writes the frame is `BIT_MEASURE`'s: CTRL's step of a decoder operation, when the line leaves
the measured level. It writes one byte. -/
def Obligations.OnlyBitMeasureWritesTheFrame : Prop :=
  ∀ s t : State, step s = .next t → t.frame ≠ s.frame →
    nextMove s = .ctrl ∧ s.ready = false ∧ s.fault = none ∧ s.dstate = .bitMeasure ∧
    (s.cur = some 0x11000000 ∨ s.cur = some 0x12000000) ∧ s.irAt s.now ≠ s.launch.bitMeasLevel ∧
    ∀ j, j ≠ s.frameIndex → t.frame.get j = s.frame.get j

/-- Under the prompt schedule a measurement is exact (R200): the wait is entered at `t0 = now`, the measured level holds
from `t1` to `t2 − 1`, and the timer is halted at `t2` with the count `t2 − t1`, for a leader and for a bit. -/
def Obligations.PromptMeasurementIsExact : Prop :=
  ∀ (s : State) (t1 t2 : Nat), Inv s → PromptRun s → s.fault = none → s.ready = false →
    (s.cur = some (encode .decFrame) ∨ s.cur = some (encode .decService)) →
    s.now ≤ t1 → t1 < t2 → t2 - t1 < 2 ^ s.launch.tmrWidth →
    (s.dstate = .ldrWaitHigh →
      (∀ u, s.now ≤ u → u < t1 → s.irAt u = false) → (∀ u, t1 ≤ u → u < t2 → s.irAt u = true) →
      s.irAt t2 = false →
      ∃ k, runFor k s = .next { s with
        now := t2, tmrCnt := t2 - t1, tmrOvf := false, tmrOn := false,
        leaderOk := classify s.launch (t2 - t1), dstate := .ldrWaitLow }) ∧
    (∀ (fi : Fin 4) (bi : Fin 8), s.dstate = .bitSeek → s.fidx = some fi → s.bidx = some bi →
      (∀ u, s.now ≤ u → u < t1 → s.irAt u = !s.measLevel) →
      (∀ u, t1 ≤ u → u < t2 → s.irAt u = s.measLevel) → s.irAt t2 = !s.measLevel →
      ∃ k t, runFor k s = .next t ∧ t.now = t2 ∧ t.tmrCnt = t2 - t1 ∧ t.tmrOn = false ∧
        (t.frame.get fi).getLsbD (7 - bi.val) = decide (4 ≤ t2 - t1))

/-- A whole frame under the prompt schedule (R105, R107, R200, R206): when `IR` carries 32 bit pulses of at least one tick
each, the decoder reaches `COMPLETE` with bit `k` of the frame, at position `7 − k mod 8` of byte `k div 8`, 1 exactly
when the k-th measured interval lasted at least `BIT_MIN` ticks, whatever the frame held before. -/
def Obligations.PromptFrameIsDecoded : Prop :=
  ∀ (s : State) (ps : List (Nat × Nat)), Inv s → PromptRun s → s.fault = none → s.ready = false →
    (s.cur = some (encode .decFrame) ∨ s.cur = some (encode .decService)) →
    s.dstate = .bitSeek → s.fidx = some 0 → s.bidx = some 0 →
    ps.length = 32 → (∀ p ∈ ps, 1 ≤ p.1 ∧ 1 ≤ p.2 ∧ p.2 < 2 ^ s.launch.tmrWidth) → Carries s s.now ps →
    ∃ k t, runFor k s = .next t ∧ t.dstate = .complete ∧ t.ready = false ∧ t.leaderOk = s.leaderOk ∧
      ∀ (j : Fin 4) (m : Fin 8), ∀ p, ps[8 * j.val + m.val]? = some p →
        (t.frame.get j).getLsbD (7 - m.val) = decide (4 ≤ p.2)

/-- R206: when extraction runs to `COMPLETE`, the bits it has yet to extract come from the measurements alone: two runs
from states that differ in the frame alone, and there only in bits at or after the position the indices point to, end it
with the same frame, under any schedule. From the first bit (`FIDX = BIDX = 0`) on: whatever the frame held before. -/
def Obligations.ExtractionForgetsTheOldFrame : Prop :=
  ∀ (s t s' t' : State) (fi : Fin 4) (bi : Fin 8) (k : Nat), AgreeButFrame s t → s.fault = none → s.ready = false →
    (s.cur = some (encode .decFrame) ∨ s.cur = some (encode .decService)) →
    s.dstate = .bitSeek → s.fidx = some fi → s.bidx = some bi →
    (∀ (j : Fin 4) (m : Fin 8), 8 * j.val + m.val < 8 * fi.val + bi.val →
      (s.frame.get j).getLsbD (7 - m.val) = (t.frame.get j).getLsbD (7 - m.val)) →
    runFor k s = .next s' → runFor k t = .next t' → s'.dstate = .complete →
    s' = t'

/-- R202: if `IR` never again reaches the level a decoder state awaits, the decoder waits in that state for ever under any
schedule: `READY` stays 0, no fault is raised, and the indicator and the frame stay as they are. -/
def Obligations.DeadLineHangsTheDecoder : Prop :=
  ∀ s : State, launchRefusal s.launch = none → s.ready = false → s.fault = none →
    (s.cur = some (encode .decFrame) ∨ s.cur = some (encode .decService)) →
    ((s.dstate = .ldrWaitHigh ∧ ∀ u, s.now ≤ u → s.irAt u = false) ∨
     (s.dstate = .ldrMeasure ∧ ∀ u, s.now ≤ u → s.irAt u = true) ∨
     (s.dstate = .ldrWaitLow ∧ ∀ u, s.now ≤ u → s.irAt u = s.measLevel) ∨
     (s.dstate = .bitSeek ∧ ∀ u, s.now ≤ u → s.irAt u ≠ s.measLevel) ∨
     (s.dstate = .bitMeasure ∧ ∀ u, s.now ≤ u → s.irAt u = s.measLevel)) →
    ∀ k, ∃ t, runFor k s = .next t ∧ t.ready = false ∧ t.fault = none ∧ t.dstate = s.dstate ∧ t.ind = s.ind ∧
      t.frame = s.frame ∧ t.leaderOk = s.leaderOk ∧ t.cpc = s.cpc ∧ t.res = s.res

/-! ## The delay and the HOST -/

/-- `SYS.DELAY n` (R224): a spin before `DLY_T0 + n`, complete at it or after. The timer is not used. -/
def Obligations.DelayStep : Prop :=
  ∀ (s : State) (n t0 : Nat), s.ready = false → s.fault = none → s.dlyT0 = some t0 →
    (s.now < t0 + n → exec (.sysDelay n) s = .next s) ∧
    (t0 + n ≤ s.now → exec (.sysDelay n) s = .next { s with ready := true })

/-- A delay ends (R224, R251): under the prompt schedule `SYS.DELAY n` completes at time `DLY_T0 + n` exactly, after n
ticks and one step of CTRL. -/
def Obligations.DelayEndsOnTime : Prop :=
  ∀ (s : State) (n : Nat), Inv s → PromptRun s → s.fault = none → s.ready = false →
    s.cur = some (encode (.sysDelay n)) → n < 2 ^ 24 → s.dlyT0 = some s.now →
    runFor (n + 1) s = .next { s with now := s.now + n, ready := true }

/-- `SYS.DELAY` and the debounce never hang (R251): in every fair execution, however CTRL and time interleave, a delay in
progress ends. -/
def Obligations.FairDelaysEnd : Prop :=
  ∀ x : Nat → State, Execution x → Fair x → Inv (x 0) → (x 0).fault = none → (x 0).ready = false →
    (∀ n, n < 2 ^ 24 → (x 0).cur = some (encode (.sysDelay n)) → ∃ m, (x m).ready = true) ∧
    ((x 0).cur = some (encode .decFrame) ∨ (x 0).cur = some (encode .decService) → (x 0).dstate = .debounce →
      ∃ m, (x m).dstate = .ldrWaitHigh ∧ (x m).ind = true)

/-- R25: RES is written only by CTRL's steps of the five operations that have a result. -/
def Obligations.OnlyFiveOperationsWriteTheResult : Prop :=
  ∀ s t : State, step s = .next t → t.res ≠ s.res →
    nextMove s = .ctrl ∧ s.ready = false ∧
    ∃ i : Instr, s.cur = some (encode i) ∧
      (i = .busChkack ∨ i = .decCheck ∨ i = .decService ∨ (∃ k, i = .frmRead k) ∨ i = .ldrRead)

/-- R24: `CPC` changes only at the HOST's issue of a legal word, and then by 1; no word of the stream already there ever
changes. -/
def Obligations.CommandCounterAdvancesByOne : Prop :=
  ∀ s t : State, step s = .next t →
    s.prog <+: t.prog ∧
    (t.cpc = s.cpc ∨
      (t.cpc = s.cpc + 1 ∧ nextMove s = .host ∧ s.ready = true ∧ s.fault = none ∧ t.ready = false ∧
        t.cur = s.prog[s.cpc]?))

/-- R52 and R62: `now` is written only by the TICK step, which advances it by 1. -/
def Obligations.TimeMovesOnlyByTick : Prop :=
  ∀ s t : State, step s = .next t →
    (nextMove s = .tick → t.now = s.now + 1) ∧ (nextMove s ≠ .tick → t.now = s.now)

/-- The parameters and the input waveforms are fixed for a launch: no step writes them (R45, R180). -/
def Obligations.LaunchAndWaveformsAreFixed : Prop :=
  ∀ s t : State, step s = .next t →
    t.launch = s.launch ∧ ∀ u, t.irAt u = s.irAt u ∧ t.presentAt u = s.presentAt u

/-- R252: a launch is refused exactly when its parameters break R10, it asks for the defective decoder or for
`SHOW_LEADER = true`, its `INIT_SEQ` lacks the power-stabilisation delay, or a boot premise is not met; and a step is
refused exactly in such a launch. Two clauses are the model's choice: that every `LEADER_MAX` of 0x1F or more has a meaning,
where R8 gives only `none` and 0x27 (log entry 20), and that `INIT_SEQ` need not hold `SYS.DELAY T_POST` (log entry 21). -/
def Obligations.LaunchesRefused : Prop :=
  (∀ l : Launch, launchRefusal l = none ↔
    (6 ≤ l.tmrWidth ∧ (l.leaderMax = none ∨ ∃ m, l.leaderMax = some m ∧ 0x1F ≤ m) ∧
      l.tDebounce < 2 ^ 24 ∧ l.tCmd < 2 ^ 24 ∧ l.tPwr < 2 ^ 24 ∧ l.tPost < 2 ^ 24) ∧
    l.gate ≠ .defective ∧ l.showLeader = false ∧
    (∃ n : BitVec 24, InitItem.delay n ∈ l.initSeq.tail.dropLast ∧ n.toNat = 100 * l.ticksPerMs) ∧
    (l.boot.configured = true ∧ l.boot.watchdogOff = true ∧ l.boot.interruptsOff = true ∧ l.boot.busIdle = true ∧
      l.boot.engineReady = true)) ∧
  ∀ (s : State) (r : Refusal), launchRefusal s.launch = some r ↔ step s = .refused r

/-! ## The display client -/

/-- R166 and R168: the hexadecimal digits, and that `LCD_HEX` sends those of the two nibbles, high then low, whatever the
position: the character transactions among its operations are exactly these two. -/
def Obligations.HexRendering : Prop :=
  (∀ n : BitVec 4, (n.toNat ≤ 9 → (hexDigit n).toNat = 0x30 + n.toNat) ∧
    (10 ≤ n.toNat → (hexDigit n).toNat = 0x41 + (n.toNat - 10))) ∧
  (∀ (l : Launch) (col row : Nat) (v : Byte), l.ccChar ≠ Config.ccCmd →
    (lcdHex l col row v).filter (fun i => match i with | .busWrite _ c _ => c == l.ccChar | _ => false) =
      [.busWrite Config.aDev l.ccChar (hexDigit (v.extractLsb' 4 4)),
       .busWrite Config.aDev l.ccChar (hexDigit (v.extractLsb' 0 4))])

/-- The expansions of R161 to R165 and R167, as operations. -/
def Obligations.DisplayExpansions : Prop :=
  ∀ (l : Launch) (code v : Byte) (col row : Nat),
    sendCmd l code = [.busWrite 0x7C 0x00 code, .sysDelay l.tCmd] ∧ l.tCmd = l.ticksPerMs ∧
    sendChar l code = [.busWrite 0x7C l.ccChar code] ∧
    lcdClear l = sendCmd l l.cmdClear ∧
    lcdInit l = l.initSeq.flatMap (fun x => match x with
      | .cmd b => sendCmd l b
      | .delay n => [.sysDelay n.toNat]) ++ lcdClear l ∧
    (∃ addr : Byte, lcdLocate l col row = sendCmd l addr ∧
      (addr.toNat : Int) = ((l.locBase : Int) + l.locStride * ((row : Int) - 1) + ((col : Int) - 1)) % 256) ∧
    lcdHex l col row v =
      match l.hexLocate with
      | .each => lcdLocate l col row ++ sendChar l (hexDigit (v.extractLsb' 4 4)) ++
          lcdLocate l (col + 1) row ++ sendChar l (hexDigit (v.extractLsb' 0 4))
      | .once => lcdLocate l col row ++ sendChar l (hexDigit (v.extractLsb' 4 4)) ++
          sendChar l (hexDigit (v.extractLsb' 0 4))

/-- R160: every operation of every display pseudo-operation is a `BUS.WRITE` to `A_DEV` with one of the two control codes,
or a `SYS.DELAY`, and its word decodes to it. -/
def Obligations.DisplayUsesOnlyWritesAndDelays : Prop :=
  ∀ l : Launch, launchRefusal l = none → ∀ i : Instr,
    (i ∈ lcdInit l ∨ i ∈ lcdClear l ∨ (∃ b, i ∈ sendCmd l b) ∨ (∃ b, i ∈ sendChar l b) ∨
      (∃ col row, i ∈ lcdLocate l col row) ∨ ∃ col row v, i ∈ lcdHex l col row v) →
    decode (encode i) = .legal i ∧
    ((∃ c d, (c = Config.ccCmd ∨ c = l.ccChar) ∧ i = .busWrite Config.aDev c d) ∨ ∃ n, i = .sysDelay n)

/-- One `MAIN_ITER` (R226): it starts with `DEC.SERVICE` and the read of byte 0; each time the HOST has no word left it
takes the value v of byte i from RES, appends `LCD_HEX (2i + 1), 1, v` and the read of the next byte, and after byte 3
is done, or begins the next iteration when the loop is the firmware's, which runs `LCD_INIT` first. The firmware's loop has
no exit: no state that it comes to is an end state (R227, R232). Two points are the model's choice (log entry 6): that the read
of RES and the words decided by it are one step of the HOST, and that an end state asks that the algorithm has nothing left
to issue or decide. -/
def Obligations.MainIterationRendersEachByte : Prop :=
  (∀ s : State, (startIteration s).prog = s.prog ++ [0x12000000, 0x13000000] ∧
    (startIteration s).client = .rendering 0 false ∧
    (startFirmware s).prog = s.prog ++ (lcdInit s.launch).map encode ++ [0x12000000, 0x13000000] ∧
    (startFirmware s).client = .rendering 0 true) ∧
  (∀ (s : State) (i : Fin 4) (forever : Bool) (v : Byte),
    launchRefusal s.launch = none → nextMove s = .host → s.ready = true → s.fault = none →
    s.prog.length ≤ s.cpc → s.client = .rendering i forever → s.res = some v →
    step s = .next { afterChoice s with
      resReads := s.resReads ++ [v],
      prog := s.prog ++ (lcdHex s.launch (2 * i.val + 1) 1 v).map encode ++
        (if i.val = 3 then (if forever then [0x12000000, 0x13000000] else [])
         else [encode (.frmRead (i.val + 1))]),
      client := if i.val = 3 then (if forever then .rendering 0 true else .stream)
        else .rendering (i + 1) forever }) ∧
  (∀ (k : Nat) (s t : State) (i : Fin 4), s.client = .rendering i true → runFor k s = .next t → ¬ EndState t)

/-- The HOST's algorithms (R228). When its stream holds no further word, an algorithm written out as rows takes the words of
the row it goes on with, which the value of RES it reads selects, and is done where it finishes or the row is not there; a
read of RES while it holds none raises `F_RES_UNDEF` (R245);
one that is not written out issues a word, reads RES or is done, as a free function of the values read and the words issued
so far says. The run of a program has at most one end, the first of its end states (R232); at an end state CTRL has no
step, and the HOST has nothing to issue or decide (it may still read RES, R25). The rows, that deciding the next words is a
step of the HOST, and so what is left to decide at an end, are the model's choice (R228, log entry 6). -/
def Obligations.HostAlgorithmsDecideTheNextWords : Prop :=
  (∀ s : State, launchRefusal s.launch = none → nextMove s = .host → s.ready = true → s.fault = none →
    s.prog.length ≤ s.cpc →
    (∀ (rows : List HostRow) (n : Nat) (row : HostRow), s.client = .table rows (.goto n) → rows[n]? = some row →
      step s = .next { afterChoice s with
        prog := s.prog ++ row.words,
        client := if row.next = .finish then .stream else .table rows row.next }) ∧
    (∀ (rows : List HostRow) (n : Nat), s.client = .table rows (.goto n) → rows[n]? = none →
      step s = .next { afterChoice s with client := .stream }) ∧
    (∀ rows : List HostRow, s.client = .table rows .finish → step s = .next { afterChoice s with client := .stream }) ∧
    (∀ (rows : List HostRow) (cases : List (Byte × Nat)) (otherwise : Nat),
      s.client = .table rows (.onRes cases otherwise) →
      (s.res = none → step s = .next { afterChoice s with fault := some ⟨.resUndef, 0⟩ }) ∧
      (∀ (v : Byte) (row : HostRow), s.res = some v →
        rows[match cases.find? (fun c => c.1 == v) with | some c => c.2 | none => otherwise]? = some row →
        step s = .next { afterChoice s with
          resReads := s.resReads ++ [v],
          prog := s.prog ++ row.words,
          client := if row.next = .finish then .stream else .table rows row.next }) ∧
      (∀ v : Byte, s.res = some v →
        rows[match cases.find? (fun c => c.1 == v) with | some c => c.2 | none => otherwise]? = none →
        step s = .next { afterChoice s with resReads := s.resReads ++ [v], client := .stream })) ∧
    (∀ n : Nat, s.client = .unlisted n → step s = .next
      (match Config.hostAlgorithm n s.resReads s.cpc, s.res with
        | .issue w, _ => { afterChoice s with prog := s.prog ++ [w] }
        | .read, some v => { afterChoice s with resReads := s.resReads ++ [v] }
        | .read, none => { afterChoice s with fault := some ⟨.resUndef, 0⟩ }
        | .finish, _ => afterChoice s))) ∧
  (∀ (k m : Nat) (s t u : State), EndsAfter k s t → EndsAfter m s u → k = m ∧ t = u) ∧
  (∀ s : State, launchRefusal s.launch = none → EndState s → nextMove s = .host ∨ nextMove s = .ctrl →
    step s = .next (afterChoice s))
end

