-- ==== Sys2Proof/Laws/Decode.lean ====
section
/-! SUPPORT. The fields of an encoded word, and when the required-zero check passes. -/

namespace Sys2Proof

@[simp] theorem ifZero_legal {n : Nat} (f : BitVec n) (i j : Instr) :
    Decoded.ifZero f i = .legal j ↔ f = 0#n ∧ i = j := by
  by_cases h : f = 0#n <;> simp [Decoded.ifZero, h]

@[simp] theorem ifZero_illegal {n : Nat} (f : BitVec n) (i : Instr) (why : Illegal) :
    Decoded.ifZero f i = .illegal why ↔ f ≠ 0#n ∧ why = .requiredZero := by
  by_cases h : f = 0#n
  · simp [Decoded.ifZero, h]
  · cases why <;> simp [Decoded.ifZero, h]

/-- Bit `i` of an opcode above 24 bits. -/
theorem getLsbD_opc_append (b : Byte) (n : BitVec 24) (i : Nat) :
    BitVec.getLsbD (w := 32) (b ++ n) i = if i < 24 then n.getLsbD i else b.getLsbD (i - 24) :=
  BitVec.getLsbD_append

/-- Bit `i` of three bytes. -/
theorem getLsbD_bytes_append (a c d : Byte) (i : Nat) :
    BitVec.getLsbD (w := 24) (a ++ c ++ d) i =
      if i < 8 then d.getLsbD i else if i < 16 then c.getLsbD (i - 8) else a.getLsbD (i - 16) := by
  have h1 : BitVec.getLsbD (w := 24) (a ++ c ++ d) i = if i < 8 then d.getLsbD i else (a ++ c).getLsbD (i - 8) :=
    BitVec.getLsbD_append
  rw [h1, BitVec.getLsbD_append]
  split
  · rfl
  · by_cases h : i < 16
    · simp [h, show i - 8 < 8 by omega]
    · simp [h, show ¬ (i - 8 < 8) by omega, show i - 8 - 8 = i - 16 by omega]

/-- A word is its opcode byte above its low 24 bits. -/
theorem word_eq_opc_append (w : Word) : Word.opc w ++ Word.fieldN w = w := by
  apply BitVec.eq_of_getLsbD_eq
  intro i hi
  rw [getLsbD_opc_append]
  by_cases h : i < 24
  · simp [Word.fieldN, h]
  · simp [Word.opc, h, show i - 24 < 8 by omega, show 24 + (i - 24) = i by omega]

/-- The low 24 bits are the three operand bytes. -/
theorem fieldN_eq_append (w : Word) : Word.fieldA w ++ Word.fieldC w ++ Word.fieldD w = Word.fieldN w := by
  apply BitVec.eq_of_getLsbD_eq
  intro i hi
  rw [getLsbD_bytes_append]
  by_cases h : i < 8
  · simp [Word.fieldD, Word.fieldN, h, hi]
  · by_cases h2 : i < 16
    · simp [Word.fieldC, Word.fieldN, h, h2, show i - 8 < 8 by omega, show 8 + (i - 8) = i by omega, hi]
    · simp [Word.fieldA, Word.fieldN, h, h2, show i - 16 < 8 by omega, show 16 + (i - 16) = i by omega, hi]

@[simp] theorem opc_append (b : Byte) (n : BitVec 24) : Word.opc (b ++ n) = b := by
  apply BitVec.eq_of_getLsbD_eq
  intro i hi
  simp only [Word.opc, BitVec.getLsbD_extractLsb', getLsbD_opc_append]
  simp [hi]

@[simp] theorem fieldN_append (b : Byte) (n : BitVec 24) : Word.fieldN (b ++ n) = n := by
  apply BitVec.eq_of_getLsbD_eq
  intro i hi
  simp only [Word.fieldN, BitVec.getLsbD_extractLsb', getLsbD_opc_append]
  simp [hi]

@[simp] theorem extract_low_append (b : Byte) (n : BitVec 24) (k m : Nat) (h : k + m ≤ 24) :
    BitVec.extractLsb' (n := 32) k m (b ++ n) = n.extractLsb' k m := by
  apply BitVec.eq_of_getLsbD_eq
  intro i hi
  simp only [BitVec.getLsbD_extractLsb', getLsbD_opc_append]
  simp [hi, show k + i < 24 by omega]

/-- An operation with three operand bytes is its opcode above them. -/
theorem append_bytes (o a c d : Byte) : (o ++ a ++ c ++ d : Word) = o ++ (a ++ c ++ d : BitVec 24) := by
  apply BitVec.eq_of_getLsbD_eq
  intro i hi
  have h1 : BitVec.getLsbD (w := 32) (o ++ a ++ c ++ d) i =
      if i < 8 then d.getLsbD i else (o ++ a ++ c).getLsbD (i - 8) := BitVec.getLsbD_append
  rw [getLsbD_opc_append, getLsbD_bytes_append, h1, BitVec.getLsbD_append, BitVec.getLsbD_append]
  split
  · simp [show i < 24 by omega]
  · by_cases h2 : i < 16
    · simp [h2, show i - 8 < 8 by omega, show i < 24 by omega]
    · by_cases h3 : i < 24
      · simp [h2, h3, show ¬ (i - 8 < 8) by omega, show i - 8 - 8 = i - 16 by omega, show i - 16 < 8 by omega]
      · simp [h3, show ¬ (i - 8 < 8) by omega, show ¬ (i - 8 - 8 < 8) by omega, show i - 8 - 8 - 8 = i - 24 by omega]

end Sys2Proof
end

