-- ==== Sys2Proof/Laws/State.lean ====
section
/-! SUPPORT. One lemma per field per shared operation: what the field is after the operation. -/

namespace Sys2Proof.Machine

/-! `raise` -/

@[simp] theorem raise_launch (c : FaultCode) (i : Word) (s : State) : (raise c i s).launch = s.launch := rfl
@[simp] theorem raise_ir (c : FaultCode) (i : Word) (s : State) : (raise c i s).ir = s.ir := rfl
@[simp] theorem raise_present (c : FaultCode) (i : Word) (s : State) : (raise c i s).present = s.present := rfl
@[simp] theorem raise_acks (c : FaultCode) (i : Word) (s : State) : (raise c i s).acks = s.acks := rfl
@[simp] theorem raise_sched (c : FaultCode) (i : Word) (s : State) : (raise c i s).sched = s.sched := rfl
@[simp] theorem raise_draws (c : FaultCode) (i : Word) (s : State) : (raise c i s).draws = s.draws := rfl
@[simp] theorem raise_prog (c : FaultCode) (i : Word) (s : State) : (raise c i s).prog = s.prog := rfl
@[simp] theorem raise_cpc (c : FaultCode) (i : Word) (s : State) : (raise c i s).cpc = s.cpc := rfl
@[simp] theorem raise_client (c : FaultCode) (i : Word) (s : State) : (raise c i s).client = s.client := rfl
@[simp] theorem raise_resReads (c : FaultCode) (i : Word) (s : State) : (raise c i s).resReads = s.resReads := rfl
@[simp] theorem raise_now (c : FaultCode) (i : Word) (s : State) : (raise c i s).now = s.now := rfl
@[simp] theorem raise_ready (c : FaultCode) (i : Word) (s : State) : (raise c i s).ready = s.ready := rfl
@[simp] theorem raise_cur (c : FaultCode) (i : Word) (s : State) : (raise c i s).cur = s.cur := rfl
@[simp] theorem raise_res (c : FaultCode) (i : Word) (s : State) : (raise c i s).res = s.res := rfl
@[simp] theorem raise_fault (c : FaultCode) (i : Word) (s : State) : (raise c i s).fault = some ⟨c, i⟩ := rfl
@[simp] theorem raise_dstate (c : FaultCode) (i : Word) (s : State) : (raise c i s).dstate = s.dstate := rfl
@[simp] theorem raise_fidx (c : FaultCode) (i : Word) (s : State) : (raise c i s).fidx = s.fidx := rfl
@[simp] theorem raise_bidx (c : FaultCode) (i : Word) (s : State) : (raise c i s).bidx = s.bidx := rfl
@[simp] theorem raise_leaderOk (c : FaultCode) (i : Word) (s : State) : (raise c i s).leaderOk = s.leaderOk := rfl
@[simp] theorem raise_frame (c : FaultCode) (i : Word) (s : State) : (raise c i s).frame = s.frame := rfl
@[simp] theorem raise_dlyT0 (c : FaultCode) (i : Word) (s : State) : (raise c i s).dlyT0 = s.dlyT0 := rfl
@[simp] theorem raise_ind (c : FaultCode) (i : Word) (s : State) : (raise c i s).ind = s.ind := rfl
@[simp] theorem raise_tmrCnt (c : FaultCode) (i : Word) (s : State) : (raise c i s).tmrCnt = s.tmrCnt := rfl
@[simp] theorem raise_tmrOn (c : FaultCode) (i : Word) (s : State) : (raise c i s).tmrOn = s.tmrOn := rfl
@[simp] theorem raise_tmrOvf (c : FaultCode) (i : Word) (s : State) : (raise c i s).tmrOvf = s.tmrOvf := rfl
@[simp] theorem raise_seStartReq (c : FaultCode) (i : Word) (s : State) : (raise c i s).seStartReq = s.seStartReq := rfl
@[simp] theorem raise_seStopReq (c : FaultCode) (i : Word) (s : State) : (raise c i s).seStopReq = s.seStopReq := rfl
@[simp] theorem raise_seDone (c : FaultCode) (i : Word) (s : State) : (raise c i s).seDone = s.seDone := rfl
@[simp] theorem raise_seAckstat (c : FaultCode) (i : Word) (s : State) : (raise c i s).seAckstat = s.seAckstat := rfl
@[simp] theorem raise_seTxbuf (c : FaultCode) (i : Word) (s : State) : (raise c i s).seTxbuf = s.seTxbuf := rfl
@[simp] theorem raise_seTxPend (c : FaultCode) (i : Word) (s : State) : (raise c i s).seTxPend = s.seTxPend := rfl
@[simp] theorem raise_bph (c : FaultCode) (i : Word) (s : State) : (raise c i s).bph = s.bph := rfl
@[simp] theorem raise_wseq (c : FaultCode) (i : Word) (s : State) : (raise c i s).wseq = s.wseq := rfl
@[simp] theorem raise_busph (c : FaultCode) (i : Word) (s : State) : (raise c i s).busph = s.busph := rfl
@[simp] theorem raise_busTrace (c : FaultCode) (i : Word) (s : State) : (raise c i s).busTrace = s.busTrace := rfl

/-! `complete` -/

@[simp] theorem complete_launch (s : State) : (complete s).launch = s.launch := rfl
@[simp] theorem complete_ir (s : State) : (complete s).ir = s.ir := rfl
@[simp] theorem complete_present (s : State) : (complete s).present = s.present := rfl
@[simp] theorem complete_acks (s : State) : (complete s).acks = s.acks := rfl
@[simp] theorem complete_sched (s : State) : (complete s).sched = s.sched := rfl
@[simp] theorem complete_draws (s : State) : (complete s).draws = s.draws := rfl
@[simp] theorem complete_prog (s : State) : (complete s).prog = s.prog := rfl
@[simp] theorem complete_cpc (s : State) : (complete s).cpc = s.cpc := rfl
@[simp] theorem complete_client (s : State) : (complete s).client = s.client := rfl
@[simp] theorem complete_resReads (s : State) : (complete s).resReads = s.resReads := rfl
@[simp] theorem complete_now (s : State) : (complete s).now = s.now := rfl
@[simp] theorem complete_ready (s : State) : (complete s).ready = true := rfl
@[simp] theorem complete_cur (s : State) : (complete s).cur = s.cur := rfl
@[simp] theorem complete_res (s : State) : (complete s).res = s.res := rfl
@[simp] theorem complete_fault (s : State) : (complete s).fault = s.fault := rfl
@[simp] theorem complete_dstate (s : State) : (complete s).dstate = s.dstate := rfl
@[simp] theorem complete_fidx (s : State) : (complete s).fidx = s.fidx := rfl
@[simp] theorem complete_bidx (s : State) : (complete s).bidx = s.bidx := rfl
@[simp] theorem complete_leaderOk (s : State) : (complete s).leaderOk = s.leaderOk := rfl
@[simp] theorem complete_frame (s : State) : (complete s).frame = s.frame := rfl
@[simp] theorem complete_dlyT0 (s : State) : (complete s).dlyT0 = s.dlyT0 := rfl
@[simp] theorem complete_ind (s : State) : (complete s).ind = s.ind := rfl
@[simp] theorem complete_tmrCnt (s : State) : (complete s).tmrCnt = s.tmrCnt := rfl
@[simp] theorem complete_tmrOn (s : State) : (complete s).tmrOn = s.tmrOn := rfl
@[simp] theorem complete_tmrOvf (s : State) : (complete s).tmrOvf = s.tmrOvf := rfl
@[simp] theorem complete_seStartReq (s : State) : (complete s).seStartReq = s.seStartReq := rfl
@[simp] theorem complete_seStopReq (s : State) : (complete s).seStopReq = s.seStopReq := rfl
@[simp] theorem complete_seDone (s : State) : (complete s).seDone = s.seDone := rfl
@[simp] theorem complete_seAckstat (s : State) : (complete s).seAckstat = s.seAckstat := rfl
@[simp] theorem complete_seTxbuf (s : State) : (complete s).seTxbuf = s.seTxbuf := rfl
@[simp] theorem complete_seTxPend (s : State) : (complete s).seTxPend = s.seTxPend := rfl
@[simp] theorem complete_bph (s : State) : (complete s).bph = s.bph := rfl
@[simp] theorem complete_wseq (s : State) : (complete s).wseq = s.wseq := rfl
@[simp] theorem complete_busph (s : State) : (complete s).busph = s.busph := rfl
@[simp] theorem complete_busTrace (s : State) : (complete s).busTrace = s.busTrace := rfl

/-! `latch` -/

@[simp] theorem latch_launch (i : Instr) (s : State) : (latch i s).launch = s.launch := rfl
@[simp] theorem latch_ir (i : Instr) (s : State) : (latch i s).ir = s.ir := rfl
@[simp] theorem latch_present (i : Instr) (s : State) : (latch i s).present = s.present := rfl
@[simp] theorem latch_acks (i : Instr) (s : State) : (latch i s).acks = s.acks := rfl
@[simp] theorem latch_sched (i : Instr) (s : State) : (latch i s).sched = s.sched := rfl
@[simp] theorem latch_draws (i : Instr) (s : State) : (latch i s).draws = s.draws := rfl
@[simp] theorem latch_prog (i : Instr) (s : State) : (latch i s).prog = s.prog := rfl
@[simp] theorem latch_cpc (i : Instr) (s : State) : (latch i s).cpc = s.cpc := rfl
@[simp] theorem latch_client (i : Instr) (s : State) : (latch i s).client = s.client := rfl
@[simp] theorem latch_resReads (i : Instr) (s : State) : (latch i s).resReads = s.resReads := rfl
@[simp] theorem latch_now (i : Instr) (s : State) : (latch i s).now = s.now := rfl
@[simp] theorem latch_ready (i : Instr) (s : State) : (latch i s).ready = false := rfl
@[simp] theorem latch_cur (i : Instr) (s : State) : (latch i s).cur = some (encode i) := rfl
@[simp] theorem latch_res (i : Instr) (s : State) : (latch i s).res = s.res := rfl
@[simp] theorem latch_fault (i : Instr) (s : State) : (latch i s).fault = s.fault := rfl
@[simp] theorem latch_dstate (i : Instr) (s : State) : (latch i s).dstate = s.dstate := rfl
@[simp] theorem latch_fidx (i : Instr) (s : State) : (latch i s).fidx = s.fidx := rfl
@[simp] theorem latch_bidx (i : Instr) (s : State) : (latch i s).bidx = s.bidx := rfl
@[simp] theorem latch_leaderOk (i : Instr) (s : State) : (latch i s).leaderOk = s.leaderOk := rfl
@[simp] theorem latch_frame (i : Instr) (s : State) : (latch i s).frame = s.frame := rfl
@[simp] theorem latch_dlyT0 (i : Instr) (s : State) : (latch i s).dlyT0 = s.dlyT0 := rfl
@[simp] theorem latch_ind (i : Instr) (s : State) : (latch i s).ind = s.ind := rfl
@[simp] theorem latch_tmrCnt (i : Instr) (s : State) : (latch i s).tmrCnt = s.tmrCnt := rfl
@[simp] theorem latch_tmrOn (i : Instr) (s : State) : (latch i s).tmrOn = s.tmrOn := rfl
@[simp] theorem latch_tmrOvf (i : Instr) (s : State) : (latch i s).tmrOvf = s.tmrOvf := rfl
@[simp] theorem latch_seStartReq (i : Instr) (s : State) : (latch i s).seStartReq = s.seStartReq := rfl
@[simp] theorem latch_seStopReq (i : Instr) (s : State) : (latch i s).seStopReq = s.seStopReq := rfl
@[simp] theorem latch_seDone (i : Instr) (s : State) : (latch i s).seDone = s.seDone := rfl
@[simp] theorem latch_seAckstat (i : Instr) (s : State) : (latch i s).seAckstat = s.seAckstat := rfl
@[simp] theorem latch_seTxbuf (i : Instr) (s : State) : (latch i s).seTxbuf = s.seTxbuf := rfl
@[simp] theorem latch_seTxPend (i : Instr) (s : State) : (latch i s).seTxPend = s.seTxPend := rfl
@[simp] theorem latch_bph (i : Instr) (s : State) : (latch i s).bph = s.bph := rfl
@[simp] theorem latch_wseq (i : Instr) (s : State) : (latch i s).wseq = s.wseq := rfl
@[simp] theorem latch_busph (i : Instr) (s : State) : (latch i s).busph = s.busph := rfl
@[simp] theorem latch_busTrace (i : Instr) (s : State) : (latch i s).busTrace = s.busTrace := rfl

/-! `setRes` -/

@[simp] theorem setRes_launch (v : Byte) (s : State) : (setRes v s).launch = s.launch := rfl
@[simp] theorem setRes_ir (v : Byte) (s : State) : (setRes v s).ir = s.ir := rfl
@[simp] theorem setRes_present (v : Byte) (s : State) : (setRes v s).present = s.present := rfl
@[simp] theorem setRes_acks (v : Byte) (s : State) : (setRes v s).acks = s.acks := rfl
@[simp] theorem setRes_sched (v : Byte) (s : State) : (setRes v s).sched = s.sched := rfl
@[simp] theorem setRes_draws (v : Byte) (s : State) : (setRes v s).draws = s.draws := rfl
@[simp] theorem setRes_prog (v : Byte) (s : State) : (setRes v s).prog = s.prog := rfl
@[simp] theorem setRes_cpc (v : Byte) (s : State) : (setRes v s).cpc = s.cpc := rfl
@[simp] theorem setRes_client (v : Byte) (s : State) : (setRes v s).client = s.client := rfl
@[simp] theorem setRes_resReads (v : Byte) (s : State) : (setRes v s).resReads = s.resReads := rfl
@[simp] theorem setRes_now (v : Byte) (s : State) : (setRes v s).now = s.now := rfl
@[simp] theorem setRes_ready (v : Byte) (s : State) : (setRes v s).ready = s.ready := rfl
@[simp] theorem setRes_cur (v : Byte) (s : State) : (setRes v s).cur = s.cur := rfl
@[simp] theorem setRes_res (v : Byte) (s : State) : (setRes v s).res = some v := rfl
@[simp] theorem setRes_fault (v : Byte) (s : State) : (setRes v s).fault = s.fault := rfl
@[simp] theorem setRes_dstate (v : Byte) (s : State) : (setRes v s).dstate = s.dstate := rfl
@[simp] theorem setRes_fidx (v : Byte) (s : State) : (setRes v s).fidx = s.fidx := rfl
@[simp] theorem setRes_bidx (v : Byte) (s : State) : (setRes v s).bidx = s.bidx := rfl
@[simp] theorem setRes_leaderOk (v : Byte) (s : State) : (setRes v s).leaderOk = s.leaderOk := rfl
@[simp] theorem setRes_frame (v : Byte) (s : State) : (setRes v s).frame = s.frame := rfl
@[simp] theorem setRes_dlyT0 (v : Byte) (s : State) : (setRes v s).dlyT0 = s.dlyT0 := rfl
@[simp] theorem setRes_ind (v : Byte) (s : State) : (setRes v s).ind = s.ind := rfl
@[simp] theorem setRes_tmrCnt (v : Byte) (s : State) : (setRes v s).tmrCnt = s.tmrCnt := rfl
@[simp] theorem setRes_tmrOn (v : Byte) (s : State) : (setRes v s).tmrOn = s.tmrOn := rfl
@[simp] theorem setRes_tmrOvf (v : Byte) (s : State) : (setRes v s).tmrOvf = s.tmrOvf := rfl
@[simp] theorem setRes_seStartReq (v : Byte) (s : State) : (setRes v s).seStartReq = s.seStartReq := rfl
@[simp] theorem setRes_seStopReq (v : Byte) (s : State) : (setRes v s).seStopReq = s.seStopReq := rfl
@[simp] theorem setRes_seDone (v : Byte) (s : State) : (setRes v s).seDone = s.seDone := rfl
@[simp] theorem setRes_seAckstat (v : Byte) (s : State) : (setRes v s).seAckstat = s.seAckstat := rfl
@[simp] theorem setRes_seTxbuf (v : Byte) (s : State) : (setRes v s).seTxbuf = s.seTxbuf := rfl
@[simp] theorem setRes_seTxPend (v : Byte) (s : State) : (setRes v s).seTxPend = s.seTxPend := rfl
@[simp] theorem setRes_bph (v : Byte) (s : State) : (setRes v s).bph = s.bph := rfl
@[simp] theorem setRes_wseq (v : Byte) (s : State) : (setRes v s).wseq = s.wseq := rfl
@[simp] theorem setRes_busph (v : Byte) (s : State) : (setRes v s).busph = s.busph := rfl
@[simp] theorem setRes_busTrace (v : Byte) (s : State) : (setRes v s).busTrace = s.busTrace := rfl

/-! `frameWrite` -/

@[simp] theorem frameWrite_launch (i : Fin 4) (p : Fin 8) (b : Bool) (s : State) : (frameWrite i p b s).launch = s.launch := rfl
@[simp] theorem frameWrite_ir (i : Fin 4) (p : Fin 8) (b : Bool) (s : State) : (frameWrite i p b s).ir = s.ir := rfl
@[simp] theorem frameWrite_present (i : Fin 4) (p : Fin 8) (b : Bool) (s : State) : (frameWrite i p b s).present = s.present := rfl
@[simp] theorem frameWrite_acks (i : Fin 4) (p : Fin 8) (b : Bool) (s : State) : (frameWrite i p b s).acks = s.acks := rfl
@[simp] theorem frameWrite_sched (i : Fin 4) (p : Fin 8) (b : Bool) (s : State) : (frameWrite i p b s).sched = s.sched := rfl
@[simp] theorem frameWrite_draws (i : Fin 4) (p : Fin 8) (b : Bool) (s : State) : (frameWrite i p b s).draws = s.draws := rfl
@[simp] theorem frameWrite_prog (i : Fin 4) (p : Fin 8) (b : Bool) (s : State) : (frameWrite i p b s).prog = s.prog := rfl
@[simp] theorem frameWrite_cpc (i : Fin 4) (p : Fin 8) (b : Bool) (s : State) : (frameWrite i p b s).cpc = s.cpc := rfl
@[simp] theorem frameWrite_client (i : Fin 4) (p : Fin 8) (b : Bool) (s : State) : (frameWrite i p b s).client = s.client := rfl
@[simp] theorem frameWrite_resReads (i : Fin 4) (p : Fin 8) (b : Bool) (s : State) : (frameWrite i p b s).resReads = s.resReads := rfl
@[simp] theorem frameWrite_now (i : Fin 4) (p : Fin 8) (b : Bool) (s : State) : (frameWrite i p b s).now = s.now := rfl
@[simp] theorem frameWrite_ready (i : Fin 4) (p : Fin 8) (b : Bool) (s : State) : (frameWrite i p b s).ready = s.ready := rfl
@[simp] theorem frameWrite_cur (i : Fin 4) (p : Fin 8) (b : Bool) (s : State) : (frameWrite i p b s).cur = s.cur := rfl
@[simp] theorem frameWrite_res (i : Fin 4) (p : Fin 8) (b : Bool) (s : State) : (frameWrite i p b s).res = s.res := rfl
@[simp] theorem frameWrite_fault (i : Fin 4) (p : Fin 8) (b : Bool) (s : State) : (frameWrite i p b s).fault = s.fault := rfl
@[simp] theorem frameWrite_dstate (i : Fin 4) (p : Fin 8) (b : Bool) (s : State) : (frameWrite i p b s).dstate = s.dstate := rfl
@[simp] theorem frameWrite_fidx (i : Fin 4) (p : Fin 8) (b : Bool) (s : State) : (frameWrite i p b s).fidx = s.fidx := rfl
@[simp] theorem frameWrite_bidx (i : Fin 4) (p : Fin 8) (b : Bool) (s : State) : (frameWrite i p b s).bidx = s.bidx := rfl
@[simp] theorem frameWrite_leaderOk (i : Fin 4) (p : Fin 8) (b : Bool) (s : State) : (frameWrite i p b s).leaderOk = s.leaderOk := rfl
@[simp] theorem frameWrite_frame (i : Fin 4) (p : Fin 8) (b : Bool) (s : State) : (frameWrite i p b s).frame = s.frame.set i (putBit (s.frame.get i) p b) := rfl
@[simp] theorem frameWrite_dlyT0 (i : Fin 4) (p : Fin 8) (b : Bool) (s : State) : (frameWrite i p b s).dlyT0 = s.dlyT0 := rfl
@[simp] theorem frameWrite_ind (i : Fin 4) (p : Fin 8) (b : Bool) (s : State) : (frameWrite i p b s).ind = s.ind := rfl
@[simp] theorem frameWrite_tmrCnt (i : Fin 4) (p : Fin 8) (b : Bool) (s : State) : (frameWrite i p b s).tmrCnt = s.tmrCnt := rfl
@[simp] theorem frameWrite_tmrOn (i : Fin 4) (p : Fin 8) (b : Bool) (s : State) : (frameWrite i p b s).tmrOn = s.tmrOn := rfl
@[simp] theorem frameWrite_tmrOvf (i : Fin 4) (p : Fin 8) (b : Bool) (s : State) : (frameWrite i p b s).tmrOvf = s.tmrOvf := rfl
@[simp] theorem frameWrite_seStartReq (i : Fin 4) (p : Fin 8) (b : Bool) (s : State) : (frameWrite i p b s).seStartReq = s.seStartReq := rfl
@[simp] theorem frameWrite_seStopReq (i : Fin 4) (p : Fin 8) (b : Bool) (s : State) : (frameWrite i p b s).seStopReq = s.seStopReq := rfl
@[simp] theorem frameWrite_seDone (i : Fin 4) (p : Fin 8) (b : Bool) (s : State) : (frameWrite i p b s).seDone = s.seDone := rfl
@[simp] theorem frameWrite_seAckstat (i : Fin 4) (p : Fin 8) (b : Bool) (s : State) : (frameWrite i p b s).seAckstat = s.seAckstat := rfl
@[simp] theorem frameWrite_seTxbuf (i : Fin 4) (p : Fin 8) (b : Bool) (s : State) : (frameWrite i p b s).seTxbuf = s.seTxbuf := rfl
@[simp] theorem frameWrite_seTxPend (i : Fin 4) (p : Fin 8) (b : Bool) (s : State) : (frameWrite i p b s).seTxPend = s.seTxPend := rfl
@[simp] theorem frameWrite_bph (i : Fin 4) (p : Fin 8) (b : Bool) (s : State) : (frameWrite i p b s).bph = s.bph := rfl
@[simp] theorem frameWrite_wseq (i : Fin 4) (p : Fin 8) (b : Bool) (s : State) : (frameWrite i p b s).wseq = s.wseq := rfl
@[simp] theorem frameWrite_busph (i : Fin 4) (p : Fin 8) (b : Bool) (s : State) : (frameWrite i p b s).busph = s.busph := rfl
@[simp] theorem frameWrite_busTrace (i : Fin 4) (p : Fin 8) (b : Bool) (s : State) : (frameWrite i p b s).busTrace = s.busTrace := rfl

/-! `tmrClear` -/

@[simp] theorem tmrClear_launch (s : State) : (tmrClear s).launch = s.launch := rfl
@[simp] theorem tmrClear_ir (s : State) : (tmrClear s).ir = s.ir := rfl
@[simp] theorem tmrClear_present (s : State) : (tmrClear s).present = s.present := rfl
@[simp] theorem tmrClear_acks (s : State) : (tmrClear s).acks = s.acks := rfl
@[simp] theorem tmrClear_sched (s : State) : (tmrClear s).sched = s.sched := rfl
@[simp] theorem tmrClear_draws (s : State) : (tmrClear s).draws = s.draws := rfl
@[simp] theorem tmrClear_prog (s : State) : (tmrClear s).prog = s.prog := rfl
@[simp] theorem tmrClear_cpc (s : State) : (tmrClear s).cpc = s.cpc := rfl
@[simp] theorem tmrClear_client (s : State) : (tmrClear s).client = s.client := rfl
@[simp] theorem tmrClear_resReads (s : State) : (tmrClear s).resReads = s.resReads := rfl
@[simp] theorem tmrClear_now (s : State) : (tmrClear s).now = s.now := rfl
@[simp] theorem tmrClear_ready (s : State) : (tmrClear s).ready = s.ready := rfl
@[simp] theorem tmrClear_cur (s : State) : (tmrClear s).cur = s.cur := rfl
@[simp] theorem tmrClear_res (s : State) : (tmrClear s).res = s.res := rfl
@[simp] theorem tmrClear_fault (s : State) : (tmrClear s).fault = s.fault := rfl
@[simp] theorem tmrClear_dstate (s : State) : (tmrClear s).dstate = s.dstate := rfl
@[simp] theorem tmrClear_fidx (s : State) : (tmrClear s).fidx = s.fidx := rfl
@[simp] theorem tmrClear_bidx (s : State) : (tmrClear s).bidx = s.bidx := rfl
@[simp] theorem tmrClear_leaderOk (s : State) : (tmrClear s).leaderOk = s.leaderOk := rfl
@[simp] theorem tmrClear_frame (s : State) : (tmrClear s).frame = s.frame := rfl
@[simp] theorem tmrClear_dlyT0 (s : State) : (tmrClear s).dlyT0 = s.dlyT0 := rfl
@[simp] theorem tmrClear_ind (s : State) : (tmrClear s).ind = s.ind := rfl
@[simp] theorem tmrClear_tmrCnt (s : State) : (tmrClear s).tmrCnt = 0 := rfl
@[simp] theorem tmrClear_tmrOn (s : State) : (tmrClear s).tmrOn = s.tmrOn := rfl
@[simp] theorem tmrClear_tmrOvf (s : State) : (tmrClear s).tmrOvf = false := rfl
@[simp] theorem tmrClear_seStartReq (s : State) : (tmrClear s).seStartReq = s.seStartReq := rfl
@[simp] theorem tmrClear_seStopReq (s : State) : (tmrClear s).seStopReq = s.seStopReq := rfl
@[simp] theorem tmrClear_seDone (s : State) : (tmrClear s).seDone = s.seDone := rfl
@[simp] theorem tmrClear_seAckstat (s : State) : (tmrClear s).seAckstat = s.seAckstat := rfl
@[simp] theorem tmrClear_seTxbuf (s : State) : (tmrClear s).seTxbuf = s.seTxbuf := rfl
@[simp] theorem tmrClear_seTxPend (s : State) : (tmrClear s).seTxPend = s.seTxPend := rfl
@[simp] theorem tmrClear_bph (s : State) : (tmrClear s).bph = s.bph := rfl
@[simp] theorem tmrClear_wseq (s : State) : (tmrClear s).wseq = s.wseq := rfl
@[simp] theorem tmrClear_busph (s : State) : (tmrClear s).busph = s.busph := rfl
@[simp] theorem tmrClear_busTrace (s : State) : (tmrClear s).busTrace = s.busTrace := rfl

/-! `tmrRun` -/

@[simp] theorem tmrRun_launch (s : State) : (tmrRun s).launch = s.launch := rfl
@[simp] theorem tmrRun_ir (s : State) : (tmrRun s).ir = s.ir := rfl
@[simp] theorem tmrRun_present (s : State) : (tmrRun s).present = s.present := rfl
@[simp] theorem tmrRun_acks (s : State) : (tmrRun s).acks = s.acks := rfl
@[simp] theorem tmrRun_sched (s : State) : (tmrRun s).sched = s.sched := rfl
@[simp] theorem tmrRun_draws (s : State) : (tmrRun s).draws = s.draws := rfl
@[simp] theorem tmrRun_prog (s : State) : (tmrRun s).prog = s.prog := rfl
@[simp] theorem tmrRun_cpc (s : State) : (tmrRun s).cpc = s.cpc := rfl
@[simp] theorem tmrRun_client (s : State) : (tmrRun s).client = s.client := rfl
@[simp] theorem tmrRun_resReads (s : State) : (tmrRun s).resReads = s.resReads := rfl
@[simp] theorem tmrRun_now (s : State) : (tmrRun s).now = s.now := rfl
@[simp] theorem tmrRun_ready (s : State) : (tmrRun s).ready = s.ready := rfl
@[simp] theorem tmrRun_cur (s : State) : (tmrRun s).cur = s.cur := rfl
@[simp] theorem tmrRun_res (s : State) : (tmrRun s).res = s.res := rfl
@[simp] theorem tmrRun_fault (s : State) : (tmrRun s).fault = s.fault := rfl
@[simp] theorem tmrRun_dstate (s : State) : (tmrRun s).dstate = s.dstate := rfl
@[simp] theorem tmrRun_fidx (s : State) : (tmrRun s).fidx = s.fidx := rfl
@[simp] theorem tmrRun_bidx (s : State) : (tmrRun s).bidx = s.bidx := rfl
@[simp] theorem tmrRun_leaderOk (s : State) : (tmrRun s).leaderOk = s.leaderOk := rfl
@[simp] theorem tmrRun_frame (s : State) : (tmrRun s).frame = s.frame := rfl
@[simp] theorem tmrRun_dlyT0 (s : State) : (tmrRun s).dlyT0 = s.dlyT0 := rfl
@[simp] theorem tmrRun_ind (s : State) : (tmrRun s).ind = s.ind := rfl
@[simp] theorem tmrRun_tmrCnt (s : State) : (tmrRun s).tmrCnt = s.tmrCnt := rfl
@[simp] theorem tmrRun_tmrOn (s : State) : (tmrRun s).tmrOn = true := rfl
@[simp] theorem tmrRun_tmrOvf (s : State) : (tmrRun s).tmrOvf = s.tmrOvf := rfl
@[simp] theorem tmrRun_seStartReq (s : State) : (tmrRun s).seStartReq = s.seStartReq := rfl
@[simp] theorem tmrRun_seStopReq (s : State) : (tmrRun s).seStopReq = s.seStopReq := rfl
@[simp] theorem tmrRun_seDone (s : State) : (tmrRun s).seDone = s.seDone := rfl
@[simp] theorem tmrRun_seAckstat (s : State) : (tmrRun s).seAckstat = s.seAckstat := rfl
@[simp] theorem tmrRun_seTxbuf (s : State) : (tmrRun s).seTxbuf = s.seTxbuf := rfl
@[simp] theorem tmrRun_seTxPend (s : State) : (tmrRun s).seTxPend = s.seTxPend := rfl
@[simp] theorem tmrRun_bph (s : State) : (tmrRun s).bph = s.bph := rfl
@[simp] theorem tmrRun_wseq (s : State) : (tmrRun s).wseq = s.wseq := rfl
@[simp] theorem tmrRun_busph (s : State) : (tmrRun s).busph = s.busph := rfl
@[simp] theorem tmrRun_busTrace (s : State) : (tmrRun s).busTrace = s.busTrace := rfl

/-! `tmrHalt` -/

@[simp] theorem tmrHalt_launch (s : State) : (tmrHalt s).launch = s.launch := rfl
@[simp] theorem tmrHalt_ir (s : State) : (tmrHalt s).ir = s.ir := rfl
@[simp] theorem tmrHalt_present (s : State) : (tmrHalt s).present = s.present := rfl
@[simp] theorem tmrHalt_acks (s : State) : (tmrHalt s).acks = s.acks := rfl
@[simp] theorem tmrHalt_sched (s : State) : (tmrHalt s).sched = s.sched := rfl
@[simp] theorem tmrHalt_draws (s : State) : (tmrHalt s).draws = s.draws := rfl
@[simp] theorem tmrHalt_prog (s : State) : (tmrHalt s).prog = s.prog := rfl
@[simp] theorem tmrHalt_cpc (s : State) : (tmrHalt s).cpc = s.cpc := rfl
@[simp] theorem tmrHalt_client (s : State) : (tmrHalt s).client = s.client := rfl
@[simp] theorem tmrHalt_resReads (s : State) : (tmrHalt s).resReads = s.resReads := rfl
@[simp] theorem tmrHalt_now (s : State) : (tmrHalt s).now = s.now := rfl
@[simp] theorem tmrHalt_ready (s : State) : (tmrHalt s).ready = s.ready := rfl
@[simp] theorem tmrHalt_cur (s : State) : (tmrHalt s).cur = s.cur := rfl
@[simp] theorem tmrHalt_res (s : State) : (tmrHalt s).res = s.res := rfl
@[simp] theorem tmrHalt_fault (s : State) : (tmrHalt s).fault = s.fault := rfl
@[simp] theorem tmrHalt_dstate (s : State) : (tmrHalt s).dstate = s.dstate := rfl
@[simp] theorem tmrHalt_fidx (s : State) : (tmrHalt s).fidx = s.fidx := rfl
@[simp] theorem tmrHalt_bidx (s : State) : (tmrHalt s).bidx = s.bidx := rfl
@[simp] theorem tmrHalt_leaderOk (s : State) : (tmrHalt s).leaderOk = s.leaderOk := rfl
@[simp] theorem tmrHalt_frame (s : State) : (tmrHalt s).frame = s.frame := rfl
@[simp] theorem tmrHalt_dlyT0 (s : State) : (tmrHalt s).dlyT0 = s.dlyT0 := rfl
@[simp] theorem tmrHalt_ind (s : State) : (tmrHalt s).ind = s.ind := rfl
@[simp] theorem tmrHalt_tmrCnt (s : State) : (tmrHalt s).tmrCnt = s.tmrCnt := rfl
@[simp] theorem tmrHalt_tmrOn (s : State) : (tmrHalt s).tmrOn = false := rfl
@[simp] theorem tmrHalt_tmrOvf (s : State) : (tmrHalt s).tmrOvf = s.tmrOvf := rfl
@[simp] theorem tmrHalt_seStartReq (s : State) : (tmrHalt s).seStartReq = s.seStartReq := rfl
@[simp] theorem tmrHalt_seStopReq (s : State) : (tmrHalt s).seStopReq = s.seStopReq := rfl
@[simp] theorem tmrHalt_seDone (s : State) : (tmrHalt s).seDone = s.seDone := rfl
@[simp] theorem tmrHalt_seAckstat (s : State) : (tmrHalt s).seAckstat = s.seAckstat := rfl
@[simp] theorem tmrHalt_seTxbuf (s : State) : (tmrHalt s).seTxbuf = s.seTxbuf := rfl
@[simp] theorem tmrHalt_seTxPend (s : State) : (tmrHalt s).seTxPend = s.seTxPend := rfl
@[simp] theorem tmrHalt_bph (s : State) : (tmrHalt s).bph = s.bph := rfl
@[simp] theorem tmrHalt_wseq (s : State) : (tmrHalt s).wseq = s.wseq := rfl
@[simp] theorem tmrHalt_busph (s : State) : (tmrHalt s).busph = s.busph := rfl
@[simp] theorem tmrHalt_busTrace (s : State) : (tmrHalt s).busTrace = s.busTrace := rfl

/-! `emit` -/

@[simp] theorem emit_launch (e : BusEvent) (s : State) : (emit e s).launch = s.launch := rfl
@[simp] theorem emit_ir (e : BusEvent) (s : State) : (emit e s).ir = s.ir := rfl
@[simp] theorem emit_present (e : BusEvent) (s : State) : (emit e s).present = s.present := rfl
@[simp] theorem emit_acks (e : BusEvent) (s : State) : (emit e s).acks = s.acks := rfl
@[simp] theorem emit_sched (e : BusEvent) (s : State) : (emit e s).sched = s.sched := rfl
@[simp] theorem emit_draws (e : BusEvent) (s : State) : (emit e s).draws = s.draws := rfl
@[simp] theorem emit_prog (e : BusEvent) (s : State) : (emit e s).prog = s.prog := rfl
@[simp] theorem emit_cpc (e : BusEvent) (s : State) : (emit e s).cpc = s.cpc := rfl
@[simp] theorem emit_client (e : BusEvent) (s : State) : (emit e s).client = s.client := rfl
@[simp] theorem emit_resReads (e : BusEvent) (s : State) : (emit e s).resReads = s.resReads := rfl
@[simp] theorem emit_now (e : BusEvent) (s : State) : (emit e s).now = s.now := rfl
@[simp] theorem emit_ready (e : BusEvent) (s : State) : (emit e s).ready = s.ready := rfl
@[simp] theorem emit_cur (e : BusEvent) (s : State) : (emit e s).cur = s.cur := rfl
@[simp] theorem emit_res (e : BusEvent) (s : State) : (emit e s).res = s.res := rfl
@[simp] theorem emit_fault (e : BusEvent) (s : State) : (emit e s).fault = s.fault := rfl
@[simp] theorem emit_dstate (e : BusEvent) (s : State) : (emit e s).dstate = s.dstate := rfl
@[simp] theorem emit_fidx (e : BusEvent) (s : State) : (emit e s).fidx = s.fidx := rfl
@[simp] theorem emit_bidx (e : BusEvent) (s : State) : (emit e s).bidx = s.bidx := rfl
@[simp] theorem emit_leaderOk (e : BusEvent) (s : State) : (emit e s).leaderOk = s.leaderOk := rfl
@[simp] theorem emit_frame (e : BusEvent) (s : State) : (emit e s).frame = s.frame := rfl
@[simp] theorem emit_dlyT0 (e : BusEvent) (s : State) : (emit e s).dlyT0 = s.dlyT0 := rfl
@[simp] theorem emit_ind (e : BusEvent) (s : State) : (emit e s).ind = s.ind := rfl
@[simp] theorem emit_tmrCnt (e : BusEvent) (s : State) : (emit e s).tmrCnt = s.tmrCnt := rfl
@[simp] theorem emit_tmrOn (e : BusEvent) (s : State) : (emit e s).tmrOn = s.tmrOn := rfl
@[simp] theorem emit_tmrOvf (e : BusEvent) (s : State) : (emit e s).tmrOvf = s.tmrOvf := rfl
@[simp] theorem emit_seStartReq (e : BusEvent) (s : State) : (emit e s).seStartReq = s.seStartReq := rfl
@[simp] theorem emit_seStopReq (e : BusEvent) (s : State) : (emit e s).seStopReq = s.seStopReq := rfl
@[simp] theorem emit_seDone (e : BusEvent) (s : State) : (emit e s).seDone = s.seDone := rfl
@[simp] theorem emit_seAckstat (e : BusEvent) (s : State) : (emit e s).seAckstat = s.seAckstat := rfl
@[simp] theorem emit_seTxbuf (e : BusEvent) (s : State) : (emit e s).seTxbuf = s.seTxbuf := rfl
@[simp] theorem emit_seTxPend (e : BusEvent) (s : State) : (emit e s).seTxPend = s.seTxPend := rfl
@[simp] theorem emit_bph (e : BusEvent) (s : State) : (emit e s).bph = s.bph := rfl
@[simp] theorem emit_wseq (e : BusEvent) (s : State) : (emit e s).wseq = s.wseq := rfl
@[simp] theorem emit_busph (e : BusEvent) (s : State) : (emit e s).busph = s.busph := rfl
@[simp] theorem emit_busTrace (e : BusEvent) (s : State) : (emit e s).busTrace = s.busTrace ++ [e] := rfl

/-! `requestStart` -/

@[simp] theorem requestStart_launch (s : State) : (requestStart s).launch = s.launch := rfl
@[simp] theorem requestStart_ir (s : State) : (requestStart s).ir = s.ir := rfl
@[simp] theorem requestStart_present (s : State) : (requestStart s).present = s.present := rfl
@[simp] theorem requestStart_acks (s : State) : (requestStart s).acks = s.acks := rfl
@[simp] theorem requestStart_sched (s : State) : (requestStart s).sched = s.sched := rfl
@[simp] theorem requestStart_draws (s : State) : (requestStart s).draws = s.draws := rfl
@[simp] theorem requestStart_prog (s : State) : (requestStart s).prog = s.prog := rfl
@[simp] theorem requestStart_cpc (s : State) : (requestStart s).cpc = s.cpc := rfl
@[simp] theorem requestStart_client (s : State) : (requestStart s).client = s.client := rfl
@[simp] theorem requestStart_resReads (s : State) : (requestStart s).resReads = s.resReads := rfl
@[simp] theorem requestStart_now (s : State) : (requestStart s).now = s.now := rfl
@[simp] theorem requestStart_ready (s : State) : (requestStart s).ready = s.ready := rfl
@[simp] theorem requestStart_cur (s : State) : (requestStart s).cur = s.cur := rfl
@[simp] theorem requestStart_res (s : State) : (requestStart s).res = s.res := rfl
@[simp] theorem requestStart_fault (s : State) : (requestStart s).fault = s.fault := rfl
@[simp] theorem requestStart_dstate (s : State) : (requestStart s).dstate = s.dstate := rfl
@[simp] theorem requestStart_fidx (s : State) : (requestStart s).fidx = s.fidx := rfl
@[simp] theorem requestStart_bidx (s : State) : (requestStart s).bidx = s.bidx := rfl
@[simp] theorem requestStart_leaderOk (s : State) : (requestStart s).leaderOk = s.leaderOk := rfl
@[simp] theorem requestStart_frame (s : State) : (requestStart s).frame = s.frame := rfl
@[simp] theorem requestStart_dlyT0 (s : State) : (requestStart s).dlyT0 = s.dlyT0 := rfl
@[simp] theorem requestStart_ind (s : State) : (requestStart s).ind = s.ind := rfl
@[simp] theorem requestStart_tmrCnt (s : State) : (requestStart s).tmrCnt = s.tmrCnt := rfl
@[simp] theorem requestStart_tmrOn (s : State) : (requestStart s).tmrOn = s.tmrOn := rfl
@[simp] theorem requestStart_tmrOvf (s : State) : (requestStart s).tmrOvf = s.tmrOvf := rfl
@[simp] theorem requestStart_seStartReq (s : State) : (requestStart s).seStartReq = true := rfl
@[simp] theorem requestStart_seStopReq (s : State) : (requestStart s).seStopReq = s.seStopReq := rfl
@[simp] theorem requestStart_seDone (s : State) : (requestStart s).seDone = s.seDone := rfl
@[simp] theorem requestStart_seAckstat (s : State) : (requestStart s).seAckstat = s.seAckstat := rfl
@[simp] theorem requestStart_seTxbuf (s : State) : (requestStart s).seTxbuf = s.seTxbuf := rfl
@[simp] theorem requestStart_seTxPend (s : State) : (requestStart s).seTxPend = s.seTxPend := rfl
@[simp] theorem requestStart_bph (s : State) : (requestStart s).bph = s.bph := rfl
@[simp] theorem requestStart_wseq (s : State) : (requestStart s).wseq = s.wseq := rfl
@[simp] theorem requestStart_busph (s : State) : (requestStart s).busph = s.busph := rfl
@[simp] theorem requestStart_busTrace (s : State) : (requestStart s).busTrace = s.busTrace := rfl

/-! `requestStop` -/

@[simp] theorem requestStop_launch (s : State) : (requestStop s).launch = s.launch := rfl
@[simp] theorem requestStop_ir (s : State) : (requestStop s).ir = s.ir := rfl
@[simp] theorem requestStop_present (s : State) : (requestStop s).present = s.present := rfl
@[simp] theorem requestStop_acks (s : State) : (requestStop s).acks = s.acks := rfl
@[simp] theorem requestStop_sched (s : State) : (requestStop s).sched = s.sched := rfl
@[simp] theorem requestStop_draws (s : State) : (requestStop s).draws = s.draws := rfl
@[simp] theorem requestStop_prog (s : State) : (requestStop s).prog = s.prog := rfl
@[simp] theorem requestStop_cpc (s : State) : (requestStop s).cpc = s.cpc := rfl
@[simp] theorem requestStop_client (s : State) : (requestStop s).client = s.client := rfl
@[simp] theorem requestStop_resReads (s : State) : (requestStop s).resReads = s.resReads := rfl
@[simp] theorem requestStop_now (s : State) : (requestStop s).now = s.now := rfl
@[simp] theorem requestStop_ready (s : State) : (requestStop s).ready = s.ready := rfl
@[simp] theorem requestStop_cur (s : State) : (requestStop s).cur = s.cur := rfl
@[simp] theorem requestStop_res (s : State) : (requestStop s).res = s.res := rfl
@[simp] theorem requestStop_fault (s : State) : (requestStop s).fault = s.fault := rfl
@[simp] theorem requestStop_dstate (s : State) : (requestStop s).dstate = s.dstate := rfl
@[simp] theorem requestStop_fidx (s : State) : (requestStop s).fidx = s.fidx := rfl
@[simp] theorem requestStop_bidx (s : State) : (requestStop s).bidx = s.bidx := rfl
@[simp] theorem requestStop_leaderOk (s : State) : (requestStop s).leaderOk = s.leaderOk := rfl
@[simp] theorem requestStop_frame (s : State) : (requestStop s).frame = s.frame := rfl
@[simp] theorem requestStop_dlyT0 (s : State) : (requestStop s).dlyT0 = s.dlyT0 := rfl
@[simp] theorem requestStop_ind (s : State) : (requestStop s).ind = s.ind := rfl
@[simp] theorem requestStop_tmrCnt (s : State) : (requestStop s).tmrCnt = s.tmrCnt := rfl
@[simp] theorem requestStop_tmrOn (s : State) : (requestStop s).tmrOn = s.tmrOn := rfl
@[simp] theorem requestStop_tmrOvf (s : State) : (requestStop s).tmrOvf = s.tmrOvf := rfl
@[simp] theorem requestStop_seStartReq (s : State) : (requestStop s).seStartReq = s.seStartReq := rfl
@[simp] theorem requestStop_seStopReq (s : State) : (requestStop s).seStopReq = true := rfl
@[simp] theorem requestStop_seDone (s : State) : (requestStop s).seDone = s.seDone := rfl
@[simp] theorem requestStop_seAckstat (s : State) : (requestStop s).seAckstat = s.seAckstat := rfl
@[simp] theorem requestStop_seTxbuf (s : State) : (requestStop s).seTxbuf = s.seTxbuf := rfl
@[simp] theorem requestStop_seTxPend (s : State) : (requestStop s).seTxPend = s.seTxPend := rfl
@[simp] theorem requestStop_bph (s : State) : (requestStop s).bph = s.bph := rfl
@[simp] theorem requestStop_wseq (s : State) : (requestStop s).wseq = s.wseq := rfl
@[simp] theorem requestStop_busph (s : State) : (requestStop s).busph = s.busph := rfl
@[simp] theorem requestStop_busTrace (s : State) : (requestStop s).busTrace = s.busTrace := rfl

/-! `loadTx` -/

@[simp] theorem loadTx_launch (b : Byte) (s : State) : (loadTx b s).launch = s.launch := rfl
@[simp] theorem loadTx_ir (b : Byte) (s : State) : (loadTx b s).ir = s.ir := rfl
@[simp] theorem loadTx_present (b : Byte) (s : State) : (loadTx b s).present = s.present := rfl
@[simp] theorem loadTx_acks (b : Byte) (s : State) : (loadTx b s).acks = s.acks := rfl
@[simp] theorem loadTx_sched (b : Byte) (s : State) : (loadTx b s).sched = s.sched := rfl
@[simp] theorem loadTx_draws (b : Byte) (s : State) : (loadTx b s).draws = s.draws := rfl
@[simp] theorem loadTx_prog (b : Byte) (s : State) : (loadTx b s).prog = s.prog := rfl
@[simp] theorem loadTx_cpc (b : Byte) (s : State) : (loadTx b s).cpc = s.cpc := rfl
@[simp] theorem loadTx_client (b : Byte) (s : State) : (loadTx b s).client = s.client := rfl
@[simp] theorem loadTx_resReads (b : Byte) (s : State) : (loadTx b s).resReads = s.resReads := rfl
@[simp] theorem loadTx_now (b : Byte) (s : State) : (loadTx b s).now = s.now := rfl
@[simp] theorem loadTx_ready (b : Byte) (s : State) : (loadTx b s).ready = s.ready := rfl
@[simp] theorem loadTx_cur (b : Byte) (s : State) : (loadTx b s).cur = s.cur := rfl
@[simp] theorem loadTx_res (b : Byte) (s : State) : (loadTx b s).res = s.res := rfl
@[simp] theorem loadTx_fault (b : Byte) (s : State) : (loadTx b s).fault = s.fault := rfl
@[simp] theorem loadTx_dstate (b : Byte) (s : State) : (loadTx b s).dstate = s.dstate := rfl
@[simp] theorem loadTx_fidx (b : Byte) (s : State) : (loadTx b s).fidx = s.fidx := rfl
@[simp] theorem loadTx_bidx (b : Byte) (s : State) : (loadTx b s).bidx = s.bidx := rfl
@[simp] theorem loadTx_leaderOk (b : Byte) (s : State) : (loadTx b s).leaderOk = s.leaderOk := rfl
@[simp] theorem loadTx_frame (b : Byte) (s : State) : (loadTx b s).frame = s.frame := rfl
@[simp] theorem loadTx_dlyT0 (b : Byte) (s : State) : (loadTx b s).dlyT0 = s.dlyT0 := rfl
@[simp] theorem loadTx_ind (b : Byte) (s : State) : (loadTx b s).ind = s.ind := rfl
@[simp] theorem loadTx_tmrCnt (b : Byte) (s : State) : (loadTx b s).tmrCnt = s.tmrCnt := rfl
@[simp] theorem loadTx_tmrOn (b : Byte) (s : State) : (loadTx b s).tmrOn = s.tmrOn := rfl
@[simp] theorem loadTx_tmrOvf (b : Byte) (s : State) : (loadTx b s).tmrOvf = s.tmrOvf := rfl
@[simp] theorem loadTx_seStartReq (b : Byte) (s : State) : (loadTx b s).seStartReq = s.seStartReq := rfl
@[simp] theorem loadTx_seStopReq (b : Byte) (s : State) : (loadTx b s).seStopReq = s.seStopReq := rfl
@[simp] theorem loadTx_seDone (b : Byte) (s : State) : (loadTx b s).seDone = s.seDone := rfl
@[simp] theorem loadTx_seAckstat (b : Byte) (s : State) : (loadTx b s).seAckstat = s.seAckstat := rfl
@[simp] theorem loadTx_seTxbuf (b : Byte) (s : State) : (loadTx b s).seTxbuf = some b := rfl
@[simp] theorem loadTx_seTxPend (b : Byte) (s : State) : (loadTx b s).seTxPend = true := rfl
@[simp] theorem loadTx_bph (b : Byte) (s : State) : (loadTx b s).bph = s.bph := rfl
@[simp] theorem loadTx_wseq (b : Byte) (s : State) : (loadTx b s).wseq = s.wseq := rfl
@[simp] theorem loadTx_busph (b : Byte) (s : State) : (loadTx b s).busph = s.busph := rfl
@[simp] theorem loadTx_busTrace (b : Byte) (s : State) : (loadTx b s).busTrace = s.busTrace := rfl

/-! `clearDone` -/

@[simp] theorem clearDone_launch (s : State) : (clearDone s).launch = s.launch := rfl
@[simp] theorem clearDone_ir (s : State) : (clearDone s).ir = s.ir := rfl
@[simp] theorem clearDone_present (s : State) : (clearDone s).present = s.present := rfl
@[simp] theorem clearDone_acks (s : State) : (clearDone s).acks = s.acks := rfl
@[simp] theorem clearDone_sched (s : State) : (clearDone s).sched = s.sched := rfl
@[simp] theorem clearDone_draws (s : State) : (clearDone s).draws = s.draws := rfl
@[simp] theorem clearDone_prog (s : State) : (clearDone s).prog = s.prog := rfl
@[simp] theorem clearDone_cpc (s : State) : (clearDone s).cpc = s.cpc := rfl
@[simp] theorem clearDone_client (s : State) : (clearDone s).client = s.client := rfl
@[simp] theorem clearDone_resReads (s : State) : (clearDone s).resReads = s.resReads := rfl
@[simp] theorem clearDone_now (s : State) : (clearDone s).now = s.now := rfl
@[simp] theorem clearDone_ready (s : State) : (clearDone s).ready = s.ready := rfl
@[simp] theorem clearDone_cur (s : State) : (clearDone s).cur = s.cur := rfl
@[simp] theorem clearDone_res (s : State) : (clearDone s).res = s.res := rfl
@[simp] theorem clearDone_fault (s : State) : (clearDone s).fault = s.fault := rfl
@[simp] theorem clearDone_dstate (s : State) : (clearDone s).dstate = s.dstate := rfl
@[simp] theorem clearDone_fidx (s : State) : (clearDone s).fidx = s.fidx := rfl
@[simp] theorem clearDone_bidx (s : State) : (clearDone s).bidx = s.bidx := rfl
@[simp] theorem clearDone_leaderOk (s : State) : (clearDone s).leaderOk = s.leaderOk := rfl
@[simp] theorem clearDone_frame (s : State) : (clearDone s).frame = s.frame := rfl
@[simp] theorem clearDone_dlyT0 (s : State) : (clearDone s).dlyT0 = s.dlyT0 := rfl
@[simp] theorem clearDone_ind (s : State) : (clearDone s).ind = s.ind := rfl
@[simp] theorem clearDone_tmrCnt (s : State) : (clearDone s).tmrCnt = s.tmrCnt := rfl
@[simp] theorem clearDone_tmrOn (s : State) : (clearDone s).tmrOn = s.tmrOn := rfl
@[simp] theorem clearDone_tmrOvf (s : State) : (clearDone s).tmrOvf = s.tmrOvf := rfl
@[simp] theorem clearDone_seStartReq (s : State) : (clearDone s).seStartReq = s.seStartReq := rfl
@[simp] theorem clearDone_seStopReq (s : State) : (clearDone s).seStopReq = s.seStopReq := rfl
@[simp] theorem clearDone_seDone (s : State) : (clearDone s).seDone = false := rfl
@[simp] theorem clearDone_seAckstat (s : State) : (clearDone s).seAckstat = s.seAckstat := rfl
@[simp] theorem clearDone_seTxbuf (s : State) : (clearDone s).seTxbuf = s.seTxbuf := rfl
@[simp] theorem clearDone_seTxPend (s : State) : (clearDone s).seTxPend = s.seTxPend := rfl
@[simp] theorem clearDone_bph (s : State) : (clearDone s).bph = s.bph := rfl
@[simp] theorem clearDone_wseq (s : State) : (clearDone s).wseq = s.wseq := rfl
@[simp] theorem clearDone_busph (s : State) : (clearDone s).busph = s.busph := rfl
@[simp] theorem clearDone_busTrace (s : State) : (clearDone s).busTrace = s.busTrace := rfl

/-! `busIssue` -/

@[simp] theorem busIssue_launch (s : State) : (busIssue s).launch = s.launch := rfl
@[simp] theorem busIssue_ir (s : State) : (busIssue s).ir = s.ir := rfl
@[simp] theorem busIssue_present (s : State) : (busIssue s).present = s.present := rfl
@[simp] theorem busIssue_acks (s : State) : (busIssue s).acks = s.acks := rfl
@[simp] theorem busIssue_sched (s : State) : (busIssue s).sched = s.sched := rfl
@[simp] theorem busIssue_draws (s : State) : (busIssue s).draws = s.draws := rfl
@[simp] theorem busIssue_prog (s : State) : (busIssue s).prog = s.prog := rfl
@[simp] theorem busIssue_cpc (s : State) : (busIssue s).cpc = s.cpc := rfl
@[simp] theorem busIssue_client (s : State) : (busIssue s).client = s.client := rfl
@[simp] theorem busIssue_resReads (s : State) : (busIssue s).resReads = s.resReads := rfl
@[simp] theorem busIssue_now (s : State) : (busIssue s).now = s.now := rfl
@[simp] theorem busIssue_ready (s : State) : (busIssue s).ready = s.ready := rfl
@[simp] theorem busIssue_cur (s : State) : (busIssue s).cur = s.cur := rfl
@[simp] theorem busIssue_res (s : State) : (busIssue s).res = s.res := rfl
@[simp] theorem busIssue_fault (s : State) : (busIssue s).fault = s.fault := rfl
@[simp] theorem busIssue_dstate (s : State) : (busIssue s).dstate = s.dstate := rfl
@[simp] theorem busIssue_fidx (s : State) : (busIssue s).fidx = s.fidx := rfl
@[simp] theorem busIssue_bidx (s : State) : (busIssue s).bidx = s.bidx := rfl
@[simp] theorem busIssue_leaderOk (s : State) : (busIssue s).leaderOk = s.leaderOk := rfl
@[simp] theorem busIssue_frame (s : State) : (busIssue s).frame = s.frame := rfl
@[simp] theorem busIssue_dlyT0 (s : State) : (busIssue s).dlyT0 = s.dlyT0 := rfl
@[simp] theorem busIssue_ind (s : State) : (busIssue s).ind = s.ind := rfl
@[simp] theorem busIssue_tmrCnt (s : State) : (busIssue s).tmrCnt = s.tmrCnt := rfl
@[simp] theorem busIssue_tmrOn (s : State) : (busIssue s).tmrOn = s.tmrOn := rfl
@[simp] theorem busIssue_tmrOvf (s : State) : (busIssue s).tmrOvf = s.tmrOvf := rfl
@[simp] theorem busIssue_seStartReq (s : State) : (busIssue s).seStartReq = s.seStartReq := rfl
@[simp] theorem busIssue_seStopReq (s : State) : (busIssue s).seStopReq = s.seStopReq := rfl
@[simp] theorem busIssue_seDone (s : State) : (busIssue s).seDone = s.seDone := rfl
@[simp] theorem busIssue_seAckstat (s : State) : (busIssue s).seAckstat = s.seAckstat := rfl
@[simp] theorem busIssue_seTxbuf (s : State) : (busIssue s).seTxbuf = s.seTxbuf := rfl
@[simp] theorem busIssue_seTxPend (s : State) : (busIssue s).seTxPend = s.seTxPend := rfl
@[simp] theorem busIssue_bph (s : State) : (busIssue s).bph = .issue := rfl
@[simp] theorem busIssue_wseq (s : State) : (busIssue s).wseq = s.wseq := rfl
@[simp] theorem busIssue_busph (s : State) : (busIssue s).busph = s.busph := rfl
@[simp] theorem busIssue_busTrace (s : State) : (busIssue s).busTrace = s.busTrace := rfl

/-! `tmrTick` -/

@[simp] theorem tmrTick_launch (s : State) : (tmrTick s).launch = s.launch := rfl
@[simp] theorem tmrTick_ir (s : State) : (tmrTick s).ir = s.ir := rfl
@[simp] theorem tmrTick_present (s : State) : (tmrTick s).present = s.present := rfl
@[simp] theorem tmrTick_acks (s : State) : (tmrTick s).acks = s.acks := rfl
@[simp] theorem tmrTick_sched (s : State) : (tmrTick s).sched = s.sched := rfl
@[simp] theorem tmrTick_draws (s : State) : (tmrTick s).draws = s.draws := rfl
@[simp] theorem tmrTick_prog (s : State) : (tmrTick s).prog = s.prog := rfl
@[simp] theorem tmrTick_cpc (s : State) : (tmrTick s).cpc = s.cpc := rfl
@[simp] theorem tmrTick_client (s : State) : (tmrTick s).client = s.client := rfl
@[simp] theorem tmrTick_resReads (s : State) : (tmrTick s).resReads = s.resReads := rfl
@[simp] theorem tmrTick_now (s : State) : (tmrTick s).now = s.now := rfl
@[simp] theorem tmrTick_ready (s : State) : (tmrTick s).ready = s.ready := rfl
@[simp] theorem tmrTick_cur (s : State) : (tmrTick s).cur = s.cur := rfl
@[simp] theorem tmrTick_res (s : State) : (tmrTick s).res = s.res := rfl
@[simp] theorem tmrTick_fault (s : State) : (tmrTick s).fault = s.fault := rfl
@[simp] theorem tmrTick_dstate (s : State) : (tmrTick s).dstate = s.dstate := rfl
@[simp] theorem tmrTick_fidx (s : State) : (tmrTick s).fidx = s.fidx := rfl
@[simp] theorem tmrTick_bidx (s : State) : (tmrTick s).bidx = s.bidx := rfl
@[simp] theorem tmrTick_leaderOk (s : State) : (tmrTick s).leaderOk = s.leaderOk := rfl
@[simp] theorem tmrTick_frame (s : State) : (tmrTick s).frame = s.frame := rfl
@[simp] theorem tmrTick_dlyT0 (s : State) : (tmrTick s).dlyT0 = s.dlyT0 := rfl
@[simp] theorem tmrTick_ind (s : State) : (tmrTick s).ind = s.ind := rfl
@[simp] theorem tmrTick_tmrOn (s : State) : (tmrTick s).tmrOn = s.tmrOn := rfl
@[simp] theorem tmrTick_seStartReq (s : State) : (tmrTick s).seStartReq = s.seStartReq := rfl
@[simp] theorem tmrTick_seStopReq (s : State) : (tmrTick s).seStopReq = s.seStopReq := rfl
@[simp] theorem tmrTick_seDone (s : State) : (tmrTick s).seDone = s.seDone := rfl
@[simp] theorem tmrTick_seAckstat (s : State) : (tmrTick s).seAckstat = s.seAckstat := rfl
@[simp] theorem tmrTick_seTxbuf (s : State) : (tmrTick s).seTxbuf = s.seTxbuf := rfl
@[simp] theorem tmrTick_seTxPend (s : State) : (tmrTick s).seTxPend = s.seTxPend := rfl
@[simp] theorem tmrTick_bph (s : State) : (tmrTick s).bph = s.bph := rfl
@[simp] theorem tmrTick_wseq (s : State) : (tmrTick s).wseq = s.wseq := rfl
@[simp] theorem tmrTick_busph (s : State) : (tmrTick s).busph = s.busph := rfl
@[simp] theorem tmrTick_busTrace (s : State) : (tmrTick s).busTrace = s.busTrace := rfl

/-! `afterTmrRead` -/

@[simp] theorem afterTmrRead_launch (s : State) : (afterTmrRead s).launch = s.launch := rfl
@[simp] theorem afterTmrRead_ir (s : State) : (afterTmrRead s).ir = s.ir := rfl
@[simp] theorem afterTmrRead_present (s : State) : (afterTmrRead s).present = s.present := rfl
@[simp] theorem afterTmrRead_acks (s : State) : (afterTmrRead s).acks = s.acks := rfl
@[simp] theorem afterTmrRead_sched (s : State) : (afterTmrRead s).sched = s.sched := rfl
@[simp] theorem afterTmrRead_prog (s : State) : (afterTmrRead s).prog = s.prog := rfl
@[simp] theorem afterTmrRead_cpc (s : State) : (afterTmrRead s).cpc = s.cpc := rfl
@[simp] theorem afterTmrRead_client (s : State) : (afterTmrRead s).client = s.client := rfl
@[simp] theorem afterTmrRead_resReads (s : State) : (afterTmrRead s).resReads = s.resReads := rfl
@[simp] theorem afterTmrRead_now (s : State) : (afterTmrRead s).now = s.now := rfl
@[simp] theorem afterTmrRead_ready (s : State) : (afterTmrRead s).ready = s.ready := rfl
@[simp] theorem afterTmrRead_cur (s : State) : (afterTmrRead s).cur = s.cur := rfl
@[simp] theorem afterTmrRead_res (s : State) : (afterTmrRead s).res = s.res := rfl
@[simp] theorem afterTmrRead_fault (s : State) : (afterTmrRead s).fault = s.fault := rfl
@[simp] theorem afterTmrRead_dstate (s : State) : (afterTmrRead s).dstate = s.dstate := rfl
@[simp] theorem afterTmrRead_fidx (s : State) : (afterTmrRead s).fidx = s.fidx := rfl
@[simp] theorem afterTmrRead_bidx (s : State) : (afterTmrRead s).bidx = s.bidx := rfl
@[simp] theorem afterTmrRead_leaderOk (s : State) : (afterTmrRead s).leaderOk = s.leaderOk := rfl
@[simp] theorem afterTmrRead_frame (s : State) : (afterTmrRead s).frame = s.frame := rfl
@[simp] theorem afterTmrRead_dlyT0 (s : State) : (afterTmrRead s).dlyT0 = s.dlyT0 := rfl
@[simp] theorem afterTmrRead_ind (s : State) : (afterTmrRead s).ind = s.ind := rfl
@[simp] theorem afterTmrRead_tmrCnt (s : State) : (afterTmrRead s).tmrCnt = s.tmrCnt := rfl
@[simp] theorem afterTmrRead_tmrOn (s : State) : (afterTmrRead s).tmrOn = s.tmrOn := rfl
@[simp] theorem afterTmrRead_tmrOvf (s : State) : (afterTmrRead s).tmrOvf = s.tmrOvf := rfl
@[simp] theorem afterTmrRead_seStartReq (s : State) : (afterTmrRead s).seStartReq = s.seStartReq := rfl
@[simp] theorem afterTmrRead_seStopReq (s : State) : (afterTmrRead s).seStopReq = s.seStopReq := rfl
@[simp] theorem afterTmrRead_seDone (s : State) : (afterTmrRead s).seDone = s.seDone := rfl
@[simp] theorem afterTmrRead_seAckstat (s : State) : (afterTmrRead s).seAckstat = s.seAckstat := rfl
@[simp] theorem afterTmrRead_seTxbuf (s : State) : (afterTmrRead s).seTxbuf = s.seTxbuf := rfl
@[simp] theorem afterTmrRead_seTxPend (s : State) : (afterTmrRead s).seTxPend = s.seTxPend := rfl
@[simp] theorem afterTmrRead_bph (s : State) : (afterTmrRead s).bph = s.bph := rfl
@[simp] theorem afterTmrRead_wseq (s : State) : (afterTmrRead s).wseq = s.wseq := rfl
@[simp] theorem afterTmrRead_busph (s : State) : (afterTmrRead s).busph = s.busph := rfl
@[simp] theorem afterTmrRead_busTrace (s : State) : (afterTmrRead s).busTrace = s.busTrace := rfl

/-! `afterAck` -/

@[simp] theorem afterAck_launch (s : State) : (afterAck s).launch = s.launch := rfl
@[simp] theorem afterAck_ir (s : State) : (afterAck s).ir = s.ir := rfl
@[simp] theorem afterAck_present (s : State) : (afterAck s).present = s.present := rfl
@[simp] theorem afterAck_acks (s : State) : (afterAck s).acks = s.acks.tail := rfl
@[simp] theorem afterAck_sched (s : State) : (afterAck s).sched = s.sched := rfl
@[simp] theorem afterAck_prog (s : State) : (afterAck s).prog = s.prog := rfl
@[simp] theorem afterAck_cpc (s : State) : (afterAck s).cpc = s.cpc := rfl
@[simp] theorem afterAck_client (s : State) : (afterAck s).client = s.client := rfl
@[simp] theorem afterAck_resReads (s : State) : (afterAck s).resReads = s.resReads := rfl
@[simp] theorem afterAck_now (s : State) : (afterAck s).now = s.now := rfl
@[simp] theorem afterAck_ready (s : State) : (afterAck s).ready = s.ready := rfl
@[simp] theorem afterAck_cur (s : State) : (afterAck s).cur = s.cur := rfl
@[simp] theorem afterAck_res (s : State) : (afterAck s).res = s.res := rfl
@[simp] theorem afterAck_fault (s : State) : (afterAck s).fault = s.fault := rfl
@[simp] theorem afterAck_dstate (s : State) : (afterAck s).dstate = s.dstate := rfl
@[simp] theorem afterAck_fidx (s : State) : (afterAck s).fidx = s.fidx := rfl
@[simp] theorem afterAck_bidx (s : State) : (afterAck s).bidx = s.bidx := rfl
@[simp] theorem afterAck_leaderOk (s : State) : (afterAck s).leaderOk = s.leaderOk := rfl
@[simp] theorem afterAck_frame (s : State) : (afterAck s).frame = s.frame := rfl
@[simp] theorem afterAck_dlyT0 (s : State) : (afterAck s).dlyT0 = s.dlyT0 := rfl
@[simp] theorem afterAck_ind (s : State) : (afterAck s).ind = s.ind := rfl
@[simp] theorem afterAck_tmrCnt (s : State) : (afterAck s).tmrCnt = s.tmrCnt := rfl
@[simp] theorem afterAck_tmrOn (s : State) : (afterAck s).tmrOn = s.tmrOn := rfl
@[simp] theorem afterAck_tmrOvf (s : State) : (afterAck s).tmrOvf = s.tmrOvf := rfl
@[simp] theorem afterAck_seStartReq (s : State) : (afterAck s).seStartReq = s.seStartReq := rfl
@[simp] theorem afterAck_seStopReq (s : State) : (afterAck s).seStopReq = s.seStopReq := rfl
@[simp] theorem afterAck_seDone (s : State) : (afterAck s).seDone = s.seDone := rfl
@[simp] theorem afterAck_seAckstat (s : State) : (afterAck s).seAckstat = s.seAckstat := rfl
@[simp] theorem afterAck_seTxbuf (s : State) : (afterAck s).seTxbuf = s.seTxbuf := rfl
@[simp] theorem afterAck_seTxPend (s : State) : (afterAck s).seTxPend = s.seTxPend := rfl
@[simp] theorem afterAck_bph (s : State) : (afterAck s).bph = s.bph := rfl
@[simp] theorem afterAck_wseq (s : State) : (afterAck s).wseq = s.wseq := rfl
@[simp] theorem afterAck_busph (s : State) : (afterAck s).busph = s.busph := rfl
@[simp] theorem afterAck_busTrace (s : State) : (afterAck s).busTrace = s.busTrace := rfl

/-! `afterChoice` -/

@[simp] theorem afterChoice_launch (s : State) : (afterChoice s).launch = s.launch := rfl
@[simp] theorem afterChoice_ir (s : State) : (afterChoice s).ir = s.ir := rfl
@[simp] theorem afterChoice_present (s : State) : (afterChoice s).present = s.present := rfl
@[simp] theorem afterChoice_acks (s : State) : (afterChoice s).acks = s.acks := rfl
@[simp] theorem afterChoice_sched (s : State) : (afterChoice s).sched = s.sched.tail := rfl
@[simp] theorem afterChoice_prog (s : State) : (afterChoice s).prog = s.prog := rfl
@[simp] theorem afterChoice_cpc (s : State) : (afterChoice s).cpc = s.cpc := rfl
@[simp] theorem afterChoice_client (s : State) : (afterChoice s).client = s.client := rfl
@[simp] theorem afterChoice_resReads (s : State) : (afterChoice s).resReads = s.resReads := rfl
@[simp] theorem afterChoice_now (s : State) : (afterChoice s).now = s.now := rfl
@[simp] theorem afterChoice_ready (s : State) : (afterChoice s).ready = s.ready := rfl
@[simp] theorem afterChoice_cur (s : State) : (afterChoice s).cur = s.cur := rfl
@[simp] theorem afterChoice_res (s : State) : (afterChoice s).res = s.res := rfl
@[simp] theorem afterChoice_fault (s : State) : (afterChoice s).fault = s.fault := rfl
@[simp] theorem afterChoice_dstate (s : State) : (afterChoice s).dstate = s.dstate := rfl
@[simp] theorem afterChoice_fidx (s : State) : (afterChoice s).fidx = s.fidx := rfl
@[simp] theorem afterChoice_bidx (s : State) : (afterChoice s).bidx = s.bidx := rfl
@[simp] theorem afterChoice_leaderOk (s : State) : (afterChoice s).leaderOk = s.leaderOk := rfl
@[simp] theorem afterChoice_frame (s : State) : (afterChoice s).frame = s.frame := rfl
@[simp] theorem afterChoice_dlyT0 (s : State) : (afterChoice s).dlyT0 = s.dlyT0 := rfl
@[simp] theorem afterChoice_ind (s : State) : (afterChoice s).ind = s.ind := rfl
@[simp] theorem afterChoice_tmrCnt (s : State) : (afterChoice s).tmrCnt = s.tmrCnt := rfl
@[simp] theorem afterChoice_tmrOn (s : State) : (afterChoice s).tmrOn = s.tmrOn := rfl
@[simp] theorem afterChoice_tmrOvf (s : State) : (afterChoice s).tmrOvf = s.tmrOvf := rfl
@[simp] theorem afterChoice_seStartReq (s : State) : (afterChoice s).seStartReq = s.seStartReq := rfl
@[simp] theorem afterChoice_seStopReq (s : State) : (afterChoice s).seStopReq = s.seStopReq := rfl
@[simp] theorem afterChoice_seDone (s : State) : (afterChoice s).seDone = s.seDone := rfl
@[simp] theorem afterChoice_seAckstat (s : State) : (afterChoice s).seAckstat = s.seAckstat := rfl
@[simp] theorem afterChoice_seTxbuf (s : State) : (afterChoice s).seTxbuf = s.seTxbuf := rfl
@[simp] theorem afterChoice_seTxPend (s : State) : (afterChoice s).seTxPend = s.seTxPend := rfl
@[simp] theorem afterChoice_bph (s : State) : (afterChoice s).bph = s.bph := rfl
@[simp] theorem afterChoice_wseq (s : State) : (afterChoice s).wseq = s.wseq := rfl
@[simp] theorem afterChoice_busph (s : State) : (afterChoice s).busph = s.busph := rfl
@[simp] theorem afterChoice_busTrace (s : State) : (afterChoice s).busTrace = s.busTrace := rfl

/-! `tickStep` -/

@[simp] theorem tickStep_launch (s : State) : (tickStep s).launch = s.launch := rfl
@[simp] theorem tickStep_ir (s : State) : (tickStep s).ir = s.ir := rfl
@[simp] theorem tickStep_present (s : State) : (tickStep s).present = s.present := rfl
@[simp] theorem tickStep_acks (s : State) : (tickStep s).acks = s.acks := rfl
@[simp] theorem tickStep_sched (s : State) : (tickStep s).sched = s.sched := rfl
@[simp] theorem tickStep_draws (s : State) : (tickStep s).draws = s.draws := rfl
@[simp] theorem tickStep_prog (s : State) : (tickStep s).prog = s.prog := rfl
@[simp] theorem tickStep_cpc (s : State) : (tickStep s).cpc = s.cpc := rfl
@[simp] theorem tickStep_client (s : State) : (tickStep s).client = s.client := rfl
@[simp] theorem tickStep_resReads (s : State) : (tickStep s).resReads = s.resReads := rfl
@[simp] theorem tickStep_now (s : State) : (tickStep s).now = s.now + 1 := rfl
@[simp] theorem tickStep_ready (s : State) : (tickStep s).ready = s.ready := rfl
@[simp] theorem tickStep_cur (s : State) : (tickStep s).cur = s.cur := rfl
@[simp] theorem tickStep_res (s : State) : (tickStep s).res = s.res := rfl
@[simp] theorem tickStep_fault (s : State) : (tickStep s).fault = s.fault := rfl
@[simp] theorem tickStep_dstate (s : State) : (tickStep s).dstate = s.dstate := rfl
@[simp] theorem tickStep_fidx (s : State) : (tickStep s).fidx = s.fidx := rfl
@[simp] theorem tickStep_bidx (s : State) : (tickStep s).bidx = s.bidx := rfl
@[simp] theorem tickStep_leaderOk (s : State) : (tickStep s).leaderOk = s.leaderOk := rfl
@[simp] theorem tickStep_frame (s : State) : (tickStep s).frame = s.frame := rfl
@[simp] theorem tickStep_dlyT0 (s : State) : (tickStep s).dlyT0 = s.dlyT0 := rfl
@[simp] theorem tickStep_ind (s : State) : (tickStep s).ind = s.ind := rfl
@[simp] theorem tickStep_tmrCnt (s : State) : (tickStep s).tmrCnt = (tmrTick s).tmrCnt := rfl
@[simp] theorem tickStep_tmrOn (s : State) : (tickStep s).tmrOn = s.tmrOn := rfl
@[simp] theorem tickStep_tmrOvf (s : State) : (tickStep s).tmrOvf = (tmrTick s).tmrOvf := rfl
@[simp] theorem tickStep_seStartReq (s : State) : (tickStep s).seStartReq = s.seStartReq := rfl
@[simp] theorem tickStep_seStopReq (s : State) : (tickStep s).seStopReq = s.seStopReq := rfl
@[simp] theorem tickStep_seDone (s : State) : (tickStep s).seDone = s.seDone := rfl
@[simp] theorem tickStep_seAckstat (s : State) : (tickStep s).seAckstat = s.seAckstat := rfl
@[simp] theorem tickStep_seTxbuf (s : State) : (tickStep s).seTxbuf = s.seTxbuf := rfl
@[simp] theorem tickStep_seTxPend (s : State) : (tickStep s).seTxPend = s.seTxPend := rfl
@[simp] theorem tickStep_bph (s : State) : (tickStep s).bph = s.bph := rfl
@[simp] theorem tickStep_wseq (s : State) : (tickStep s).wseq = s.wseq := rfl
@[simp] theorem tickStep_busph (s : State) : (tickStep s).busph = s.busph := rfl
@[simp] theorem tickStep_busTrace (s : State) : (tickStep s).busTrace = s.busTrace := rfl

end Sys2Proof.Machine
end

