-- ==== Sys2Proof/Laws/Ops.lean ====
section
/-! SUPPORT. What each shared operation does: the frame as memory, the timer, and the two phases of an operation. -/

namespace Sys2Proof.Machine

/-! The frame -/

theorem Frame.get_set (f : Frame) (i j : Fin 4) (b : Byte) : (f.set i b).get j = if j = i then b else f.get j := by
  revert i j; simp [Fin.forall_fin_succ, Frame.get, Frame.set]

@[simp] theorem Frame.get_set_same (f : Frame) (i : Fin 4) (b : Byte) : (f.set i b).get i = b := by
  simp [Frame.get_set]

theorem Frame.get_set_other (f : Frame) {i j : Fin 4} (b : Byte) (h : j ≠ i) : (f.set i b).get j = f.get j := by
  simp [Frame.get_set, h]

theorem Frame.ext_get {f g : Frame} (h : ∀ i, f.get i = g.get i) : f = g := by
  cases f; cases g
  have h0 := h 0
  have h1 := h 1
  have h2 := h 2
  have h3 := h 3
  simp [Frame.get] at h0 h1 h2 h3
  simp [h0, h1, h2, h3]

/-- Every frame is in the canonical form, so every write keeps it. -/
theorem Frame.cells_wf (f : Frame) : Memory.wf f.cells = true := rfl

/-- Equal memories are equal data. -/
theorem Frame.cells_injective {f g : Frame} (h : f.cells = g.cells) : f = g := by
  cases f; cases g; simpa [Frame.cells] using h

/-- A cell list in canonical form is some frame's. -/
theorem Memory.wf_cells {m : List Host.Cell} (h : Memory.wf m = true) : ∃ f : Frame, f.cells = m := by
  simp only [Memory.wf, beq_iff_eq] at h
  match m, h with
  | [(_, a), (_, b), (_, c), (_, d)], h =>
    simp at h
    exact ⟨⟨a, b, c, d⟩, by simp [Frame.cells, h]⟩

/-- The bits of a byte with one bit replaced. -/
theorem getLsbD_putBit (v : Byte) (p : Fin 8) (b : Bool) (k : Nat) (hk : k < 8) :
    (putBit v p b).getLsbD k = if k = p.val then b else v.getLsbD k := by
  have h1 : (1#8 <<< p.val).getLsbD k = decide (k = p.val) := by
    revert p; revert k; decide
  cases b
  · rw [putBit, if_neg (by simp), BitVec.getLsbD_and, BitVec.getLsbD_not, h1]
    by_cases hp : k = p.val <;> simp [hp, hk]
  · rw [putBit, if_pos rfl, BitVec.getLsbD_or, h1]
    by_cases hp : k = p.val <;> simp [hp]

/-! The timer -/

theorem countTick_lt (w count : Nat) (h : count < 2 ^ w) : (countTick w count).1 < 2 ^ w := by
  unfold countTick; split
  · exact Nat.two_pow_pos w
  · simp; omega

theorem tmrTick_count_lt (s : State) (h : s.tmrCnt < 2 ^ s.launch.tmrWidth) :
    (tmrTick s).tmrCnt < 2 ^ s.launch.tmrWidth := by
  unfold tmrTick; split
  · exact countTick_lt _ _ h
  · exact h

/-- No read returns a value of more bits than the timer has (R259). -/
theorem tmrRead_lt (s : State) (h : s.tmrCnt < 2 ^ s.launch.tmrWidth) : tmrRead s < 2 ^ s.launch.tmrWidth := by
  unfold tmrRead; split
  · exact Nat.mod_lt _ (Nat.two_pow_pos _)
  · exact h

/-! The phases of an operation -/

/-- Everything an operation can do: nothing in a fault, its issue, or its CTRL step. -/
theorem operation_cases {i : Instr} {issue : State → State} {ctrl : State → Result} {s t : State}
    (h : operation i issue ctrl s = .next t) :
    (s.fault.isSome = true ∧ t = s) ∨
    (s.fault = none ∧ s.ready = true ∧ t = issue (latch i s)) ∨
    (s.fault = none ∧ s.ready = false ∧ ctrl s = .next t) := by
  unfold operation at h
  split at h
  · next hf => exact .inl ⟨hf, by simpa using h.symm⟩
  · next hf =>
    have hn : s.fault = none := by simpa using hf
    split at h
    · next hr => exact .inr (.inl ⟨hn, hr, by simpa using h.symm⟩)
    · next hr => exact .inr (.inr ⟨hn, by simpa using hr, h⟩)

theorem operation_issue {i : Instr} {issue : State → State} {ctrl : State → Result} {s : State}
    (hf : s.fault = none) (hr : s.ready = true) : operation i issue ctrl s = .next (issue (latch i s)) := by
  simp [operation, hf, hr]

theorem operation_ctrl {i : Instr} {issue : State → State} {ctrl : State → Result} {s : State}
    (hf : s.fault = none) (hr : s.ready = false) : operation i issue ctrl s = ctrl s := by
  simp [operation, hf, hr]

end Sys2Proof.Machine
end

