-- ==== Sys2Proof/Laws/Exec.lean ====
section
/-! SUPPORT. What the operations do, said once: what no operation ever writes (`OpFrame`), the issue of each, and
CTRL's step of each. -/

namespace Sys2Proof.Machine

/-- What no operation writes, whatever its phase: the launch, its inputs and schedule, the HOST's stream, the time, the
acknowledgment and the bus trace. -/
structure OpFrame (s t : State) : Prop where
  launch : t.launch = s.launch
  ir : t.ir = s.ir
  present : t.present = s.present
  acks : t.acks = s.acks
  sched : t.sched = s.sched
  prog : t.prog = s.prog
  cpc : t.cpc = s.cpc
  client : t.client = s.client
  resReads : t.resReads = s.resReads
  now : t.now = s.now
  ackstat : t.seAckstat = s.seAckstat
  trace : t.busTrace = s.busTrace

theorem OpFrame.refl (s : State) : OpFrame s s := by constructor <;> rfl

/-- The state a primitive's step leads to, whether it ends or not. -/
def Primitive.state : Primitive → State
  | .goesOn s => s
  | .ends s => s

theorem startStep_frame (s : State) : OpFrame s (startStep s).state := by
  unfold startStep startIssue startWait
  repeat' split
  all_goals constructor <;> simp [Primitive.state]

theorem stopStep_frame (s : State) : OpFrame s (stopStep s).state := by
  unfold stopStep stopIssue stopWait
  repeat' split
  all_goals constructor <;> simp [Primitive.state]

theorem sendStep_frame (b : Byte) (s : State) : OpFrame s (sendStep b s).state := by
  unfold sendStep sendIssue sendWait
  repeat' split
  all_goals constructor <;> simp [Primitive.state]

theorem Primitive.completes_frame {s : State} {p : Primitive} (h : OpFrame s p.state) : OpFrame s p.completes := by
  cases p with
  | goesOn t => exact h
  | ends t => constructor <;> simp [Primitive.completes] <;> first | exact h.1 | exact h.2 | exact h.3 | exact h.4 | exact h.5 | exact h.6 | exact h.7 | exact h.8 | exact h.9 | exact h.10 | exact h.11 | exact h.12

theorem writePrimitive_frame (a c d : Byte) (s : State) : OpFrame s (writePrimitive a c d s).state := by
  unfold writePrimitive
  split
  · exact startStep_frame s
  · exact sendStep_frame a s
  · exact sendStep_frame c s
  · exact sendStep_frame d s
  · exact stopStep_frame s

theorem writeStep_frame (a c d : Byte) (s : State) : OpFrame s (writeStep a c d s) := by
  have h := writePrimitive_frame a c d s
  unfold writeStep
  split
  · next t ht => simpa [ht, Primitive.state] using h
  · next t ht =>
    rw [ht] at h
    simp only [Primitive.state] at h
    unfold writeAdvance
    split <;> constructor <;> simp <;> first | exact h.1 | exact h.2 | exact h.3 | exact h.4 | exact h.5 | exact h.6 | exact h.7 | exact h.8 | exact h.9 | exact h.10 | exact h.11 | exact h.12

theorem chkackStep_frame (s : State) : OpFrame s (chkackStep s) := by
  unfold chkackStep
  split <;> constructor <;> simp

theorem advanceBit_frame (s : State) : OpFrame s (advanceBit s) := by
  unfold advanceBit
  repeat' split
  all_goals constructor <;> simp

/-- The decoder's steps write none of `OpFrame`. -/
theorem decoderStep_frame {s t : State} (h : decoderStep s = .next t) : OpFrame s t := by
  unfold decoderStep at h
  split at h
  · exact absurd h (by simp)
  all_goals
    injection h with h
    subst h
  · unfold debounceStep; split <;> constructor <;> simp
  · unfold ldrWaitHighStep; split <;> constructor <;> simp
  · unfold ldrMeasureStep; split <;> constructor <;> simp
  · unfold ldrWaitLowStep; repeat' split
    all_goals constructor <;> simp
  · unfold bitSeekStep; split <;> constructor <;> simp
  · unfold bitMeasureStep; split
    · exact .refl s
    · have h := advanceBit_frame (frameWrite s.frameIndex (Fin.rev s.bitIndex) (bitOf (tmrRead (tmrHalt s)))
        (afterTmrRead (tmrHalt s)))
      constructor <;> simp [h.1, h.2, h.3, h.4, h.5, h.6, h.7, h.8, h.9, h.10, h.11, h.12]
  · unfold completeStep; constructor <;> simp

theorem serviceStep_frame {s t : State} (h : serviceStep s = .next t) : OpFrame s t := by
  unfold serviceStep at h
  split at h
  · injection h with h
    subst h
    unfold presenceCheck
    split <;> constructor <;> simp
  · exact decoderStep_frame h

theorem delayStep_frame (n : Nat) (s : State) : OpFrame s (delayStep n s) := by
  unfold delayStep; split <;> constructor <;> simp

theorem frmReadStep_frame {k : Nat} {s t : State} (h : frmReadStep k s = .next t) : OpFrame s t := by
  unfold frmReadStep at h
  split at h
  · injection h with h
    subst h
    constructor <;> simp
  · exact absurd h (by simp)

/-- The issue actions of an operation, beyond `CUR` and `READY` (R66 and each operation's issue paragraph). -/
def issueActions (i : Instr) (s : State) : State :=
  match i with
  | .busStart => busIssue s
  | .busStop => busIssue s
  | .busSend _ => busIssue s
  | .busChkack => s
  | .busWrite _ _ _ => { busIssue s with wseq := .start }
  | .decCheck => s
  | .decFrame => { s with dlyT0 := some s.now, dstate := .debounce }
  | .decService => { s with dstate := .idle }
  | .frmRead _ => s
  | .ldrRead => s
  | .sysDelay _ => { s with dlyT0 := some s.now }

/-- CTRL's step of an operation (R64 and each operation's pseudocode). -/
def ctrlAction (i : Instr) (s : State) : Result :=
  match i with
  | .busStart => .next (startStep s).completes
  | .busStop => .next (stopStep s).completes
  | .busSend d => .next (sendStep d s).completes
  | .busChkack => .next (chkackStep s)
  | .busWrite a c d => .next (writeStep a c d s)
  | .decCheck => .next (complete (setRes (flagByte s.presentNow) s))
  | .decFrame => decoderStep s
  | .decService => serviceStep s
  | .frmRead k => frmReadStep k s
  | .ldrRead => .next (complete (setRes (flagByte s.leaderOk) s))
  | .sysDelay n => .next (delayStep n s)

/-- Every operation has the same shape. -/
theorem exec_eq_operation (i : Instr) (s : State) : exec i s = operation i (issueActions i) (ctrlAction i) s := by
  cases i <;> rfl

theorem exec_issue (i : Instr) {s : State} (hf : s.fault = none) (hr : s.ready = true) :
    exec i s = .next (issueActions i (latch i s)) := by
  rw [exec_eq_operation, operation_issue hf hr]

theorem exec_ctrl (i : Instr) {s : State} (hf : s.fault = none) (hr : s.ready = false) :
    exec i s = ctrlAction i s := by
  rw [exec_eq_operation, operation_ctrl hf hr]

theorem exec_faulted (i : Instr) {s : State} (hf : s.fault.isSome = true) : exec i s = .next s := by
  rw [exec_eq_operation]; simp [operation, hf]

/-- Everything an operation can do. -/
theorem exec_cases {i : Instr} {s t : State} (h : exec i s = .next t) :
    (s.fault.isSome = true ∧ t = s) ∨
    (s.fault = none ∧ s.ready = true ∧ t = issueActions i (latch i s)) ∨
    (s.fault = none ∧ s.ready = false ∧ ctrlAction i s = .next t) :=
  operation_cases (exec_eq_operation i s ▸ h)

theorem issueActions_frame (i : Instr) (s : State) : OpFrame s (issueActions i (latch i s)) := by
  cases i <;> constructor <;> simp [issueActions]

theorem ctrlAction_frame {i : Instr} {s t : State} (h : ctrlAction i s = .next t) : OpFrame s t := by
  cases i with
  | busStart => cases h; exact Primitive.completes_frame (startStep_frame s)
  | busStop => cases h; exact Primitive.completes_frame (stopStep_frame s)
  | busSend d => cases h; exact Primitive.completes_frame (sendStep_frame d s)
  | busChkack => cases h; exact chkackStep_frame s
  | busWrite a c d => cases h; exact writeStep_frame a c d s
  | decCheck => cases h; constructor <;> simp
  | decFrame => exact decoderStep_frame h
  | decService => exact serviceStep_frame h
  | frmRead k => exact frmReadStep_frame h
  | ldrRead => cases h; constructor <;> simp
  | sysDelay n => cases h; exact delayStep_frame n s

/-- No operation writes anything of `OpFrame`. -/
theorem exec_frame {i : Instr} {s t : State} (h : exec i s = .next t) : OpFrame s t := by
  rcases exec_cases h with ⟨-, rfl⟩ | ⟨-, -, rfl⟩ | ⟨-, -, h⟩
  · exact .refl _
  · exact issueActions_frame i s
  · exact ctrlAction_frame h

end Sys2Proof.Machine
end

