-- ==== Sys2Proof/Laws/PerInstr.lean ====
section
/-! SUPPORT. Statements about every operation as syntax, one lemma per constructor. -/

namespace Sys2Proof.Laws.Row

/-- The word of an operation has the opcode that the opcode table gives the operation's mnemonic (R92). -/
def Statement (i : Instr) : Prop :=
  ∃ r ∈ opcodeTable, r.mnemonic = i.mnemonic ∧ Word.opc (encode i) = Word.opc r.value

theorem busStart : Statement .busStart := ⟨⟨"BUS.START", 0x01000000, 0xFFFFFFFF⟩, by decide, rfl, by decide⟩
theorem busStop : Statement .busStop := ⟨⟨"BUS.STOP", 0x02000000, 0xFFFFFFFF⟩, by decide, rfl, by decide⟩
theorem busSend (d : Byte) : Statement (.busSend d) :=
  ⟨⟨"BUS.SEND", 0x03000000, 0xFFFFFF00⟩, by decide, rfl, by
    rw [encode, append_bytes, opc_append]; decide⟩
theorem busChkack : Statement .busChkack := ⟨⟨"BUS.CHKACK", 0x04000000, 0xFFFFFFFF⟩, by decide, rfl, by decide⟩
theorem busWrite (a c d : Byte) : Statement (.busWrite a c d) :=
  ⟨⟨"BUS.WRITE", 0x05000000, 0xFF000000⟩, by decide, rfl, by
    rw [encode, append_bytes, opc_append]; decide⟩
theorem decCheck : Statement .decCheck := ⟨⟨"DEC.CHECK", 0x10000000, 0xFFFFFFFF⟩, by decide, rfl, by decide⟩
theorem decFrame : Statement .decFrame := ⟨⟨"DEC.FRAME", 0x11000000, 0xFFFFFFFF⟩, by decide, rfl, by decide⟩
theorem decService : Statement .decService := ⟨⟨"DEC.SERVICE", 0x12000000, 0xFFFFFFFF⟩, by decide, rfl, by decide⟩
theorem frmRead (i : Nat) : Statement (.frmRead i) :=
  ⟨⟨"FRM.READ", 0x13000000, 0xFFFFFFFC⟩, by decide, rfl, by rw [encode, opc_append]; decide⟩
theorem ldrRead : Statement .ldrRead := ⟨⟨"LDR.READ", 0x14000000, 0xFFFFFFFF⟩, by decide, rfl, by decide⟩
theorem sysDelay (n : Nat) : Statement (.sysDelay n) :=
  ⟨⟨"SYS.DELAY", 0x20000000, 0xFF000000⟩, by decide, rfl, by rw [encode, opc_append]; decide⟩

end Sys2Proof.Laws.Row
end

