-- ==== Sys2Proof/Laws/Step.lean ====
section
/-! SUPPORT. What a step can do, said once: which agent takes it, and what that agent's step is. -/

namespace Sys2Proof.Machine

theorem step_cases {s t : State} (h : step s = .next t) :
    launchRefusal s.launch = none ∧ agentStep (nextMove s) (afterChoice s) = .next t := by
  unfold step at h
  split at h
  · exact absurd h (by simp)
  · next hl => exact ⟨hl, h⟩

theorem step_eq {s : State} (h : launchRefusal s.launch = none) :
    step s = agentStep (nextMove s) (afterChoice s) := by
  unfold step; rw [h]

/-- Everything CTRL's step can do. -/
theorem ctrlStep_cases {s t : State} (h : ctrlStep s = .next t) :
    ∃ w i, s.cur = some w ∧ decode w = .legal i ∧ exec i s = .next t := by
  unfold ctrlStep at h
  split at h
  · next i hi =>
    cases hc : s.cur with
    | none => simp [hc] at hi
    | some w => exact ⟨w, i, rfl, by simpa [hc] using hi, h⟩
  · exact absurd h (by simp)

theorem ctrlStep_eq {s : State} {w : Word} {i : Instr} (hc : s.cur = some w) (hd : decode w = .legal i) :
    ctrlStep s = exec i s := by
  simp [ctrlStep, hc, hd]

/-- Everything the HOST's step can do: an illegal word, the issue of a legal one, or its algorithm's read. -/
theorem hostStep_cases {s t : State} (h : hostStep s = .next t) :
    (∃ w why, s.prog[s.cpc]? = some w ∧ decode w = .illegal why ∧ t = raise .illegal w s) ∨
    (∃ w i, s.prog[s.cpc]? = some w ∧ decode w = .legal i ∧ exec i { s with cpc := s.cpc + 1 } = .next t) ∨
    (s.prog[s.cpc]? = none ∧ t = clientStep s) := by
  unfold hostStep at h
  split at h
  · next w hw =>
    unfold issueWord at h
    split at h
    · next why hd => exact .inl ⟨w, why, hw, hd, by simpa using h.symm⟩
    · next i hd => exact .inr (.inl ⟨w, i, hw, hd, h⟩)
  · next hw => exact .inr (.inr ⟨hw, by simpa using h.symm⟩)

/-- Everything an agent's step can do. -/
theorem agentStep_cases {m : Move} {s t : State} (h : agentStep m s = .next t) :
    (m = .tick ∧ t = tickStep s) ∨
    (m = .engine ∧ t = engineStep s) ∨
    (m = .ctrl ∧ s.ready = false ∧ s.fault = none ∧ ctrlStep s = .next t) ∨
    (m = .host ∧ s.ready = true ∧ s.fault = none ∧ hostStep s = .next t) ∨
    (m = .hostRead ∧ s.ready = true ∧ s.fault = none ∧ t = hostReadStep s) ∨
    ((m = .ctrl ∧ ctrlEnabled s = false ∨ (m = .host ∨ m = .hostRead) ∧ hostEnabled s = false) ∧ t = s) := by
  cases m with
  | tick => exact .inl ⟨rfl, by simpa [agentStep] using h.symm⟩
  | engine => exact .inr (.inl ⟨rfl, by simpa [agentStep] using h.symm⟩)
  | ctrl =>
    cases he : ctrlEnabled s with
    | true =>
      have h1 : s.ready = false ∧ s.fault = none := by simpa [ctrlEnabled] using he
      exact .inr (.inr (.inl ⟨rfl, h1.1, h1.2, by simpa [agentStep, he] using h⟩))
    | false =>
      exact .inr (.inr (.inr (.inr (.inr ⟨.inl ⟨rfl, rfl⟩, by simpa [agentStep, he] using h.symm⟩))))
  | host =>
    cases he : hostEnabled s with
    | true =>
      have h1 : s.ready = true ∧ s.fault = none := by simpa [hostEnabled] using he
      exact .inr (.inr (.inr (.inl ⟨rfl, h1.1, h1.2, by simpa [agentStep, he] using h⟩)))
    | false =>
      exact .inr (.inr (.inr (.inr (.inr ⟨.inr ⟨.inl rfl, rfl⟩, by simpa [agentStep, he] using h.symm⟩))))
  | hostRead =>
    cases he : hostEnabled s with
    | true =>
      have h1 : s.ready = true ∧ s.fault = none := by simpa [hostEnabled] using he
      exact .inr (.inr (.inr (.inr (.inl ⟨rfl, h1.1, h1.2, by simpa [agentStep, he] using h.symm⟩))))
    | false =>
      exact .inr (.inr (.inr (.inr (.inr ⟨.inr ⟨.inr rfl, rfl⟩, by simpa [agentStep, he] using h.symm⟩))))

/-- What the ENGINE's step never writes: everything but its own bits, the trace, and the draws it uses. -/
structure EngineFrame (s t : State) : Prop where
  launch : t.launch = s.launch
  ir : t.ir = s.ir
  present : t.present = s.present
  sched : t.sched = s.sched
  prog : t.prog = s.prog
  cpc : t.cpc = s.cpc
  client : t.client = s.client
  resReads : t.resReads = s.resReads
  now : t.now = s.now
  ready : t.ready = s.ready
  cur : t.cur = s.cur
  res : t.res = s.res
  fault : t.fault = s.fault
  dstate : t.dstate = s.dstate
  fidx : t.fidx = s.fidx
  bidx : t.bidx = s.bidx
  leaderOk : t.leaderOk = s.leaderOk
  frame : t.frame = s.frame
  dlyT0 : t.dlyT0 = s.dlyT0
  ind : t.ind = s.ind
  tmrCnt : t.tmrCnt = s.tmrCnt
  tmrOn : t.tmrOn = s.tmrOn
  tmrOvf : t.tmrOvf = s.tmrOvf
  txbuf : t.seTxbuf = s.seTxbuf
  bph : t.bph = s.bph
  wseq : t.wseq = s.wseq
  busph : t.busph = s.busph

theorem engineStep_frame (s : State) : EngineFrame s (engineStep s) := by
  unfold engineStep
  repeat' split
  all_goals constructor <;> simp

/-- The steps of the HOST's algorithm and its reads of RES write only `FAULT` and the HOST's own stream and log. -/
structure HostFrame (s t : State) : Prop where
  launch : t.launch = s.launch
  ir : t.ir = s.ir
  present : t.present = s.present
  sched : t.sched = s.sched
  cpc : t.cpc = s.cpc
  prog : s.prog <+: t.prog
  block : { s with prog := t.prog, client := t.client, resReads := t.resReads, fault := t.fault } = t

theorem HostFrame.refl (s : State) : HostFrame s s := ⟨rfl, rfl, rfl, rfl, rfl, List.prefix_rfl, rfl⟩

theorem readRes_of_some {k : Byte → State → State} {s : State} {v : Byte} (h : s.res = some v) :
    readRes k s = k v { s with resReads := s.resReads ++ [v] } := by
  unfold readRes; rw [h]

theorem readRes_of_none {k : Byte → State → State} {s : State} (h : s.res = none) :
    readRes k s = raise .resUndef 0 s := by
  unfold readRes; rw [h]

/-- A read of RES keeps the frame that its continuation keeps. -/
theorem readRes_frame {k : Byte → State → State} (hk : ∀ v t, HostFrame t (k v t)) (s : State) :
    HostFrame s (readRes k s) := by
  unfold readRes
  split
  · exact ⟨rfl, rfl, rfl, rfl, rfl, List.prefix_rfl, rfl⟩
  · next v _ =>
    obtain ⟨h1, h2, h3, h4, h5, h6, h7⟩ := hk v { s with resReads := s.resReads ++ [v] }
    exact ⟨h1, h2, h3, h4, h5, h6, h7⟩

theorem hostReadStep_frame (s : State) : HostFrame s (hostReadStep s) :=
  readRes_frame (fun _ t => .refl t) s

theorem renderByte_frame (i : Fin 4) (forever : Bool) (v : Byte) (s : State) :
    HostFrame s (renderByte i forever v s) :=
  ⟨rfl, rfl, rfl, rfl, rfl, List.prefix_append _ _, rfl⟩

theorem enterRow_frame (rows : List HostRow) (n : Nat) (s : State) : HostFrame s (enterRow rows n s) := by
  unfold enterRow
  split
  · exact ⟨rfl, rfl, rfl, rfl, rfl, List.prefix_rfl, rfl⟩
  · exact ⟨rfl, rfl, rfl, rfl, rfl, List.prefix_append _ _, rfl⟩

theorem tableStep_frame (rows : List HostRow) (next : HostNext) (s : State) :
    HostFrame s (tableStep rows next s) := by
  cases next with
  | finish => exact ⟨rfl, rfl, rfl, rfl, rfl, List.prefix_rfl, rfl⟩
  | goto n => exact enterRow_frame rows n s
  | onRes cases otherwise => exact readRes_frame (fun v => enterRow_frame rows (selectRow cases otherwise v)) s

theorem unlistedStep_frame (a : HostAction) (s : State) : HostFrame s (unlistedStep a s) := by
  cases a with
  | issue w => exact ⟨rfl, rfl, rfl, rfl, rfl, List.prefix_append _ _, rfl⟩
  | read => exact hostReadStep_frame s
  | finish => exact .refl s

theorem clientStep_frame (s : State) : HostFrame s (clientStep s) := by
  unfold clientStep
  split
  · exact .refl s
  · next i f _ => exact readRes_frame (renderByte_frame i f) s
  · exact tableStep_frame _ _ s
  · exact unlistedStep_frame _ s

end Sys2Proof.Machine
end

