-- ==== Sys2Proof/Tests/Slice0.lean ====
section
/-! SUPPORT. Tests: words and results written out from the spec, the well-formedness smoke test, and for every statement
of the certificate with hypotheses a state that meets them. -/

namespace Sys2Proof.Machine.Tests

open Sys2Proof Sys2Proof.Machine

/-! ## Small states -/

/-- The launch of 95_test_vectors.md with P6's example values. -/
def launch : Launch :=
  { Launch.default with
    ovfMode := .wrap, ccChar := 0x40, locBase := 0x80, locStride := 0x40, cmdClear := 0x01
    initSeq := [.cmd 0x38, .delay 400, .cmd 0x0C] }

/-- At rest after reset, with the draws at 0 and the lines held at 0 and 1. -/
def rest : State :=
  { State.reset with
    launch := launch, frame := ⟨0x12, 0x34, 0x56, 0x78⟩, leaderOk := true, tmrCnt := 0
    ir := ⟨[], some false⟩, present := ⟨[], some true⟩ }

/-- An operation in progress. -/
def busy (i : Instr) : State := { rest with cur := some (encode i), ready := false }

/-- The next state, if there is one. -/
def nextOf : Result → Option State
  | .next s => some s
  | .fault _ => none
  | .refused _ => none

/-- `k` steps, or none past a stop. -/
def after : Nat → State → Option State
  | 0, s => some s
  | k + 1, s => (nextOf (step s)).bind (after k)

/-- `s` with its next steps listed. -/
def sched (ms : List Move) (s : State) : State := { s with sched := ms }

theorem next_of {r : Result} {t : State} (h : nextOf r = some t) : r = .next t := by
  cases r <;> simp_all [nextOf]

/-! ## Well-formedness: each check refuses an ill-formed operation (R96, R100) -/

theorem test_wf_index_refused : (Instr.frmRead 4).wf = false := by decide
theorem test_wf_index_accepted : (Instr.frmRead 3).wf = true := by decide
theorem test_wf_delay_refused : (Instr.sysDelay 0x1000000).wf = false := by decide
theorem test_wf_delay_accepted : (Instr.sysDelay 0xFFFFFF).wf = true := by decide

/-! ## Decoding: V10 and R92, the words written out from the encoding tables of 30_encoding.md -/

theorem test_decode_busStart : decode 0b00000001000000000000000000000000#32 = .legal .busStart := by decide
theorem test_decode_busStop : decode 0b00000010000000000000000000000000#32 = .legal .busStop := by decide
theorem test_decode_busSend : decode 0b00000011000000000000000010100101#32 = .legal (.busSend 0xA5) := by decide
theorem test_decode_busChkack : decode 0b00000100000000000000000000000000#32 = .legal .busChkack := by decide
theorem test_decode_busWrite :
    decode 0b00000101000100100011010001010110#32 = .legal (.busWrite 0x12 0x34 0x56) := by decide
theorem test_decode_decCheck : decode 0b00010000000000000000000000000000#32 = .legal .decCheck := by decide
theorem test_decode_decFrame : decode 0b00010001000000000000000000000000#32 = .legal .decFrame := by decide
theorem test_decode_decService : decode 0b00010010000000000000000000000000#32 = .legal .decService := by decide
theorem test_decode_frmRead : decode 0b00010011000000000000000000000010#32 = .legal (.frmRead 2) := by decide
theorem test_decode_ldrRead : decode 0b00010100000000000000000000000000#32 = .legal .ldrRead := by decide
theorem test_decode_sysDelay :
    decode 0b00100000100000000000000000000101#32 = .legal (.sysDelay 0x800005) := by decide
/-- The illegal words of V10. -/
theorem test_decode_illegal :
    decode 0x00000000 = .illegal .unassignedOpcode ∧ decode 0x01000001 = .illegal .requiredZero ∧
    decode 0x03000100 = .illegal .requiredZero ∧ decode 0x06000000 = .illegal .unassignedOpcode ∧
    decode 0x13000004 = .illegal .requiredZero ∧ decode 0x13800000 = .illegal .requiredZero ∧
    decode 0x21000000 = .illegal .unassignedOpcode ∧ decode 0xFF000000 = .illegal .unassignedOpcode := by decide
theorem test_encode_busWrite : encode (.busWrite 0x7C 0x00 0x01) = 0x057C0001 := by decide
theorem test_encode_sysDelay : encode (.sysDelay 16777215) = 0x20FFFFFF := by decide
theorem test_decodeTableWord : decodeTableWord 32 0x13000003 = some (.frmRead 3) := by decide

/-! ## The first step after reset -/

/-- A word placed at reset is the operation the next step starts. -/
theorem test_fetch_first :
    (nextOf (step (State.reset.withFetchWord 32 0x057C0001))).map (fun s => (s.cur, s.ready, s.cpc)) =
      some (some 0x057C0001, false, 1) := by decide
/-- V10: an illegal word raises `F_ILLEGAL` with itself; `READY`, `CUR` and `CPC` stay. -/
theorem test_fetch_illegal :
    (nextOf (step (State.reset.withFetchWord 32 0x13800000))).map (fun s => (s.fault, s.cur, s.ready, s.cpc)) =
      some (some ⟨.illegal, 0x13800000⟩, none, true, 0) := by decide

/-! ## One step of each operation -/

/-- V12: `BUS.START` while a transaction is open. -/
theorem test_busStart_open :
    (nextOf (exec .busStart { busy .busStart with busph := .active })).map (fun s => (s.fault, s.ready, s.seStartReq)) =
      some (some ⟨.busNotIdle, 0x01000000⟩, false, false) := by decide
/-- V12: the end of `BUS.START`. -/
theorem test_busStart_ends :
    (nextOf (exec .busStart { busy .busStart with bph := .wait, seDone := true })).map
        (fun s => (s.busph, s.seDone, s.ready)) =
      some (.active, false, true) := by decide
/-- V12: `BUS.STOP` at reset. -/
theorem test_busStop_closed :
    (nextOf (exec .busStop (busy .busStop))).map (fun s => (s.fault, s.busTrace)) =
      some (some ⟨.busNotActive, 0x02000000⟩, []) := by decide
/-- R134: the end of `BUS.STOP`. -/
theorem test_busStop_ends :
    (nextOf (exec .busStop { busy .busStop with bph := .wait, seDone := true, busph := .active })).map
        (fun s => (s.busph, s.ready)) =
      some (.idle, true) := by decide
/-- V12: `BUS.SEND 0xA5` at reset. -/
theorem test_busSend_closed :
    (nextOf (exec (.busSend 0xA5) (busy (.busSend 0xA5)))).map (fun s => (s.fault, s.seTxPend, s.seTxbuf)) =
      some (some ⟨.busNotActive, 0x030000A5⟩, false, none) := by decide
/-- V12: a NACK is completed by the ENGINE like an ACK and traced with its level. -/
theorem test_busSend_nack :
    (nextOf (step (sched [.engine]
        { busy (.busSend 0xA5) with
          busph := .active, bph := .wait, seTxPend := true, seTxbuf := some 0xA5, acks := [true] }))).map
        (fun s => (s.busTrace, s.seAckstat, s.seDone)) =
      some ([.byte 0xA5 true], some true, true) := by decide
/-- V14: `BUS.CHKACK` at reset. -/
theorem test_busChkack_undefined :
    (nextOf (exec .busChkack (busy .busChkack))).map (fun s => (s.fault, s.res)) =
      some (some ⟨.ackUndef, 0x04000000⟩, none) := by decide
/-- V14: after a byte with a = 1. -/
theorem test_busChkack_nack :
    (nextOf (exec .busChkack { busy .busChkack with seAckstat := some true })).map (fun s => (s.res, s.ready)) =
      some (some 0x01, true) := by decide
/-- R150: the data stage sends D. -/
theorem test_busWrite_data :
    (nextOf (exec (.busWrite 0x7C 0x00 0x01)
        { busy (.busWrite 0x7C 0x00 0x01) with wseq := .data, busph := .active })).map
        (fun s => (s.seTxbuf, s.seTxPend, s.bph)) =
      some (some 0x01, true, .wait) := by decide
/-- V13: `BUS.WRITE` after `BUS.START`. -/
theorem test_busWrite_open :
    (nextOf (exec (.busWrite 0x7C 0x00 0x01) { busy (.busWrite 0x7C 0x00 0x01) with busph := .active })).map
        (fun s => (s.fault, s.wseq)) =
      some (some ⟨.busNotIdle, 0x057C0001⟩, .start) := by decide
/-- V15: `DEC.CHECK` with `PRESENT = 1`. -/
theorem test_decCheck_present :
    (nextOf (exec .decCheck (busy .decCheck))).map (fun s => (s.res, s.ready, s.dstate)) =
      some (some 0x01, true, .idle) := by decide
/-- V19 row 1: a leader of 0x1E ticks gives `LEADER_OK = 0`. -/
theorem test_decFrame_short_leader :
    (nextOf (exec .decFrame { busy .decFrame with dstate := .ldrMeasure, tmrOn := true, tmrCnt := 0x1E })).map
        (fun s => (s.leaderOk, s.tmrOn, s.dstate)) =
      some (false, false, .ldrWaitLow) := by decide
/-- R192: the first bit of a byte is stored at position 7; 7 ticks are a 1. -/
theorem test_decFrame_first_bit :
    (nextOf (exec .decFrame
        { busy .decFrame with
          dstate := .bitMeasure, tmrOn := true, tmrCnt := 7, fidx := some 1, bidx := some 0, ir := ⟨[], some true⟩ })).map
        (fun s => (s.frame, s.bidx, s.dstate)) =
      some (⟨0x12, 0xB4, 0x56, 0x78⟩, some 1, .bitSeek) := by decide
/-- V15: `DEC.SERVICE` with `PRESENT = 0`. -/
theorem test_decService_absent :
    (nextOf (exec .decService { busy .decService with present := ⟨[], some false⟩ })).map
        (fun s => (s.res, s.dstate, s.ind, s.ready)) =
      some (some 0x00, .idle, false, true) := by decide
/-- V15: `DEC.SERVICE` with `PRESENT = 1` goes on with the decoder. -/
theorem test_decService_present :
    (nextOf (exec .decService (busy .decService))).map (fun s => (s.res, s.dstate, s.ready)) =
      some (some 0x01, .debounce, false) := by decide
/-- V17: `FRM.READ 3` after P3. -/
theorem test_frmRead_last :
    (nextOf (exec (.frmRead 3) (busy (.frmRead 3)))).map (fun s => (s.res, s.ready)) = some (some 0x78, true) := by decide
/-- V17: `LDR.READ` after P3. -/
theorem test_ldrRead :
    (nextOf (exec .ldrRead (busy .ldrRead))).map (fun s => (s.res, s.ready)) = some (some 0x01, true) := by decide
/-- V16: `SYS.DELAY 5` issued at 10 spins at 14. -/
theorem test_sysDelay_runs :
    (nextOf (exec (.sysDelay 5) { busy (.sysDelay 5) with dlyT0 := some 10, now := 14 })).map (·.ready) =
      some false := by decide
/-- V16: it completes at 15. -/
theorem test_sysDelay_ends :
    (nextOf (exec (.sysDelay 5) { busy (.sysDelay 5) with dlyT0 := some 10, now := 15 })).map (·.ready) =
      some true := by decide

/-! ## The decision functions, the timer, the client -/

/-- V7. -/
theorem test_classify :
    classify launch 0x1E = false ∧ classify launch 0x1F = true ∧
    classify launch.bounded 0x27 = true ∧ classify launch.bounded 0x28 = false ∧
    launchRefusal launch.bounded = none := by decide
/-- V9. -/
theorem test_bitOf : [0, 1, 3, 4, 5, 7, 0x80, 0xFF].map bitOf =
    [false, false, false, true, true, true, true, true] := by decide
/-- V11: the tick that passes 255. -/
theorem test_tick_overflow :
    (nextOf (step (sched [.tick] { rest with tmrOn := true, tmrCnt := 255 }))).map
        (fun s => (s.tmrCnt, s.tmrOvf, s.now)) =
      some (0, true, 1) := by decide
/-- V8. -/
theorem test_hexDigit : (List.range 16).map (fun n => hexDigit (BitVec.ofNat 4 n)) =
    [0x30, 0x31, 0x32, 0x33, 0x34, 0x35, 0x36, 0x37, 0x38, 0x39, 0x41, 0x42, 0x43, 0x44, 0x45, 0x46] := by decide
/-- V18: `LCD_LOCATE 5, 2` sends 0xC4, `LCD_LOCATE 1, 4` sends 0x40, `LCD_LOCATE 0, 1` sends b − 1. -/
theorem test_locate :
    locateAddress launch 5 2 = 0xC4 ∧ locateAddress launch 1 4 = 0x40 ∧ locateAddress launch 0 1 = 0x7F := by decide
/-- P6: the words for the first byte, 0x12. -/
theorem test_render_first :
    (afterByteRead launch 0 false 0x12).map encode =
      [0x057C0080, 0x20000004, 0x057C4031, 0x057C0081, 0x20000004, 0x057C4032, 0x13000001] := by decide
/-- V22: the HOST reads RES at reset. -/
theorem test_read_undefined :
    (nextOf (step (sched [.hostRead] rest))).map (fun s => (s.fault, s.ready)) =
      some (some ⟨.resUndef, 0⟩, true) := by decide
/-- R10, R252: a launch with a timer of 5 bits is refused. -/
theorem test_launch_refused : launchRefusal { launch with tmrWidth := 5 } = some .launchParameters := by decide

/-! ## Witnesses: for each statement of the certificate with hypotheses, states and operands that meet them -/

theorem next_of_map {α : Type} {r : Result} {f : State → α} {v : α} (h : (nextOf r).map f = some v) :
    ∃ t, r = .next t ∧ f t = v := by
  cases r with
  | next t => exact ⟨t, rfl, by simpa [nextOf] using h⟩
  | fault _ => simp [nextOf] at h
  | refused _ => simp [nextOf] at h

theorem witness_EncodedOperationsDecodeBack :
    (Instr.frmRead 3).wf = true ∧ (Instr.frmRead 0).wf = true ∧ (Instr.sysDelay 0xFFFFFF).wf = true ∧
    (Instr.busWrite 0xFF 0 0x80).wf = true := by decide

theorem witness_LegalWordsEncodeBack : decode 0x05FFFFFF = .legal (.busWrite 0xFF 0xFF 0xFF) := by decide

/-- One word for each clause, the last one with an opcode of no row; and one that matches a row. -/
theorem witness_DecodeFollowsTheOpcodeTable :
    ([0x01000000, 0x02000000, 0x03000000, 0x04000000, 0x05FFFFFF, 0x10000000, 0x11000000, 0x12000000, 0x13000004,
      0x14000000, 0x20FFFFFF] : List Word).map (fun w => w.extractLsb' 24 8) =
      [0x01, 0x02, 0x03, 0x04, 0x05, 0x10, 0x11, 0x12, 0x13, 0x14, 0x20] ∧
    (0x06000000 : Word).extractLsb' 24 8 ∉
      ([0x01, 0x02, 0x03, 0x04, 0x05, 0x10, 0x11, 0x12, 0x13, 0x14, 0x20] : List Byte) ∧
    ∃ r ∈ opcodeTable, (0x13000003 : Word) &&& r.mask = r.value := by decide

theorem witness_ResetMeetsTheInvariant : launchRefusal Launch.default = none ∧ launchRefusal launch = none := by decide

theorem reset_inv : Inv State.reset :=
  ⟨by decide, Nat.mod_lt _ (by decide), rfl, rfl, (by intro t h; cases h), by decide,
    fun _ => ⟨⟨rfl, ⟨rfl, rfl, rfl⟩, rfl⟩, rfl⟩, (by intro h; cases h)⟩

theorem rest_inv : Inv rest :=
  ⟨by decide, by decide, rfl, rfl, (by intro t h; cases h), by decide,
    fun _ => ⟨⟨rfl, ⟨rfl, rfl, rfl⟩, rfl⟩, rfl⟩, (by intro h; cases h)⟩

theorem witness_StepKeepsTheInvariant :
    (Inv State.reset ∧ ∃ t, step State.reset = .next t) ∧
    Inv rest ∧ ∃ t, step (sched [.tick] rest) = .next t :=
  ⟨⟨reset_inv, _, rfl⟩, rest_inv, _, rfl⟩

theorem witness_InvariantStatesNeverStop : Inv State.reset := reset_inv

theorem witness_ReadyMeansAtRest : Reachable State.reset ∧ State.reset.ready = true :=
  ⟨.reset _ _ _ (by decide), rfl⟩

theorem witness_OneRequestAtATime : Reachable State.reset := .reset _ _ _ (by decide)

/-- The first clause, and both ways into the second. -/
theorem witness_CtrlRunsTheCurrentOperation :
    (launchRefusal launch = none ∧ (sched [.ctrl] (busy .ldrRead)).launch = launch ∧
      nextMove (sched [.ctrl] (busy .ldrRead)) = .ctrl ∧ (busy .ldrRead).ready = false ∧ (busy .ldrRead).fault = none ∧
      (busy .ldrRead).cur = some 0x14000000 ∧ decode 0x14000000 = .legal .ldrRead) ∧
    (nextMove (sched [.ctrl] rest) = .ctrl ∧ rest.ready = true) ∧
    (nextMove (sched [.ctrl] (raise .ackUndef 0 (busy .busChkack))) = .ctrl ∧
      (raise .ackUndef 0 (busy .busChkack)).fault ≠ none) := by decide

/-- The HOST with one word to issue. -/
def issuing (w : Word) : State := sched [.host] { rest with prog := [w] }

theorem witness_HostIssuesTheNextWord :
    (launchRefusal (issuing 0x0300007C).launch = none ∧ nextMove (issuing 0x0300007C) = .host ∧
      (issuing 0x0300007C).ready = true ∧ (issuing 0x0300007C).fault = none ∧
      (issuing 0x0300007C).prog[(issuing 0x0300007C).cpc]? = some 0x0300007C ∧
      decode 0x0300007C = .legal (.busSend 0x7C)) ∧
    (nextMove (issuing 0x13000004) = .host ∧ (issuing 0x13000004).ready = true ∧ (issuing 0x13000004).fault = none ∧
      (issuing 0x13000004).prog[(issuing 0x13000004).cpc]? = some 0x13000004 ∧
      decode 0x13000004 = .illegal .requiredZero) ∧
    (nextMove (sched [.host] (busy .decCheck)) = .host ∧ (busy .decCheck).ready = false) ∧
    (nextMove (sched [.host] (raise .illegal 0 rest)) = .host ∧ (raise .illegal 0 rest).fault ≠ none) := by decide

theorem witness_FetchedWordRunsNext :
    launchRefusal State.reset.launch = none ∧ decodeTableWord 32 0x20FFFFFF = some (.sysDelay 16777215) := by decide

theorem witness_EveryOperationIssues : rest.ready = true ∧ rest.fault = none := by decide

/-- A running timer at its maximum and one below it, and a stopped timer. -/
theorem witness_TickAdvancesTimeAndTimer :
    launchRefusal rest.launch = none ∧
    (nextMove (sched [.tick] { rest with tmrOn := true, tmrCnt := 255 }) = .tick ∧ 255 = 2 ^ rest.launch.tmrWidth - 1) ∧
    (nextMove (sched [.tick] { rest with tmrOn := true, tmrCnt := 254 }) = .tick ∧ 254 ≠ 2 ^ rest.launch.tmrWidth - 1) ∧
    (nextMove (sched [.tick] rest) = .tick ∧ rest.tmrOn = false) := by decide

/-- A byte is requested, and the device's next level is listed. -/
def byteRequested : State :=
  { busy (.busSend 0xA5) with busph := .active, bph := .wait, seTxPend := true, seTxbuf := some 0xA5, acks := [true] }

theorem witness_EngineCompletesThePendingRequest :
    launchRefusal rest.launch = none ∧
    (nextMove (sched [.engine] { busy .busStart with bph := .wait, seStartReq := true }) = .engine) ∧
    (nextMove (sched [.engine] { busy .busStop with bph := .wait, seStopReq := true }) = .engine ∧
      (busy .busStop).seStartReq = false) ∧
    (nextMove (sched [.engine] byteRequested) = .engine ∧ byteRequested.seStartReq = false ∧
      byteRequested.seStopReq = false ∧ byteRequested.seTxPend = true ∧ byteRequested.seTxbuf = some 0xA5 ∧
      byteRequested.acks = [true]) ∧
    (nextMove (sched [.engine] rest) = .engine ∧ rest.seStartReq = false ∧ rest.seStopReq = false ∧
      rest.seTxPend = false) := by decide

theorem witness_HostReadsTheResult :
    launchRefusal rest.launch = none ∧ nextMove (sched [.hostRead] rest) = .hostRead ∧ rest.ready = true ∧
    rest.fault = none ∧ ({ rest with res := some 0x12 } : State).res = some 0x12 ∧ rest.res = none := by decide

/-- A faulted state with a request pending; each of the three outcomes occurs. -/
theorem witness_FaultIsSticky :
    (raise .illegal 0 byteRequested).fault ≠ none ∧
    (nextOf (step (sched [.ctrl] (raise .illegal 0 byteRequested)))).map (·.busTrace) = some [] ∧
    (nextOf (step (sched [.tick] (raise .illegal 0 byteRequested)))).map (·.now) = some 1 ∧
    (nextOf (step (sched [.engine] (raise .illegal 0 byteRequested)))).map (·.busTrace) =
      some [.byte 0xA5 true] := by decide

/-- A spin and a step that is none, in an operation of each kind. -/
theorem witness_OnlySpinsChangeNothing :
    (busy .busStart).ready = false ∧ (busy .busStart).fault = none ∧
    nextOf (exec .busStart { busy .busStart with bph := .wait }) = some { busy .busStart with bph := .wait } ∧
    (nextOf (exec .busStart (busy .busStart))).map (·.seStartReq) = some true ∧
    nextOf (exec .decFrame { busy .decFrame with dstate := .ldrWaitHigh }) =
      some { busy .decFrame with dstate := .ldrWaitHigh } ∧
    (nextOf (exec .decFrame { busy .decFrame with dstate := .ldrMeasure })).map (·.dstate) = some .ldrWaitLow ∧
    (nextOf (exec .ldrRead (busy .ldrRead))).map (·.ready) = some true := by decide

/-- Both clauses of `ISSUE`, both of `WAIT`. -/
theorem witness_StartPrimitive :
    (busy .busStart).ready = false ∧ (busy .busStart).fault = none ∧ (busy .busStart).bph = .issue ∧
    (busy .busStart).busph = .idle ∧ (busy .busStart).cur = some 0x01000000 ∧
    ({ busy .busStart with busph := .active } : State).busph = .active ∧
    ({ busy .busStart with bph := .wait } : State).seDone = false ∧
    ({ busy .busStart with bph := .wait, seDone := true } : State).seDone = true := by decide

theorem witness_StopPrimitive :
    (busy .busStop).ready = false ∧ (busy .busStop).fault = none ∧ (busy .busStop).bph = .issue ∧
    (busy .busStop).busph = .idle ∧ (busy .busStop).cur = some 0x02000000 ∧
    ({ busy .busStop with busph := .active } : State).busph = .active ∧
    ({ busy .busStop with bph := .wait } : State).seDone = false ∧
    ({ busy .busStop with bph := .wait, seDone := true } : State).seDone = true := by decide

theorem witness_BytePrimitive :
    (busy (.busSend 0xFF)).ready = false ∧ (busy (.busSend 0xFF)).fault = none ∧ (busy (.busSend 0xFF)).bph = .issue ∧
    (busy (.busSend 0xFF)).busph = .idle ∧ (busy (.busSend 0xFF)).cur = some 0x030000FF ∧
    ({ busy (.busSend 0xFF) with busph := .active } : State).busph = .active ∧
    ({ busy (.busSend 0xFF) with bph := .wait } : State).seDone = false ∧
    ({ busy (.busSend 0xFF) with bph := .wait, seDone := true } : State).seDone = true := by decide

theorem witness_CheckAckReadsTheLastLevel :
    (busy .busChkack).ready = false ∧ (busy .busChkack).fault = none ∧ (busy .busChkack).seAckstat = none ∧
    (busy .busChkack).cur = some 0x04000000 ∧
    ({ busy .busChkack with seAckstat := some false } : State).seAckstat = some false ∧
    ({ busy .busChkack with seAckstat := some true } : State).seAckstat = some true := by decide

/-- A write in each stage; the request clause and the end clause of each. -/
theorem witness_WriteTransactionStages :
    (busy (.busWrite 1 2 3)).ready = false ∧ (busy (.busWrite 1 2 3)).fault = none ∧
    (busy (.busWrite 1 2 3)).cur = some 0x05010203 ∧
    (∀ q ∈ [WriteStage.start, .address, .control, .data, .stop],
      ({ busy (.busWrite 1 2 3) with wseq := q, busph := .active } : State).bph = .issue ∧
      ({ busy (.busWrite 1 2 3) with wseq := q, busph := .active, bph := .wait, seDone := true } : State).wseq = q) ∧
    (busy (.busWrite 1 2 3)).busph = .idle := by decide

/-- A `BUS.WRITE` just issued at rest, with a device that answers 0, 1, 0. -/
def writing : State := { busy (.busWrite 0x7C 0x00 0x01) with acks := [false, true, false] }

/-- The states of a run in which `READY = 0` before each step. -/
def busyAfter : Nat → State → Option State
  | 0, s => some s
  | k + 1, s => if s.ready then none else (nextOf (step s)).bind (busyAfter k)

theorem busyRun_front {s t u : State} (hb : s.ready = false) (hs : step s = .next t) (h : BusyRun t u) :
    BusyRun s u := by
  induction h with
  | here => exact .step (.here s) hb hs
  | step _ hb' hs' ih => exact .step ih hb' hs'

theorem busyRun_of {k : Nat} : ∀ {s t : State}, busyAfter k s = some t → BusyRun s t := by
  induction k with
  | zero => intro s t h; cases h; exact .here s
  | succ k ih =>
    intro s t h
    unfold busyAfter at h
    split at h
    · cases h
    · next hr =>
      cases hn : nextOf (step s) with
      | none => simp [hn] at h
      | some u => exact busyRun_front (by simpa using hr) (next_of hn) (ih (by simpa [hn] using h))

theorem writing_completes : ((busyAfter 15 writing).map (·.ready)) = some true := by decide

theorem witness_CompletedWriteEmitsFiveEvents :
    (writing.ready = false ∧ writing.fault = none ∧ writing.cur = some (encode (.busWrite 0x7C 0x00 0x01)) ∧
      writing.bph = .issue ∧ writing.wseq = .start ∧ writing.busph = .idle) ∧ EngineQuiet writing ∧
    ∃ t, BusyRun writing t ∧ t.ready = true := by
  refine ⟨by decide, ⟨⟨rfl, rfl, rfl⟩, rfl⟩, ?_⟩
  have h := writing_completes
  cases hb : busyAfter 15 writing with
  | none => simp [hb] at h
  | some t => exact ⟨t, busyRun_of hb, by simpa [hb] using h⟩

theorem witness_WriteCompletesPromptly :
    launchRefusal writing.launch = none ∧ PromptRun writing ∧ writing.launch.stall = false ∧ writing.ready = false ∧
    writing.fault = none ∧ writing.cur = some (encode (.busWrite 0x7C 0x00 0x01)) ∧ writing.bph = .issue ∧
    writing.wseq = .start ∧ writing.busph = .idle ∧ EngineQuiet writing ∧
    writing.acks = false :: true :: false :: [] :=
  ⟨by decide, ⟨rfl, rfl⟩, rfl, rfl, rfl, rfl, rfl, rfl, rfl, ⟨⟨rfl, rfl, rfl⟩, rfl⟩, rfl⟩

/-- A primitive of an operation waits, and two steps are listed, neither the ENGINE's. -/
def waiting (i : Instr) : State := sched [.ctrl, .tick] { busy i with bph := .wait, seStartReq := true }

theorem witness_UncompletedRequestHangsTheBus (i : Instr) (w : Word)
    (h : (i, w) ∈ [(Instr.busStart, (0x01000000 : Word)), (.busStop, 0x02000000), (.busSend 0x7C, 0x0300007C),
      (.busWrite 1 2 3, 0x05010203)]) :
    launchRefusal (waiting i).launch = none ∧ (waiting i).ready = false ∧ (waiting i).fault = none ∧
    (waiting i).cur = some w ∧ decode w = .legal i ∧
    (i = .busStart ∨ i = .busStop ∨ (∃ d, i = .busSend d) ∨ ∃ a c d, i = .busWrite a c d) ∧
    (waiting i).bph = .wait ∧ (waiting i).seDone = false ∧
    ∀ j u, j < 1 → runFor j (waiting i) = .next u → nextMove u ≠ .engine := by
  have hl : launchRefusal launch = none := by decide
  have first : ∀ j u, j < 1 → runFor j (waiting i) = .next u → nextMove u ≠ .engine := by
    intro j u hj hu
    obtain rfl : j = 0 := by omega
    cases hu
    exact fun h => by cases h
  simp only [List.mem_cons, Prod.mk.injEq, List.not_mem_nil, or_false] at h
  rcases h with ⟨rfl, rfl⟩ | ⟨rfl, rfl⟩ | ⟨rfl, rfl⟩ | ⟨rfl, rfl⟩
  · exact ⟨hl, rfl, rfl, rfl, by decide, .inl rfl, rfl, rfl, first⟩
  · exact ⟨hl, rfl, rfl, rfl, by decide, .inr (.inl rfl), rfl, rfl, first⟩
  · exact ⟨hl, rfl, rfl, rfl, by decide, .inr (.inr (.inl ⟨_, rfl⟩)), rfl, rfl, first⟩
  · exact ⟨hl, rfl, rfl, rfl, by decide, .inr (.inr (.inr ⟨_, _, _, rfl⟩)), rfl, rfl, first⟩

theorem witness_AckStatusOnlyFromByteTransfers :
    (nextOf (step (sched [.engine] byteRequested))).map (·.seAckstat) = some (some true) ∧
    (nextOf (step (sched [.tick] byteRequested))).map (·.seAckstat) = some none := by decide

theorem witness_AcknowledgmentIsNeverEnforced :
    ¬ (nextMove (sched [.engine] byteRequested) = .ctrl ∧
      (sched [.engine] byteRequested).cur = some (encode .busChkack)) ∧
    ({ busy .busChkack with seAckstat := some true } : State).ready = false ∧ (busy .busChkack).fault = none := by decide

theorem witness_OnlyTheEngineExtendsTheTrace :
    byteRequested.busTrace = [] ∧
    (nextOf (step (sched [.engine] byteRequested))).map (·.busTrace) = some [.byte 0xA5 true] := by decide

theorem witness_EngineRegisterImages : ({ rest with seAckstat := some true } : State).seAckstat = some true := rfl

theorem witness_TimerPrimitives :
    rest.tmrOvf = false ∧ ({ rest with tmrOvf := true } : State).launch.ovfMode = .wrap ∧
    rest.tmrCnt < 2 ^ rest.launch.tmrWidth := by decide

theorem witness_TimerCountsTheTicks :
    ({ rest with tmrOn := true, tmrCnt := 255 } : State).tmrCnt < 2 ^ rest.launch.tmrWidth ∧ rest.tmrOn = false := by
  decide

theorem witness_ThresholdFunctions : launch.leaderMax = none ∧ 6 ≤ launch.tmrWidth := by decide

/-- A decoder operation in a state of the decoder, at time 3 of a line that holds a level. -/
def inState (d : DState) (level : Bool) : State :=
  { busy .decFrame with
    dstate := d, ir := ⟨[], some level⟩, now := 3, dlyT0 := some 3, fidx := some 3, bidx := some 7
    ind := decoding d, tmrOn := measuring d }

/-- The debounce, begun now, with a delay of `n` ticks. -/
def debouncing (n : Nat) : State := { inState .debounce true with launch := { launch with tDebounce := n } }

/-- Each clause: the debounce before and at its end, then each state on either level. -/
theorem witness_LeaderSteps :
    (∀ d, (inState d true).ready = false ∧ (inState d true).fault = none ∧ (inState d true).dstate = d) ∧
    ((debouncing 1).dstate = .debounce ∧ (debouncing 1).dlyT0 = some 3 ∧
      (debouncing 1).now < 3 + (debouncing 1).launch.tDebounce) ∧
    ((debouncing 0).dlyT0 = some 3 ∧ 3 + (debouncing 0).launch.tDebounce ≤ (debouncing 0).now) ∧
    (inState .ldrWaitHigh false).irAt 3 = false ∧ (inState .ldrWaitHigh true).irAt 3 = true ∧
    (inState .ldrMeasure false).tmrCnt < 2 ^ launch.tmrWidth ∧ (inState .ldrMeasure false).tmrOvf = false ∧
    launch.ovfMode = .wrap := by
  refine ⟨fun d => ⟨rfl, rfl, rfl⟩, ?_⟩
  decide

theorem witness_GateStep :
    (inState .ldrWaitLow false).ready = false ∧ (inState .ldrWaitLow false).fault = none ∧
    (inState .ldrWaitLow false).dstate = .ldrWaitLow ∧ (inState .ldrWaitLow false).irAt 3 = launch.bitMeasLevel ∧
    (inState .ldrWaitLow true).irAt 3 ≠ launch.bitMeasLevel ∧ launch.gate = .gated ∧
    ({ inState .ldrWaitLow true with leaderOk := false } : State).leaderOk = false ∧
    (inState .ldrWaitLow true).leaderOk = true ∧ ({ launch with gate := .ungated } : Launch).gate ≠ .gated := by decide

theorem witness_BitSteps :
    (inState .bitSeek true).irAt 3 ≠ launch.bitMeasLevel ∧ (inState .bitSeek false).irAt 3 = launch.bitMeasLevel ∧
    (inState .bitMeasure false).irAt 3 = launch.bitMeasLevel ∧
    (inState .bitMeasure true).irAt 3 ≠ launch.bitMeasLevel ∧ (inState .bitMeasure true).fidx = some 3 ∧
    (inState .bitMeasure true).bidx = some 7 ∧ (inState .bitMeasure true).tmrCnt < 2 ^ launch.tmrWidth := by decide

theorem witness_FrameComplete :
    (inState .complete true).ready = false ∧ (inState .complete true).fault = none ∧
    (inState .complete true).dstate = .complete := by decide

theorem witness_PresenceChecks :
    (busy .decService).ready = false ∧ (busy .decService).fault = none ∧ (busy .decService).dstate = .idle ∧
    (busy .decService).presentAt 0 = true ∧
    ({ busy .decService with present := ⟨[false], some true⟩ } : State).presentAt 0 = false ∧
    (inState .complete true).dstate ≠ .idle := by decide

theorem witness_FrameAndFlagReads :
    (busy (.frmRead 0)).ready = false ∧ (busy (.frmRead 0)).fault = none ∧ (busy .ldrRead).leaderOk = true ∧
    ({ busy .ldrRead with leaderOk := false } : State).leaderOk = false := by decide

theorem witness_OnlyBitMeasureWritesTheFrame :
    (nextOf (step (sched [.ctrl] (inState .bitMeasure true)))).map (·.frame) = some ⟨0x12, 0x34, 0x56, 0x78⟩ ∧
    (nextOf (step (sched [.ctrl] { inState .bitMeasure true with tmrCnt := 4 }))).map (·.frame) =
      some ⟨0x12, 0x34, 0x56, 0x79⟩ := by decide

theorem launch_accepted : launchRefusal launch = none := by decide

theorem inState_inv (d : DState) (level : Bool) (h : d ≠ .idle) : Inv (inState d level) :=
  ⟨launch_accepted, Nat.two_pow_pos _, rfl, rfl, (by intro t h; cases h; exact Nat.le_refl _), Nat.le_refl _,
    (by intro h; cases h),
    fun _ => ⟨.decFrame, rfl, rfl, ⟨rfl, ⟨rfl, rfl, rfl⟩, rfl⟩, h, fun _ => rfl, fun _ => ⟨rfl, rfl⟩⟩⟩

/-- The same with a waveform. -/
def onLine (d : DState) (l : Line) : State := { inState d true with ir := l }

theorem onLine_inv (d : DState) (l : Line) (h : d ≠ .idle) : Inv (onLine d l) :=
  have i := inState_inv d true h
  ⟨i.launch, i.count, i.timer, i.indicator, i.delay, i.stream, i.rest,
    fun _ => ⟨.decFrame, rfl, rfl, ⟨rfl, ⟨rfl, rfl, rfl⟩, rfl⟩, h, fun _ => rfl, fun _ => ⟨rfl, rfl⟩⟩⟩

/-- A leader of the two ticks 4 and 5, and a bit whose space is the ticks 4 and 5. -/
theorem witness_PromptMeasurementIsExact :
    (Inv (onLine .ldrWaitHigh ⟨[false, false, false, false, true, true], some false⟩) ∧
      PromptRun (onLine .ldrWaitHigh ⟨[false, false, false, false, true, true], some false⟩) ∧
      (onLine .ldrWaitHigh ⟨[false, false, false, false, true, true], some false⟩).cur = some (encode .decFrame) ∧
      (∀ u, 3 ≤ u → u < 4 →
        (onLine .ldrWaitHigh ⟨[false, false, false, false, true, true], some false⟩).irAt u = false) ∧
      (∀ u, 4 ≤ u → u < 6 →
        (onLine .ldrWaitHigh ⟨[false, false, false, false, true, true], some false⟩).irAt u = true) ∧
      (onLine .ldrWaitHigh ⟨[false, false, false, false, true, true], some false⟩).irAt 6 = false) ∧
    (Inv (onLine .bitSeek ⟨[true, true, true, true, false, false], some true⟩) ∧
      PromptRun (onLine .bitSeek ⟨[true, true, true, true, false, false], some true⟩) ∧
      (∀ u, 3 ≤ u → u < 4 →
        (onLine .bitSeek ⟨[true, true, true, true, false, false], some true⟩).irAt u = !launch.bitMeasLevel) ∧
      (∀ u, 4 ≤ u → u < 6 →
        (onLine .bitSeek ⟨[true, true, true, true, false, false], some true⟩).irAt u = launch.bitMeasLevel) ∧
      (onLine .bitSeek ⟨[true, true, true, true, false, false], some true⟩).irAt 6 = !launch.bitMeasLevel ∧
      6 - 4 < 2 ^ launch.tmrWidth) :=
  ⟨⟨onLine_inv _ _ (by decide), ⟨rfl, rfl⟩, rfl, by decide, by decide, by decide⟩,
    ⟨onLine_inv _ _ (by decide), ⟨rfl, rfl⟩, by decide, by decide, by decide, by decide⟩⟩

/-- A check of `Carries`. -/
def carries (s : State) : Nat → List (Nat × Nat) → Bool
  | t, [] => s.irAt t == !s.measLevel
  | t, p :: ps =>
    (List.range p.1).all (fun k => s.irAt (t + k) == !s.measLevel) &&
      (List.range p.2).all (fun k => s.irAt (t + p.1 + k) == s.measLevel) && carries s (t + p.1 + p.2) ps

theorem carries_sound {s : State} : ∀ {ps : List (Nat × Nat)} {t : Nat}, carries s t ps = true → Carries s t ps := by
  intro ps
  induction ps with
  | nil => intro t h; simpa [carries, Carries] using h
  | cons p ps ih =>
    intro t h
    simp only [carries, Bool.and_eq_true, List.all_eq_true, List.mem_range, beq_iff_eq] at h
    refine ⟨fun u h1 h2 => ?_, fun u h1 h2 => ?_, ih h.2⟩
    · have := h.1.1 (u - t) (by omega)
      rwa [show t + (u - t) = u by omega] at this
    · have := h.1.2 (u - (t + p.1)) (by omega)
      rwa [show t + p.1 + (u - (t + p.1)) = u by omega] at this

/-- The extraction of a frame of 32 zeros: marks and spaces of one tick. -/
def extracting : State :=
  { onLine .bitSeek ⟨(List.replicate 32 [true, false]).flatten, some true⟩ with
    now := 0, dlyT0 := some 0, fidx := some 0, bidx := some 0 }

theorem extracting_inv : Inv extracting :=
  ⟨by decide, by decide, rfl, rfl, (by intro t h; cases h; decide), by decide, (by intro h; cases h),
    fun _ => ⟨.decFrame, rfl, rfl, ⟨rfl, ⟨rfl, rfl, rfl⟩, rfl⟩, by decide, fun _ => rfl, fun _ => ⟨rfl, rfl⟩⟩⟩

theorem witness_PromptFrameIsDecoded :
    Inv extracting ∧ PromptRun extracting ∧ extracting.fault = none ∧ extracting.ready = false ∧
    extracting.cur = some (encode .decFrame) ∧ extracting.dstate = .bitSeek ∧ extracting.fidx = some 0 ∧
    extracting.bidx = some 0 ∧ (List.replicate 32 (1, 1)).length = 32 ∧
    (∀ p ∈ List.replicate 32 (1, 1), 1 ≤ p.1 ∧ 1 ≤ p.2 ∧ p.2 < 2 ^ extracting.launch.tmrWidth) ∧
    Carries extracting extracting.now (List.replicate 32 (1, 1)) :=
  ⟨extracting_inv, ⟨rfl, rfl⟩, rfl, rfl, rfl, rfl, rfl, rfl, rfl, by decide, carries_sound (by decide)⟩

/-- The last bit of a frame is still to be extracted. -/
def lastBit : State := sched [.ctrl, .tick, .ctrl] (onLine .bitSeek ⟨[false, false, false, false], some true⟩)

theorem witness_ExtractionForgetsTheOldFrame :
    AgreeButFrame lastBit { lastBit with frame := ⟨0x12, 0x34, 0x56, 0x79⟩ } ∧ lastBit.fault = none ∧
    lastBit.ready = false ∧ lastBit.cur = some (encode .decFrame) ∧ lastBit.dstate = .bitSeek ∧
    lastBit.fidx = some 3 ∧ lastBit.bidx = some 7 ∧
    (∀ (j : Fin 4) (m : Fin 8), 8 * j.val + m.val < 8 * 3 + 7 →
      (lastBit.frame.get j).getLsbD (7 - m.val) =
        ((⟨0x12, 0x34, 0x56, 0x79⟩ : Frame).get j).getLsbD (7 - m.val)) ∧
    (∃ t, runFor 3 lastBit = .next t ∧ t.dstate = .complete) ∧
    ∃ t, runFor 3 { lastBit with frame := ⟨0x12, 0x34, 0x56, 0x79⟩ } = .next t ∧ t.dstate = .complete :=
  ⟨rfl, rfl, rfl, rfl, rfl, rfl, rfl, by decide, next_of_map (by decide), next_of_map (by decide)⟩

/-- Each of the five waits on a line that never reaches the awaited level. -/
theorem witness_DeadLineHangsTheDecoder :
    launchRefusal launch = none ∧
    (∀ d l, (inState d l).ready = false ∧ (inState d l).fault = none ∧ (inState d l).cur = some (encode .decFrame) ∧
      (inState d l).launch = launch ∧ (inState d l).dstate = d ∧ ∀ u, (inState d l).irAt u = l) ∧
    launch.bitMeasLevel = false := by
  refine ⟨by decide, fun d l => ⟨rfl, rfl, rfl, rfl, rfl, fun u => ?_⟩, rfl⟩
  simp [State.irAt, levelAt, inState]

theorem witness_DelayStep :
    (busy (.sysDelay 5)).ready = false ∧ (busy (.sysDelay 5)).fault = none ∧
    ({ busy (.sysDelay 5) with dlyT0 := some 10, now := 14 } : State).dlyT0 = some 10 ∧ 14 < 10 + 5 ∧ 10 + 5 ≤ 15 := by
  decide

/-- A delay of 5 ticks, just issued. -/
def delaying : State := { busy (.sysDelay 5) with dlyT0 := some 0 }

theorem witness_DelayEndsOnTime :
    Inv delaying ∧ PromptRun delaying ∧ delaying.fault = none ∧ delaying.ready = false ∧
    delaying.cur = some (encode (.sysDelay 5)) ∧ 5 < 2 ^ 24 ∧ delaying.dlyT0 = some delaying.now :=
  ⟨⟨by decide, by decide, rfl, rfl, (by intro t h; cases h; decide), by decide, (by intro h; cases h),
      fun _ => ⟨.sysDelay 5, by decide, rfl, ⟨rfl, ⟨rfl, rfl, rfl⟩, rfl⟩, rfl, rfl⟩⟩,
    ⟨rfl, rfl⟩, rfl, rfl, rfl, by decide, rfl⟩

theorem witness_OnlyFiveOperationsWriteTheResult :
    (busy .decCheck).res = none ∧
    (nextOf (step (sched [.ctrl] (busy .decCheck)))).map (·.res) = some (some 0x01) := by decide

/-- A step that keeps `CPC` and one that advances it. -/
theorem witness_CommandCounterAdvancesByOne :
    (nextOf (step (sched [.tick] rest))).map (·.cpc) = some 0 ∧
    (nextOf (step (issuing 0x10000000))).map (·.cpc) = some 1 := by decide

theorem witness_TimeMovesOnlyByTick :
    (nextMove (sched [.tick] rest) = .tick ∧ (nextOf (step (sched [.tick] rest))).map (·.now) = some 1) ∧
    (nextMove (sched [.engine] byteRequested) ≠ .tick ∧
      (nextOf (step (sched [.engine] byteRequested))).map (·.now) = some 0) := by decide

theorem witness_LaunchAndWaveformsAreFixed :
    (nextOf (step (sched [.tick] rest))).map (fun s => (s.ir, s.present)) = some (rest.ir, rest.present) := by decide

theorem witness_HexRendering :
    launch.ccChar ≠ Config.ccCmd ∧ (9 : BitVec 4).toNat ≤ 9 ∧ 10 ≤ (10 : BitVec 4).toNat := by decide

theorem witness_DisplayUsesOnlyWritesAndDelays :
    launchRefusal launch = none ∧ .sysDelay 400 ∈ lcdInit launch ∧ .busWrite 0x7C 0x00 0x01 ∈ lcdClear launch ∧
    .sysDelay 4 ∈ sendCmd launch 0x01 ∧ .busWrite 0x7C 0x40 0x41 ∈ sendChar launch 0x41 ∧
    .busWrite 0x7C 0x00 0xC4 ∈ lcdLocate launch 5 2 ∧ .busWrite 0x7C 0x40 0x33 ∈ lcdHex launch 3 2 0x3A := by decide

/-- The HOST after the read of byte `i`, with no word left. -/
def rendering (i : Fin 4) (forever : Bool) : State :=
  sched [.host] { rest with client := .rendering i forever, res := some 0x12 }

/-- The polling algorithm of a HOST: `DEC.CHECK` until the line is active, then `DEC.FRAME`, and so for ever. -/
def polling (next : HostNext) : State :=
  sched [.host]
    { rest with
      client := .table [⟨[0x10000000], .onRes [(0x00, 0)] 1⟩, ⟨[0x11000000], .goto 0⟩] next
      res := some 0x01 }

/-- R228: the words of a row that the value of RES selects are the next words. -/
theorem test_polling :
    (nextOf (step (polling (.onRes [(0x00, 0)] 1)))).map (fun s => (s.prog, s.resReads)) =
      some ([0x11000000], [0x01]) ∧
    (nextOf (step { polling (.onRes [(0x00, 0)] 1) with res := some 0x00 })).map (fun s => (s.prog, s.resReads)) =
      some ([0x10000000], [0x00]) := by decide

/-- Each kind of algorithm, a row that is there and one that is not (row 2), a RES that holds a value and one that holds none, a run that ends and a state that is an
end. -/
theorem witness_HostAlgorithmsDecideTheNextWords :
    (∀ nx ∈ [HostNext.goto 0, .goto 2, .finish, .onRes [(0x00, 0)] 1, .onRes [(0x00, 0)] 2],
      launchRefusal (polling nx).launch = none ∧ nextMove (polling nx) = .host ∧ (polling nx).ready = true ∧
      (polling nx).fault = none ∧ (polling nx).prog.length ≤ (polling nx).cpc ∧ (polling nx).res = some 0x01) ∧
    ({ polling (.goto 0) with client := .unlisted 0, res := none } : State).client = .unlisted 0 ∧
    EndsAfter 0 (sched [.host] rest) (sched [.host] rest) ∧ nextMove (sched [.host] rest) = .host :=
  ⟨by decide, rfl, ⟨rfl, ⟨rfl, rfl, rfl, rfl⟩, fun _ _ h => absurd h (Nat.not_lt_zero _)⟩, rfl⟩

theorem witness_MainIterationRendersEachByte_firmware :
    (rendering 3 true).client = .rendering 3 true ∧ ∃ t, runFor 1 (rendering 3 true) = .next t :=
  ⟨rfl, (next_of_map (f := fun s => s.cpc) (v := 0) (by decide)).imp fun _ h => h.1⟩

theorem witness_MainIterationRendersEachByte :
    ∀ i ∈ ([0, 3] : List (Fin 4)), ∀ f ∈ [true, false],
      launchRefusal (rendering i f).launch = none ∧ nextMove (rendering i f) = .host ∧ (rendering i f).ready = true ∧
      (rendering i f).fault = none ∧ (rendering i f).prog.length ≤ (rendering i f).cpc ∧
      (rendering i f).client = .rendering i f ∧ (rendering i f).res = some 0x12 := by decide

/-! ## Fair executions -/

/-- The run from `s`. -/
def ran (s : State) : Nat → State
  | 0 => s
  | n + 1 => (nextOf (step (ran s n))).getD (ran s n)

/-- Nothing is left to do: under the prompt schedule only time moves. -/
def resting (s : State) : Bool :=
  (launchRefusal s.launch).isNone && s.sched.isEmpty && s.launch.policy == .prompt && s.ready &&
    !hostMoves s && !engineEnabled s

theorem resting_step {s : State} (h : resting s = true) :
    step s = .next (tickStep s) ∧ resting (tickStep s) = true ∧ nextMove s = .tick ∧ ctrlEnabled s = false ∧
      engineEnabled s = false := by
  have hs : resting (tickStep s) = true := h
  simp only [resting, Bool.and_eq_true, Bool.not_eq_true', Option.isNone_iff_eq_none, List.isEmpty_iff,
    beq_iff_eq] at h
  obtain ⟨⟨⟨⟨⟨h1, h2⟩, h3⟩, h4⟩, h5⟩, h6⟩ := h
  have hc : ctrlEnabled s = false := by simp [ctrlEnabled, h4]
  have hm : nextMove s = .tick := by simp [nextMove, h2, h3, promptMove, h5, ctrlMoves, hc, h6]
  have ha : afterChoice s = s := by
    have hp : (Policy.prompt == Policy.free) = false := rfl
    simp only [afterChoice, h2, h3, hp, List.isEmpty_nil, Bool.and_false, List.tail_nil]
    rw [← h2]; simp
  refine ⟨?_, hs, hm, hc, h6⟩
  simp [step, h1, hm, ha, agentStep]

/-- A run that comes to rest after `k` steps is a fair execution. -/
theorem fair_of_rests (k : Nat) (s : State) (h : ∀ n, n < k → (nextOf (step (ran s n))).isSome = true)
    (hk : resting (ran s k) = true) : Execution (ran s) ∧ Fair (ran s) := by
  have hr : ∀ j, resting (ran s (k + j)) = true := by
    intro j
    induction j with
    | zero => exact hk
    | succ j ih =>
      obtain ⟨e, r, -⟩ := resting_step ih
      have : ran s (k + (j + 1)) = tickStep (ran s (k + j)) := by
        rw [← Nat.add_assoc]; simp only [ran, e, nextOf, Option.getD_some]
      rw [this]; exact r
  have hq : ∀ n, k ≤ n → resting (ran s n) = true := fun n hn => by
    rw [← Nat.add_sub_cancel' hn]; exact hr _
  refine ⟨fun n => ?_, fun n => ⟨max n k, le_max_left _ _, (resting_step (hq _ (le_max_right _ _))).2.2.1⟩,
    fun n hn => ?_, fun _ n hn => ?_⟩
  · have : (nextOf (step (ran s n))).isSome = true := by
      by_cases hn : n < k
      · exact h n hn
      · rw [(resting_step (hq n (by omega))).1]; rfl
    obtain ⟨t, ht⟩ := Option.isSome_iff_exists.mp this
    rw [next_of ht]; simp [ran, ht]
  · have := hn (max n k) (le_max_left _ _)
    rw [(resting_step (hq _ (le_max_right _ _))).2.2.2.1] at this; cases this
  · have := hn (max n k) (le_max_left _ _)
    rw [(resting_step (hq _ (le_max_right _ _))).2.2.2.2] at this; cases this

theorem witness_FairDelaysEnd :
    (Execution (ran delaying) ∧ Fair (ran delaying)) ∧ Inv delaying ∧ delaying.fault = none ∧
    delaying.ready = false ∧ 5 < 2 ^ 24 ∧ delaying.cur = some (encode (.sysDelay 5)) :=
  ⟨fair_of_rests 6 _ (by decide) (by decide), witness_DelayEndsOnTime.1, rfl, rfl, by decide, rfl⟩

/-- A debounce that ends at once, then a mark of one tick: the gate is closed and the frame stays. -/
def shortMark : State :=
  { debouncing 0 with ir := ⟨[false, false, false, true, false], some true⟩ }

theorem witness_FairDelaysEnd_debounce :
    (Execution (ran shortMark) ∧ Fair (ran shortMark)) ∧ Inv shortMark ∧ shortMark.fault = none ∧
    shortMark.ready = false ∧ shortMark.cur = some (encode .decFrame) ∧ shortMark.dstate = .debounce :=
  ⟨fair_of_rests 7 _ (by decide) (by decide),
    ⟨by decide, by decide, rfl, rfl, (by intro t h; cases h; decide), by decide, (by intro h; cases h),
      fun _ => ⟨.decFrame, rfl, rfl, ⟨rfl, ⟨rfl, rfl, rfl⟩, rfl⟩, by decide, fun _ => rfl, fun _ => ⟨rfl, rfl⟩⟩⟩,
    rfl, rfl, rfl, rfl⟩

theorem witness_FairBusOperationsEnd :
    (Execution (ran (busy .busStart)) ∧ Fair (ran (busy .busStart))) ∧ Inv (busy .busStart) ∧
    (busy .busStart).launch.stall = false ∧ (busy .busStart).fault = none ∧ (busy .busStart).ready = false ∧
    (busy .busStart).cur = some (encode .busStart) :=
  ⟨fair_of_rests 3 _ (by decide) (by decide),
    ⟨by decide, by decide, rfl, rfl, (by intro t h; cases h), by decide, (by intro h; cases h),
      fun _ => ⟨.busStart, rfl, rfl, rfl, fun _ => ⟨⟨rfl, rfl, rfl⟩, rfl⟩, (by intro h; cases h)⟩⟩,
    rfl, rfl, rfl, rfl⟩

/-- V15: what is observed at the end of a run of `DEC.CHECK` (R232). -/
theorem test_observe_end :
    (after 2 { rest with prog := [0x10000000] }).map (fun s => (s.cpc, s.ready, s.fault)) = some (1, true, none) ∧
    (after 2 { rest with prog := [0x10000000] }).map (fun s => (s.prog.length, clientMoves s)) = some (1, false) ∧
    (after 2 { rest with prog := [0x10000000] }).map (fun s => (s.observe.res, s.observe.busTrace)) =
      some (some 0x01, []) := by decide

end Sys2Proof.Machine.Tests
end

section
/-! The round trip between an operation and its word (R91, R93, R99, R100). -/

namespace Sys2Proof

/-- The opcode of an operation (R92). -/
def Instr.opcode : Instr → Byte
  | .busStart => 0x01
  | .busStop => 0x02
  | .busSend _ => 0x03
  | .busChkack => 0x04
  | .busWrite _ _ _ => 0x05
  | .decCheck => 0x10
  | .decFrame => 0x11
  | .decService => 0x12
  | .frmRead _ => 0x13
  | .ldrRead => 0x14
  | .sysDelay _ => 0x20

/-- The low 24 bits of an operation's word (R91, R93). -/
def Instr.lowBits : Instr → BitVec 24
  | .busSend d => 0#8 ++ 0#8 ++ d
  | .busWrite a c d => a ++ c ++ d
  | .frmRead i => (BitVec.ofNat 2 i).setWidth 24
  | .sysDelay n => BitVec.ofNat 24 n
  | _ => 0#24

theorem encode_eq_append (i : Instr) : encode i = i.opcode ++ i.lowBits := by
  cases i with
  | busSend d => exact append_bytes _ _ _ d
  | busWrite a c d => exact append_bytes _ a c d
  | _ => rfl

@[simp] theorem opc_encode (i : Instr) : Word.opc (encode i) = i.opcode := by
  rw [encode_eq_append, opc_append]

@[simp] theorem fieldN_encode (i : Instr) : Word.fieldN (encode i) = i.lowBits := by
  rw [encode_eq_append, fieldN_append]

/-- An operation's word is the word with its opcode and its low bits. -/
theorem encode_eq_of_fields {i : Instr} {w : Word} (ho : i.opcode = Word.opc w) (hn : i.lowBits = Word.fieldN w) :
    encode i = w := by
  rw [encode_eq_append, ho, hn, word_eq_opc_append]

/-- A field of the low 24 bits of a word (R91). -/
theorem extractLsb'_eq_fieldN (w : Word) {k m : Nat} (h : k + m ≤ 24) :
    w.extractLsb' k m = (Word.fieldN w).extractLsb' k m := by
  rw [← extract_low_append (Word.opc w) (Word.fieldN w) k m h, word_eq_opc_append]

/-- The three operand bytes of a word's low 24 bits (R91). -/
theorem extract_bytes (a c d : Byte) :
    BitVec.extractLsb' (n := 24) 16 8 (a ++ c ++ d) = a ∧ BitVec.extractLsb' (n := 24) 8 8 (a ++ c ++ d) = c ∧
    BitVec.extractLsb' (n := 24) 0 8 (a ++ c ++ d) = d := by
  refine ⟨?_, ?_, ?_⟩ <;>
  · apply BitVec.eq_of_getLsbD_eq
    intro i hi
    simp +arith [getLsbD_bytes_append, hi]

/-- The fields `A` and `C` together (R91, R94). -/
theorem extract_two_bytes (a c d : Byte) : BitVec.extractLsb' (n := 24) 8 16 (a ++ c ++ d) = a ++ c :=
  BitVec.extractLsb'_append_eq_left

/-- A frame index in the low two bits of an otherwise zero field (R93, R94). -/
theorem setWidth_index_fields (k : BitVec 2) :
    (k.setWidth 24).extractLsb' 2 22 = 0 ∧ (k.setWidth 24).extractLsb' 0 2 = k := by
  revert k; decide

theorem setWidth_of_highZero {n : BitVec 24} (h : n.extractLsb' 2 22 = 0) : (n.extractLsb' 0 2).setWidth 24 = n := by
  apply BitVec.eq_of_getLsbD_eq
  intro i hi
  by_cases h2 : i < 2
  · simp [h2, hi]
  · have hz := congrArg (BitVec.getLsbD · (i - 2)) h
    simp [show i - 2 < 22 by omega, show 2 + (i - 2) = i by omega] at hz
    simp [h2, hz]

theorem decode_encode {i : Instr} (h : i.wf = true) : decode (encode i) = .legal i := by
  unfold decode Word.fieldA Word.fieldC Word.fieldD
  cases i with
  | busSend d =>
    have hz : (Instr.busSend d).lowBits.extractLsb' 8 16 = 0 := extract_two_bytes 0 0 d
    have hd : (Instr.busSend d).lowBits.extractLsb' 0 8 = d := (extract_bytes 0 0 d).2.2
    simp [extractLsb'_eq_fieldN, Instr.opcode, hz, hd]
  | busWrite a c d =>
    obtain ⟨ha, hc, hd⟩ := extract_bytes a c d
    simp [extractLsb'_eq_fieldN, Instr.opcode, Instr.lowBits, ha, hc, hd]
  | frmRead k =>
    obtain ⟨hz, hk⟩ := setWidth_index_fields (BitVec.ofNat 2 k)
    have h4 : k < 4 := by simpa [Instr.wf] using h
    simp [extractLsb'_eq_fieldN, Instr.opcode, Instr.lowBits, hz, hk, Nat.mod_eq_of_lt h4]
  | sysDelay n =>
    have hn : n < 16777216 := by simpa [Instr.wf] using h
    simp [Instr.opcode, Instr.lowBits, Nat.mod_eq_of_lt hn]
  | _ => rfl

/-- A legal word without operand is the word of its operation (R94). -/
theorem encode_of_zeroField {w : Word} {i j : Instr} (h : Word.fieldN w = 0#24 ∧ i = j) (hw : i.wf = true)
    (hl : i.lowBits = 0#24) (ho : Word.opc w = i.opcode) : j.wf = true ∧ encode j = w := by
  obtain ⟨hn, rfl⟩ := h
  exact ⟨hw, encode_eq_of_fields ho.symm (hl.trans hn.symm)⟩

theorem decode_legal {w : Word} {i : Instr} (h : decode w = .legal i) : i.wf = true ∧ encode i = w := by
  unfold decode at h
  obtain ⟨ho, h⟩ | ⟨-, h⟩ := ite_eq_iff.mp h
  · exact encode_of_zeroField ((ifZero_legal _ _ _).mp h) rfl rfl ho
  obtain ⟨ho, h⟩ | ⟨-, h⟩ := ite_eq_iff.mp h
  · exact encode_of_zeroField ((ifZero_legal _ _ _).mp h) rfl rfl ho
  obtain ⟨ho, h⟩ | ⟨-, h⟩ := ite_eq_iff.mp h
  · obtain ⟨hz, rfl⟩ := (ifZero_legal _ _ _).mp h
    have hac : Word.fieldA w ++ Word.fieldC w = 0#8 ++ 0#8 :=
      (BitVec.extractLsb'_append_extractLsb'_eq_extractLsb' rfl).trans hz
    refine ⟨rfl, encode_eq_of_fields ho.symm ?_⟩
    rw [← fieldN_eq_append w, hac, Instr.lowBits]
  obtain ⟨ho, h⟩ | ⟨-, h⟩ := ite_eq_iff.mp h
  · exact encode_of_zeroField ((ifZero_legal _ _ _).mp h) rfl rfl ho
  obtain ⟨ho, h⟩ | ⟨-, h⟩ := ite_eq_iff.mp h
  · obtain rfl := Decoded.legal.inj h
    exact ⟨rfl, encode_eq_of_fields ho.symm (fieldN_eq_append w)⟩
  obtain ⟨ho, h⟩ | ⟨-, h⟩ := ite_eq_iff.mp h
  · exact encode_of_zeroField ((ifZero_legal _ _ _).mp h) rfl rfl ho
  obtain ⟨ho, h⟩ | ⟨-, h⟩ := ite_eq_iff.mp h
  · exact encode_of_zeroField ((ifZero_legal _ _ _).mp h) rfl rfl ho
  obtain ⟨ho, h⟩ | ⟨-, h⟩ := ite_eq_iff.mp h
  · exact encode_of_zeroField ((ifZero_legal _ _ _).mp h) rfl rfl ho
  obtain ⟨ho, h⟩ | ⟨-, h⟩ := ite_eq_iff.mp h
  · obtain ⟨hz, rfl⟩ := (ifZero_legal _ _ _).mp h
    rw [extractLsb'_eq_fieldN w (by decide)] at hz
    rw [extractLsb'_eq_fieldN w (by decide)]
    refine ⟨decide_eq_true (BitVec.isLt _), encode_eq_of_fields ho.symm ?_⟩
    rw [Instr.lowBits, BitVec.ofNat_toNat, BitVec.setWidth_eq, setWidth_of_highZero hz]
  obtain ⟨ho, h⟩ | ⟨-, h⟩ := ite_eq_iff.mp h
  · exact encode_of_zeroField ((ifZero_legal _ _ _).mp h) rfl rfl ho
  obtain ⟨ho, h⟩ | ⟨-, h⟩ := ite_eq_iff.mp h
  · obtain rfl := Decoded.legal.inj h
    exact ⟨decide_eq_true (BitVec.isLt _), encode_eq_of_fields ho.symm (BitVec.ofNat_toNat ..)⟩
  · cases h

theorem encode_inj {i j : Instr} (hi : i.wf = true) (hj : j.wf = true) (h : encode i = encode j) : i = j := by
  have := decode_encode hi
  rw [h, decode_encode hj] at this
  exact (Decoded.legal.inj this).symm

end Sys2Proof
end

section
/-! What CTRL's step of an operation in progress can do, said once: the bus operations run one primitive at a time
(R130 to R135, R150), the decoder operations take one step of the decoder (R185 to R194). -/

namespace Sys2Proof.Machine

/-! ## The bus primitives -/

/-- The step of the primitive that makes request `k` (R131 to R135); `b` is the byte of a byte transfer. -/
def primitiveStep (k : Request) (b : Byte) (s : State) : Primitive :=
  match k with
  | .start => startStep s
  | .stop => stopStep s
  | .byte => sendStep b s

/-- `BUSPH` as the precondition of request `k` asks it to be (R131, R133, R135). -/
def Request.bus : Request → BusOpen
  | .start => .idle
  | .stop => .active
  | .byte => .active

/-- The fault of a request whose precondition does not hold (R131, R133, R135). -/
def Request.fault : Request → FaultCode
  | .start => .busNotIdle
  | .stop => .busNotActive
  | .byte => .busNotActive

/-- Request `k` is made, and its primitive waits (R131, R133, R135). -/
def makeRequest (k : Request) (b : Byte) (s : State) : State :=
  match k with
  | .start => { requestStart s with bph := .wait }
  | .stop => { requestStop s with bph := .wait }
  | .byte => { loadTx b s with bph := .wait }

/-- `BUSPH` after the end of the primitive of request `k` (R132, R134, R135). -/
def busphAfter (k : Request) (s : State) : BusOpen :=
  match k with
  | .start => .active
  | .stop => .idle
  | .byte => s.busph

/-- The completion of request `k` is seen, and its primitive ends (R132, R134, R135). -/
def endRequest (k : Request) (s : State) : State :=
  { clearDone s with busph := busphAfter k s, bph := .issue }

/-- Where a primitive's step leads, when `f` follows the primitive's end in the same step. -/
def Primitive.followedBy (f : State → State) : Primitive → State
  | .goesOn s => s
  | .ends s => f s

/-- Everything the primitive of request `k` can do in one step, when `f` follows its end (R130). -/
inductive BusMove (k : Request) (b : Byte) (f : State → State) (s : State) : State → Prop
  | faults (hp : s.bph = .issue) : BusMove k b f s (raise k.fault s.curWord s)
  | requests (hp : s.bph = .issue) : BusMove k b f s (makeRequest k b s)
  | waits (hp : s.bph = .wait) (hd : s.seDone = false) : BusMove k b f s s
  | ends (hp : s.bph = .wait) (hd : s.seDone = true) : BusMove k b f s (f (endRequest k s))

theorem primitiveStep_issue (k : Request) (b : Byte) {s : State} (hp : s.bph = .issue) :
    primitiveStep k b s =
      .goesOn (if s.busph = k.bus then makeRequest k b s else raise k.fault s.curWord s) := by
  cases k <;> cases hb : s.busph <;>
    simp [primitiveStep, startStep, stopStep, sendStep, startIssue, stopIssue, sendIssue, hp, hb, Request.bus,
      Request.fault, makeRequest]

theorem primitiveStep_wait (k : Request) (b : Byte) {s : State} (hp : s.bph = .wait) :
    primitiveStep k b s = if s.seDone then .ends (endRequest k s) else .goesOn s := by
  cases k <;>
    simp [primitiveStep, startStep, stopStep, sendStep, startWait, stopWait, sendWait, hp, endRequest, busphAfter,
      clearDone]

theorem primitiveStep_move (k : Request) (b : Byte) (f : State → State) (s : State) :
    BusMove k b f s ((primitiveStep k b s).followedBy f) := by
  cases hp : s.bph with
  | issue =>
    rw [primitiveStep_issue k b hp]
    split
    · exact .requests hp
    · exact .faults hp
  | wait =>
    rw [primitiveStep_wait k b hp]
    split
    · next hd => exact .ends hp hd
    · next hd => exact .waits hp (Bool.eq_false_of_not_eq_true hd)

/-! ## The bus operations -/

/-- The request of a stage of `BUS.WRITE a, c, d`, with its byte (R150). -/
def writeRequest (a c d : Byte) : WriteStage → Request × Byte
  | .start => (.start, 0)
  | .address => (.byte, a)
  | .control => (.byte, c)
  | .data => (.byte, d)
  | .stop => (.stop, 0)

/-- The request that a bus operation makes in its present stage, with its byte; no other operation makes one. -/
def busRequest (i : Instr) (s : State) : Option (Request × Byte) :=
  match i with
  | .busStart => some (.start, 0)
  | .busStop => some (.stop, 0)
  | .busSend d => some (.byte, d)
  | .busWrite a c d => some (writeRequest a c d s.wseq)
  | _ => none

/-- What follows the end of a bus operation's primitive (R137, R140, R141, R150). -/
def busAdvance (i : Instr) (s : State) : State :=
  match i with
  | .busWrite _ _ _ => writeAdvance s
  | _ => complete s

theorem Primitive.completes_eq_followedBy (p : Primitive) : p.completes = p.followedBy complete := by
  cases p <;> rfl

theorem writePrimitive_eq_primitiveStep (a c d : Byte) (s : State) :
    writePrimitive a c d s = primitiveStep (writeRequest a c d s.wseq).1 (writeRequest a c d s.wseq).2 s := by
  unfold writePrimitive
  cases s.wseq <;> rfl

theorem writeStep_eq_followedBy (a c d : Byte) (s : State) :
    writeStep a c d s = (writePrimitive a c d s).followedBy writeAdvance := by
  unfold writeStep
  cases writePrimitive a c d s <;> rfl

/-- CTRL's step of a bus operation is that of the primitive of its present stage. -/
theorem ctrlAction_bus {i : Instr} {s : State} {k : Request} {b : Byte} (h : busRequest i s = some (k, b)) :
    ctrlAction i s = .next ((primitiveStep k b s).followedBy (busAdvance i)) := by
  cases i <;> simp only [busRequest, Option.some.injEq, Prod.mk.injEq, reduceCtorEq] at h
  case busWrite a c d =>
    simp only [ctrlAction, writeStep_eq_followedBy, writePrimitive_eq_primitiveStep, h]
    rfl
  all_goals
    obtain ⟨rfl, rfl⟩ := h
    simp only [ctrlAction, Primitive.completes_eq_followedBy]
    rfl

/-- Everything CTRL's step of a bus operation can do. -/
theorem ctrlAction_bus_move {i : Instr} {s t : State} {k : Request} {b : Byte} (hk : busRequest i s = some (k, b))
    (h : ctrlAction i s = .next t) : BusMove k b (busAdvance i) s t := by
  rw [ctrlAction_bus hk] at h
  cases h
  exact primitiveStep_move k b (busAdvance i) s

/-- What a bus operation may write: the driver's own elements, the engine's requests, `READY` and `FAULT`. -/
def BusBlock (s t : State) : Prop :=
  { s with
    ready := t.ready, fault := t.fault, seStartReq := t.seStartReq, seStopReq := t.seStopReq, seDone := t.seDone
    seTxbuf := t.seTxbuf, seTxPend := t.seTxPend, bph := t.bph, wseq := t.wseq, busph := t.busph } = t

theorem BusBlock.cur {s t : State} (h : BusBlock s t) : t.cur = s.cur := by rw [← h]
theorem BusBlock.res {s t : State} (h : BusBlock s t) : t.res = s.res := by rw [← h]
theorem BusBlock.dstate {s t : State} (h : BusBlock s t) : t.dstate = s.dstate := by rw [← h]

@[simp] theorem busAdvance_bph (i : Instr) (s : State) : (busAdvance i s).bph = s.bph := by
  unfold busAdvance writeAdvance
  repeat' split
  all_goals rfl

@[simp] theorem makeRequest_bph (k : Request) (b : Byte) (s : State) : (makeRequest k b s).bph = .wait := by
  cases k <;> rfl

@[simp] theorem endRequest_bph (k : Request) (s : State) : (endRequest k s).bph = .issue := rfl

/-- A bus operation's step is a spin exactly when its primitive waits for a completion (R130). -/
theorem spins_of_busRequest {i : Instr} {s : State} {r : Request × Byte} (hk : busRequest i s = some r) :
    spins i s = busSpins s := by
  cases i with
  | busStart | busStop | busSend | busWrite => rfl
  | _ => cases hk

/-- A bus operation's step leaves the state as it is exactly when it is a spin. -/
theorem BusMove.eq_self_iff {k : Request} {b : Byte} {i : Instr} {s t : State} (h : BusMove k b (busAdvance i) s t)
    (hf : s.fault = none) : t = s ↔ busSpins s = true := by
  have hne (hb : t.bph ≠ s.bph) (hs : busSpins s = false) : t = s ↔ busSpins s = true :=
    iff_of_false (fun e => hb (congrArg State.bph e)) (by simp [hs])
  cases h with
  | faults hp =>
    refine iff_of_false (fun e => ?_) (by simp [busSpins, hp])
    have := congrArg State.fault e
    simp [hf] at this
  | requests hp => exact hne (by simp [hp]) (by simp [busSpins, hp])
  | waits hp hd => simp [busSpins, hp, hd]
  | ends hp hd => exact hne (by simp [hp]) (by simp [busSpins, hd])

/-! ## The decoder -/

/-- Everything the decoder can do in one step (R184 to R194). -/
inductive DecoderMove (s : State) : State → Prop
  | waits (hw : decoderSpins s = true) : DecoderMove s s
  | debounced (hw : decoderSpins s = false) (hd : s.dstate = .debounce) :
    DecoderMove s { s with ind := true, dstate := .ldrWaitHigh }
  | leaderStarts (hw : decoderSpins s = false) (hd : s.dstate = .ldrWaitHigh) :
    DecoderMove s { tmrRun (tmrClear s) with dstate := .ldrMeasure }
  | leaderEnds (hw : decoderSpins s = false) (hd : s.dstate = .ldrMeasure) :
    DecoderMove s { afterTmrRead (tmrHalt s) with
      leaderOk := classify s.launch (tmrRead (tmrHalt s)), dstate := .ldrWaitLow }
  | gated (hw : decoderSpins s = false) (hd : s.dstate = .ldrWaitLow) (hg : gatedOut s = true) :
    DecoderMove s { s with dstate := .complete }
  | extracts (hw : decoderSpins s = false) (hd : s.dstate = .ldrWaitLow) (hg : gatedOut s = false) :
    DecoderMove s { s with fidx := some 0, bidx := some 0, dstate := .bitSeek }
  | bitStarts (hw : decoderSpins s = false) (hd : s.dstate = .bitSeek) :
    DecoderMove s { tmrRun (tmrClear s) with dstate := .bitMeasure }
  | bitEnds (hw : decoderSpins s = false) (hd : s.dstate = .bitMeasure) :
    DecoderMove s (advanceBit
      (frameWrite s.frameIndex (Fin.rev s.bitIndex) (bitOf (tmrRead (tmrHalt s))) (afterTmrRead (tmrHalt s))))
  | completes (hd : s.dstate = .complete) : DecoderMove s (completeStep s)

theorem decoderStep_move {s t : State} (h : decoderStep s = .next t) : DecoderMove s t := by
  unfold decoderStep at h
  split at h
  case h_1 => cases h
  all_goals
    rename_i hd
    injection h with h
    subst h
  · unfold debounceStep
    split
    · next hw => exact .waits (by simpa [decoderSpins, hd] using hw)
    · next hw => exact .debounced (by simpa [decoderSpins, hd] using hw) hd
  · unfold ldrWaitHighStep
    split
    · next hw => exact .waits (by simpa [decoderSpins, hd] using hw)
    · next hw => exact .leaderStarts (by simpa [decoderSpins, hd] using hw) hd
  · unfold ldrMeasureStep
    split
    · next hw => exact .waits (by simpa [decoderSpins, hd] using hw)
    · next hw => exact .leaderEnds (by simpa [decoderSpins, hd] using hw) hd
  · unfold ldrWaitLowStep
    split
    · next hw => exact .waits (by simpa [decoderSpins, hd] using hw)
    · next hw =>
      have hw : decoderSpins s = false := by simpa [decoderSpins, hd] using hw
      split
      · next hg => exact .gated hw hd hg
      · next hg => exact .extracts hw hd (Bool.eq_false_of_not_eq_true hg)
  · unfold bitSeekStep
    split
    · next hw => exact .waits (by simpa [decoderSpins, hd] using hw)
    · next hw => exact .bitStarts (by simpa [decoderSpins, hd] using hw) hd
  · unfold bitMeasureStep
    split
    · next hw => exact .waits (by simpa [decoderSpins, hd] using hw)
    · next hw => exact .bitEnds (by simpa [decoderSpins, hd] using hw) hd
  · exact .completes hd

/-- What the decoder may write (R184 to R194). -/
def DecoderBlock (s t : State) : Prop :=
  { s with
    draws := t.draws, ready := t.ready, dstate := t.dstate, fidx := t.fidx, bidx := t.bidx, leaderOk := t.leaderOk
    frame := t.frame, ind := t.ind, tmrCnt := t.tmrCnt, tmrOn := t.tmrOn, tmrOvf := t.tmrOvf } = t

theorem advanceBit_block (s : State) : DecoderBlock s (advanceBit s) := by
  unfold advanceBit
  repeat' split
  all_goals rfl

theorem DecoderBlock.cur {s t : State} (h : DecoderBlock s t) : t.cur = s.cur := by rw [← h]
theorem DecoderBlock.res {s t : State} (h : DecoderBlock s t) : t.res = s.res := by rw [← h]

/-- The state that a stored bit leaves the decoder in (R192). -/
theorem advanceBit_dstate (s : State) : (advanceBit s).dstate = .bitSeek ∨ (advanceBit s).dstate = .complete := by
  unfold advanceBit
  repeat' split
  all_goals simp

/-- A decoder's step leaves the state as it is exactly when it is a spin. -/
theorem DecoderMove.eq_self_iff {s t : State} (h : DecoderMove s t) : t = s ↔ decoderSpins s = true := by
  have hne (hs : decoderSpins s = false) (hd : t.dstate ≠ s.dstate) : t = s ↔ decoderSpins s = true :=
    iff_of_false (fun e => hd (congrArg State.dstate e)) (by simp [hs])
  cases h with
  | waits hw => simp [hw]
  | bitEnds hw hd =>
    refine hne hw ?_
    obtain h | h := advanceBit_dstate (frameWrite s.frameIndex (Fin.rev s.bitIndex) (bitOf (tmrRead (tmrHalt s)))
      (afterTmrRead (tmrHalt s))) <;> simp [h, hd]
  | completes hd => exact hne (by simp [decoderSpins, hd]) (by simp [completeStep, hd])
  | debounced hw hd => exact hne hw (by simp [hd])
  | leaderStarts hw hd => exact hne hw (by simp [hd])
  | leaderEnds hw hd => exact hne hw (by simp [hd])
  | gated hw hd => exact hne hw (by simp [hd])
  | extracts hw hd => exact hne hw (by simp [hd])
  | bitStarts hw hd => exact hne hw (by simp [hd])

/-! ## Every operation -/

/-- CTRL's step of an operation is one of these (R64): the primitive of a bus operation moves, the decoder moves,
`DEC.SERVICE` finds presence or none, a delay runs on or has elapsed, `BUS.CHKACK` faults before any byte, or an operation
of one step completes with its result. -/
inductive CtrlMove (i : Instr) (s : State) : State → Prop
  | bus {t : State} (k : Request) (b : Byte) (hk : busRequest i s = some (k, b)) (h : BusMove k b (busAdvance i) s t) :
    CtrlMove i s t
  | decoder {t : State} (hi : i = .decFrame ∨ i = .decService) (h : DecoderMove s t) : CtrlMove i s t
  | absent (hi : i = .decService) (hd : s.dstate = .idle) : CtrlMove i s (complete (setRes 0x00 s))
  | present (hi : i = .decService) (hd : s.dstate = .idle) :
    CtrlMove i s { setRes 0x01 s with dlyT0 := some s.now, dstate := .debounce }
  | delays (n : Nat) (hi : i = .sysDelay n) (hn : s.delayRuns n = true) : CtrlMove i s s
  | elapsed (n : Nat) (hi : i = .sysDelay n) (hn : s.delayRuns n = false) : CtrlMove i s (complete s)
  | ackUndef (hi : i = .busChkack) : CtrlMove i s (raise .ackUndef s.curWord s)
  | result (v : Byte) (hi : i = .busChkack ∨ i = .decCheck ∨ (∃ n, i = .frmRead n) ∨ i = .ldrRead) :
    CtrlMove i s (complete (setRes v s))

theorem ctrlAction_move {i : Instr} {s t : State} (h : ctrlAction i s = .next t) : CtrlMove i s t := by
  cases i with
  | busStart => exact .bus _ _ rfl (ctrlAction_bus_move rfl h)
  | busStop => exact .bus _ _ rfl (ctrlAction_bus_move rfl h)
  | busSend d => exact .bus _ _ rfl (ctrlAction_bus_move rfl h)
  | busWrite a c d => exact .bus _ _ rfl (ctrlAction_bus_move rfl h)
  | busChkack =>
    cases h
    unfold chkackStep
    split
    · exact .ackUndef rfl
    · exact .result _ (.inl rfl)
  | decCheck => cases h; exact .result _ (.inr (.inl rfl))
  | decFrame => exact .decoder (.inl rfl) (decoderStep_move h)
  | decService =>
    change serviceStep s = .next t at h
    unfold serviceStep at h
    split at h
    · next hd =>
      cases h
      unfold presenceCheck
      split
      · exact .present rfl hd
      · exact .absent rfl hd
    · exact .decoder (.inr rfl) (decoderStep_move h)
  | frmRead k =>
    change frmReadStep k s = .next t at h
    unfold frmReadStep at h
    split at h
    · cases h; exact .result _ (.inr (.inr (.inl ⟨k, rfl⟩)))
    · cases h
  | ldrRead => cases h; exact .result _ (.inr (.inr (.inr rfl)))
  | sysDelay n =>
    cases h
    unfold delayStep
    split
    · next hn => exact .delays n rfl hn
    · next hn => exact .elapsed n rfl (Bool.eq_false_of_not_eq_true hn)

theorem BusMove.block {k : Request} {b : Byte} {i : Instr} {s t : State} (h : BusMove k b (busAdvance i) s t) :
    BusBlock s t := by
  cases h with
  | faults => rfl
  | requests => cases k <;> rfl
  | waits => rfl
  | ends =>
    unfold busAdvance writeAdvance
    repeat' split
    all_goals rfl

theorem DecoderMove.block {s t : State} (h : DecoderMove s t) : DecoderBlock s t := by
  cases h with
  | bitEnds => exact (advanceBit_block _).symm ▸ rfl
  | _ => rfl

/-- The operation in progress stays the same (R23). -/
theorem CtrlMove.cur {i : Instr} {s t : State} (h : CtrlMove i s t) : t.cur = s.cur := by
  cases h with
  | bus k b hk h => exact h.block.cur
  | decoder hi h => exact h.block.cur
  | _ => rfl

/-- An operation without a result leaves RES as it is (R25). -/
theorem CtrlMove.res {i : Instr} {s t : State} (h : CtrlMove i s t) (ht : t.res ≠ s.res) :
    i = .busChkack ∨ i = .decCheck ∨ i = .decService ∨ (∃ k, i = .frmRead k) ∨ i = .ldrRead := by
  cases h with
  | bus k b hk h => exact absurd h.block.res ht
  | decoder hi h => exact absurd h.block.res ht
  | absent hi => exact .inr (.inr (.inl hi))
  | present hi => exact .inr (.inr (.inl hi))
  | result v hi => tauto
  | _ => exact absurd rfl ht

/-- CTRL's step leaves the state as it is exactly when it is a spin (R63). -/
theorem CtrlMove.eq_self_iff {i : Instr} {s t : State} (h : CtrlMove i s t) (hr : s.ready = false)
    (hf : s.fault = none) : t = s ↔ spins i s = true := by
  have hready (hb : t.ready = true) (hs : spins i s = false) : t = s ↔ spins i s = true :=
    iff_of_false (fun e => by simp [e, hr] at hb) (by simp [hs])
  cases h with
  | bus k b hk h => rw [spins_of_busRequest hk]; exact h.eq_self_iff hf
  | decoder hi h =>
    have hs : spins i s = decoderSpins s := by obtain rfl | rfl := hi <;> rfl
    rw [hs]
    exact h.eq_self_iff
  | absent hi hd => exact hready rfl (by simp [spins, decoderSpins, hi, hd])
  | present hi hd =>
    refine iff_of_false (fun e => ?_) (by simp [spins, decoderSpins, hi, hd])
    have := congrArg State.dstate e
    simp [hd] at this
  | delays n hi hn => simp [spins, hi, hn]
  | elapsed n hi hn => exact hready rfl (by simp [spins, hi, hn])
  | ackUndef hi =>
    refine iff_of_false (fun e => ?_) (by simp [spins, hi])
    have := congrArg State.fault e
    simp [hf] at this
  | result v hi => exact hready rfl (by obtain rfl | rfl | ⟨n, rfl⟩ | rfl := hi <;> rfl)

/-! ## Issue -/

theorem issueActions_latched (i : Instr) (s : State) :
    (issueActions i (latch i s)).cur = some (encode i) ∧ (issueActions i (latch i s)).ready = false := by
  cases i <;> exact ⟨rfl, rfl⟩

theorem issueActions_dlyT0 (i : Instr) (s : State) :
    (issueActions i (latch i s)).dlyT0 = s.dlyT0 ∨ (issueActions i (latch i s)).dlyT0 = some s.now := by
  cases i with
  | decFrame | sysDelay => exact .inr rfl
  | _ => exact .inl rfl

/-! ## Every agent -/

/-- Every step of an agent is one of these (R60): TICK's, the ENGINE's, CTRL's, the HOST's issue of a legal word, another
step of the HOST, or none when the scheduled agent is not enabled. -/
inductive AgentMove (s : State) : Move → State → Prop
  | tick : AgentMove s .tick (tickStep s)
  | engine : AgentMove s .engine (engineStep s)
  | ctrl {t : State} (i : Instr) (hr : s.ready = false) (hf : s.fault = none) (hw : i.wf = true)
    (hc : s.cur = some (encode i)) (h : ctrlAction i s = .next t) : AgentMove s .ctrl t
  | issue (i : Instr) (hr : s.ready = true) (hf : s.fault = none) (hw : i.wf = true)
    (hp : s.prog[s.cpc]? = some (encode i)) :
    AgentMove s .host (issueActions i (latch i { s with cpc := s.cpc + 1 }))
  | host {t : State} (m : Move) (hm : m = .host ∨ m = .hostRead) (hr : s.ready = true) (hf : s.fault = none)
    (h : HostFrame s t) : AgentMove s m t
  | stays (m : Move) (hm : m = .ctrl ∧ ctrlEnabled s = false ∨ (m = .host ∨ m = .hostRead) ∧ hostEnabled s = false) :
    AgentMove s m s

theorem ctrlStep_move {s t : State} (hr : s.ready = false) (hf : s.fault = none) (h : ctrlStep s = .next t) :
    AgentMove s .ctrl t := by
  obtain ⟨w, i, hc, hd, he⟩ := ctrlStep_cases h
  obtain ⟨hw, rfl⟩ := decode_legal hd
  exact .ctrl i hr hf hw hc (exec_ctrl i hf hr ▸ he)

theorem hostStep_move {s t : State} (hr : s.ready = true) (hf : s.fault = none) (h : hostStep s = .next t) :
    AgentMove s .host t := by
  obtain ⟨w, why, -, -, rfl⟩ | ⟨w, i, hp, hd, he⟩ | ⟨-, rfl⟩ := hostStep_cases h
  · exact .host _ (.inl rfl) hr hf ⟨rfl, rfl, rfl, rfl, rfl, List.prefix_rfl, rfl⟩
  · obtain ⟨hw, rfl⟩ := decode_legal hd
    rw [exec_issue i (s := { s with cpc := s.cpc + 1 }) hf hr] at he
    cases he
    exact .issue i hr hf hw hp
  · exact .host _ (.inl rfl) hr hf (clientStep_frame s)

theorem step_move {s t : State} (h : step s = .next t) : AgentMove (afterChoice s) (nextMove s) t := by
  obtain ⟨-, h⟩ := step_cases h
  generalize nextMove s = m at h ⊢
  obtain ⟨rfl, rfl⟩ | ⟨rfl, rfl⟩ | ⟨rfl, hr, hf, hc⟩ | ⟨rfl, hr, hf, hh⟩ | ⟨rfl, hr, hf, rfl⟩ | ⟨hm, rfl⟩ :=
    agentStep_cases h
  · exact .tick
  · exact .engine
  · exact ctrlStep_move hr hf hc
  · exact hostStep_move hr hf hh
  · exact .host _ (.inr rfl) hr hf (hostReadStep_frame _)
  · exact .stays m hm

end Sys2Proof.Machine
end

section
/-! The invariant holds at reset and every step of every agent keeps it, so it holds of every state a run reaches
(R28, R32 to R34, R64, R144, R230). -/

namespace Sys2Proof.Machine

/-! ## Operations in progress -/

theorem BusResting.primitiveOk {s : State} (h : BusResting s) (k : Request) : PrimitiveOk k s :=
  ⟨fun _ => h.2, fun hw => by rw [h.1] at hw; cases hw⟩

/-- A bus operation in progress: the decoder is idle, and the primitive of its stage is where `BPH` says. -/
theorem OperationOk.primitiveOk {i : Instr} {s : State} {k : Request} {b : Byte} (h : OperationOk i s)
    (hk : busRequest i s = some (k, b)) : s.dstate = .idle ∧ PrimitiveOk k s := by
  cases i <;> simp only [busRequest, Option.some.injEq, Prod.mk.injEq, reduceCtorEq] at hk
  case busWrite a c d =>
    obtain ⟨hd, h⟩ := h
    refine ⟨hd, ?_⟩
    cases hw : s.wseq <;> rw [hw] at h hk <;> cases hk
    · exact h
    · exact h.2
    · exact h.2
    · exact h.2
    · exact h.2
  all_goals
    obtain ⟨rfl, -⟩ := hk
    exact h

/-- A bus operation that stays in its stage. -/
theorem OperationOk.of_primitiveOk {i : Instr} {s t : State} {k : Request} {b : Byte} (h : OperationOk i s)
    (hk : busRequest i s = some (k, b)) (hd : t.dstate = s.dstate) (hw : t.wseq = s.wseq) (hb : t.busph = s.busph)
    (hp : PrimitiveOk k t) : OperationOk i t := by
  cases i <;> simp only [busRequest, Option.some.injEq, Prod.mk.injEq, reduceCtorEq] at hk
  case busWrite a c d =>
    obtain ⟨hi, h⟩ := h
    refine ⟨hd.trans hi, ?_⟩
    rw [hw, hb]
    cases hs : s.wseq <;> rw [hs] at h hk <;> cases hk
    · exact hp
    · exact ⟨h.1, hp⟩
    · exact ⟨h.1, hp⟩
    · exact ⟨h.1, hp⟩
    · exact ⟨h.1, hp⟩
  all_goals
    obtain ⟨rfl, -⟩ := hk
    exact ⟨hd.trans h.1, hp⟩

/-- Every other operation leaves the bus driver at rest. -/
theorem OperationOk.busResting {i : Instr} {s : State} (h : OperationOk i s) (hk : busRequest i s = none) :
    BusResting s := by
  cases i with
  | busStart | busStop | busSend | busWrite => cases hk
  | _ => exact h.1

theorem OperationOk.decoderOk {i : Instr} {s : State} (h : OperationOk i s) (hi : i = .decFrame ∨ i = .decService) :
    BusResting s ∧ DecoderOk s := by
  obtain rfl | rfl := hi
  · exact ⟨h.1, h.2.2⟩
  · exact h

/-! ## The engine -/

theorem engineStep_of_noRequest {s : State} (h : NoRequest s) : engineStep s = s := by
  obtain ⟨h1, h2, h3⟩ := h
  simp [engineStep, h1, h2, h3]

theorem Pending.engineStep_answered {k : Request} {s : State} (h : Pending k s) : Answered (engineStep s) := by
  obtain ⟨h1, h2, h3, -⟩ := h
  cases k <;> simp [engineStep, Answered, NoRequest, h1, h2, h3]

theorem PrimitiveOk.engineStep {k : Request} {s : State} (h : PrimitiveOk k s) : PrimitiveOk k (engineStep s) := by
  obtain ⟨hi, hw⟩ := h
  cases hp : s.bph with
  | issue => rw [engineStep_of_noRequest (hi hp).1]; exact ⟨hi, hw⟩
  | wait =>
    obtain h | h := hw hp
    · refine ⟨fun e => ?_, fun _ => .inr h.engineStep_answered⟩
      rw [(engineStep_frame s).bph, hp] at e
      cases e
    · rw [engineStep_of_noRequest h.1]; exact ⟨hi, hw⟩

theorem Inv.engineStep {s : State} (h : Inv s) : Inv (engineStep s) := by
  have f := engineStep_frame s
  cases hr : s.ready with
  | true => rw [engineStep_of_noRequest (h.rest hr).1.2.1]; exact h
  | false =>
    obtain ⟨i, hw, hc, ho⟩ := h.busy hr
    cases hk : busRequest i s with
    | none => rw [engineStep_of_noRequest (ho.busResting hk).2.1]; exact h
    | some r =>
      have hp := (ho.primitiveOk hk).2.engineStep
      refine ⟨?_, ?_, ?_, ?_, ?_, ?_, ?_, fun _ => ⟨i, hw, ?_, ho.of_primitiveOk hk f.dstate f.wseq f.busph hp⟩⟩
      · rw [f.launch]; exact h.launch
      · rw [f.tmrCnt, f.launch]; exact h.count
      · rw [f.tmrOn, f.dstate]; exact h.timer
      · rw [f.ind, f.dstate]; exact h.indicator
      · rw [f.dlyT0, f.now]; exact h.delay
      · rw [f.cpc, f.prog]; exact h.stream
      · rw [f.ready, hr]; exact fun e => nomatch e
      · rw [f.cur]; exact hc

/-! ## Time and the HOST -/

theorem Inv.tickStep {s : State} (h : Inv s) : Inv (tickStep s) :=
  ⟨h.launch, tmrTick_count_lt s h.count, h.timer, h.indicator, fun t ht => Nat.le_succ_of_le (h.delay t ht), h.stream,
    h.rest, h.busy⟩

theorem Inv.afterChoice {s : State} (h : Inv s) : Inv (afterChoice s) :=
  ⟨h.launch, h.count, h.timer, h.indicator, h.delay, h.stream, h.rest, h.busy⟩

theorem Inv.raise {s : State} (h : Inv s) (c : FaultCode) (w : Word) : Inv (raise c w s) :=
  ⟨h.launch, h.count, h.timer, h.indicator, h.delay, h.stream, h.rest, h.busy⟩

theorem Inv.of_hostFrame {s t : State} (h : Inv s) (f : HostFrame s t) : Inv t := by
  have hs : s.cpc ≤ t.prog.length := h.stream.trans f.prog.length_le
  rw [← f.block]
  exact ⟨h.launch, h.count, h.timer, h.indicator, h.delay, hs, h.rest, h.busy⟩

/-- The HOST takes the word at `CPC` (R24). -/
theorem Inv.nextWord {s : State} {w : Word} (h : Inv s) (hw : s.prog[s.cpc]? = some w) :
    Inv { s with cpc := s.cpc + 1 } :=
  ⟨h.launch, h.count, h.timer, h.indicator, h.delay, (List.getElem?_eq_some_iff.mp hw).1, h.rest, h.busy⟩

/-- The issue actions put the operation in its first sub-state (R66). -/
theorem OperationOk.issueActions {s : State} (hb : BusResting s) (hd : s.dstate = .idle) (i : Instr) :
    OperationOk i (issueActions i (latch i s)) := by
  cases i with
  | busStart => exact ⟨hd, fun _ => hb.2, fun e => nomatch e⟩
  | busStop => exact ⟨hd, fun _ => hb.2, fun e => nomatch e⟩
  | busSend d => exact ⟨hd, fun _ => hb.2, fun e => nomatch e⟩
  | busWrite a c d => exact ⟨hd, fun _ => hb.2, fun e => nomatch e⟩
  | decFrame => exact ⟨hb, by simp [Machine.issueActions], by simp [DecoderOk, Machine.issueActions]⟩
  | decService => exact ⟨hb, by simp [DecoderOk, Machine.issueActions]⟩
  | sysDelay n => exact ⟨hb, hd, rfl⟩
  | busChkack => exact ⟨hb, hd⟩
  | decCheck => exact ⟨hb, hd⟩
  | frmRead k => exact ⟨hb, hd⟩
  | ldrRead => exact ⟨hb, hd⟩

/-! ## Issue and CTRL -/

/-- What issue and CTRL's steps keep of the invariant: the timer, the indicator, the delay, and where the operation in progress
stands; no operation writes the rest of it. -/
structure CtrlInv (i : Instr) (s : State) : Prop where
  count : s.tmrCnt < 2 ^ s.launch.tmrWidth
  timer : s.tmrOn = measuring s.dstate
  indicator : s.ind = decoding s.dstate
  delay : ∀ t, s.dlyT0 = some t → t ≤ s.now
  rest : s.ready = true → BusResting s ∧ s.dstate = .idle
  busy : s.ready = false → OperationOk i s

/-- The invariant of an operation in progress. -/
theorem Inv.ctrlInv {i : Instr} {s : State} (h : Inv s) (ho : OperationOk i s) : CtrlInv i s :=
  ⟨h.count, h.timer, h.indicator, h.delay, h.rest, fun _ => ho⟩

theorem CtrlInv.inv {i : Instr} {s t : State} (h : CtrlInv i t) (hs : Inv s) (f : OpFrame s t) (hw : i.wf = true)
    (hc : t.cur = some (encode i)) : Inv t :=
  ⟨f.launch ▸ hs.launch, h.count, h.timer, h.indicator, h.delay, f.cpc ▸ f.prog ▸ hs.stream, h.rest,
    fun hr => ⟨i, hw, hc, h.busy hr⟩⟩

theorem Inv.issueActions {s : State} (h : Inv s) (hr : s.ready = true) {i : Instr} (hw : i.wf = true) :
    Inv (issueActions i (latch i s)) := by
  obtain ⟨hb, hd⟩ := h.rest hr
  obtain ⟨hc, hr'⟩ := issueActions_latched i s
  have htimer : s.tmrOn = false := by rw [h.timer, hd]; rfl
  have hind : s.ind = false := by rw [h.indicator, hd]; rfl
  have hci : CtrlInv i (Machine.issueActions i (latch i s)) := by
    refine ⟨?_, ?_, ?_, fun u hu => ?_, fun e => absurd (hr'.symm.trans e) Bool.false_ne_true,
      fun _ => .issueActions hb hd i⟩
    · cases i <;> exact h.count
    · cases i <;> simp [Machine.issueActions, hd, htimer, measuring]
    · cases i <;> simp [Machine.issueActions, hd, hind, decoding]
    · rw [(issueActions_frame i s).now]
      obtain he | he := issueActions_dlyT0 i s
      · exact h.delay u (he ▸ hu)
      · exact (Option.some.inj (he.symm.trans hu)).ge
  exact hci.inv h (issueActions_frame i s) hw hc

/-- `complete` with the bus driver and the decoder at rest (R61). -/
theorem CtrlInv.complete {i : Instr} {s : State} (h : CtrlInv i s) (hb : BusResting s) (hd : s.dstate = .idle) :
    CtrlInv i (complete s) :=
  ⟨h.count, h.timer, h.indicator, h.delay, fun _ => ⟨hb, hd⟩, fun e => nomatch e⟩

theorem CtrlInv.setRes {i : Instr} {s : State} (h : CtrlInv i s) (v : Byte) : CtrlInv i (setRes v s) :=
  ⟨h.count, h.timer, h.indicator, h.delay, h.rest, h.busy⟩

theorem CtrlInv.raise {i : Instr} {s : State} (h : CtrlInv i s) (c : FaultCode) (w : Word) :
    CtrlInv i (raise c w s) :=
  ⟨h.count, h.timer, h.indicator, h.delay, h.rest, h.busy⟩

/-- A step of the bus driver writes nothing of the timer, the indicator and the delay. -/
theorem CtrlInv.of_busBlock {i : Instr} {s t : State} (h : CtrlInv i s) (e : BusBlock s t)
    (rest : t.ready = true → BusResting t ∧ t.dstate = .idle) (busy : t.ready = false → OperationOk i t) :
    CtrlInv i t :=
  ⟨e ▸ h.count, e ▸ h.timer, e ▸ h.indicator, e ▸ h.delay, rest, busy⟩

theorem Pending.makeRequest {s : State} (h : EngineQuiet s) (k : Request) (b : Byte) :
    Pending k (makeRequest k b s) := by
  obtain ⟨⟨h1, h2, h3⟩, hd⟩ := h
  cases k <;> simp [Pending, Machine.makeRequest, h1, h2, h3, hd]

theorem PrimitiveOk.makeRequest {s : State} (h : EngineQuiet s) (k : Request) (b : Byte) :
    PrimitiveOk k (makeRequest k b s) :=
  ⟨fun e => by simp at e, fun _ => .inl (.makeRequest h k b)⟩

/-- Once the completion of its request is seen, a primitive is at rest (R144). -/
theorem PrimitiveOk.endRequest {k : Request} {s : State} (h : PrimitiveOk k s) (hp : s.bph = .wait)
    (hd : s.seDone = true) : BusResting (endRequest k s) := by
  obtain ⟨-, -, -, h, -⟩ | h := h.2 hp
  · rw [hd] at h; cases h
  · exact ⟨rfl, h.1, rfl⟩

/-- After the end of a stage's primitive a transaction is complete, or in its next stage with the bus open (R150). -/
theorem OperationOk.writeAdvance {a c d : Byte} {s : State} {k : Request} {b : Byte}
    (h : OperationOk (.busWrite a c d) s) (hk : writeRequest a c d s.wseq = (k, b))
    (hb : BusResting (endRequest k s)) :
    BusResting (writeAdvance (endRequest k s)) ∧
      ((writeAdvance (endRequest k s)).ready = false →
        OperationOk (.busWrite a c d) (writeAdvance (endRequest k s))) := by
  obtain ⟨hi, ho⟩ := h
  have hq : (endRequest k s).wseq = s.wseq := rfl
  unfold Machine.writeAdvance
  rw [hq]
  cases hs : s.wseq <;> rw [hs] at hk ho <;> cases hk
  case start => exact ⟨hb, fun _ => ⟨hi, rfl, hb.primitiveOk .byte⟩⟩
  case address => exact ⟨hb, fun _ => ⟨hi, ho.1, hb.primitiveOk .byte⟩⟩
  case control => exact ⟨hb, fun _ => ⟨hi, ho.1, hb.primitiveOk .byte⟩⟩
  case data => exact ⟨hb, fun _ => ⟨hi, ho.1, hb.primitiveOk .stop⟩⟩
  case stop => exact ⟨hb, fun e => nomatch e⟩

/-- After the end of its primitive a bus operation is complete, or in its next stage (R137, R140, R141, R150). -/
theorem OperationOk.busAdvance {i : Instr} {s : State} {k : Request} {b : Byte} (h : OperationOk i s)
    (hk : busRequest i s = some (k, b)) (hb : BusResting (endRequest k s)) :
    BusResting (busAdvance i (endRequest k s)) ∧
      ((busAdvance i (endRequest k s)).ready = false → OperationOk i (busAdvance i (endRequest k s))) := by
  cases i with
  | busWrite a c d => exact h.writeAdvance (Option.some.inj hk) hb
  | _ => exact ⟨hb, fun e => nomatch e⟩

theorem CtrlInv.bus {i : Instr} {s t : State} {k : Request} {b : Byte} (h : CtrlInv i s) (hr : s.ready = false)
    (hk : busRequest i s = some (k, b)) (hm : BusMove k b (busAdvance i) s t) : CtrlInv i t := by
  have ho := h.busy hr
  obtain ⟨hi, hp⟩ := ho.primitiveOk hk
  have e := hm.block
  cases hm with
  | faults => exact h.raise _ _
  | waits => exact h
  | requests hph =>
    refine h.of_busBlock e (fun hr' => ?_) fun _ => ?_
    · have : (makeRequest k b s).ready = s.ready := by cases k <;> rfl
      rw [this, hr] at hr'
      cases hr'
    · exact ho.of_primitiveOk hk e.dstate (by cases k <;> rfl) (by cases k <;> rfl)
        (.makeRequest (hp.1 hph) k b)
  | ends hph hd =>
    obtain ⟨hb, hn⟩ := ho.busAdvance hk (hp.endRequest hph hd)
    exact h.of_busBlock e (fun _ => ⟨hb, e.dstate.trans hi⟩) hn

/-! ### The decoder operations -/

/-- What a step of the decoder keeps: the timer runs exactly while it measures, the indicator is on from the end of the
debounce to FrameComplete, it reads nothing that is not written, and it is idle once it is done (R28, R29, R33). -/
structure DecoderInv (s : State) : Prop where
  count : s.tmrCnt < 2 ^ s.launch.tmrWidth
  timer : s.tmrOn = measuring s.dstate
  indicator : s.ind = decoding s.dstate
  rest : s.ready = true → s.dstate = .idle
  busy : s.ready = false → s.dstate ≠ .idle ∧ DecoderOk s

theorem dstate_ne_idle_of_decoderSpins {s : State} (h : decoderSpins s = true) : s.dstate ≠ .idle := by
  intro hd
  simp [decoderSpins, hd] at h

theorem DecoderInv.advanceBit {s : State} (hr : s.ready = false) (hc : s.tmrCnt < 2 ^ s.launch.tmrWidth)
    (ht : s.tmrOn = false) (hi : s.ind = true) (hf : s.fidx.isSome = true) (hb : s.bidx.isSome = true) :
    DecoderInv (advanceBit s) := by
  unfold Machine.advanceBit
  repeat' split
  all_goals
    exact ⟨hc, ht, hi, fun e => absurd (hr.symm.trans e) Bool.false_ne_true, fun _ => by simp [DecoderOk, hf, hb]⟩

theorem DecoderMove.decoderInv {s t : State} (h : DecoderMove s t) (hs : Inv s) (hr : s.ready = false)
    (hd : DecoderOk s) : DecoderInv t := by
  have hnr {p : Prop} (e : s.ready = true) : p := absurd (hr.symm.trans e) Bool.false_ne_true
  have ht := hs.timer
  have hi := hs.indicator
  cases h with
  | waits hw => exact ⟨hs.count, ht, hi, hnr, fun _ => ⟨dstate_ne_idle_of_decoderSpins hw, hd⟩⟩
  | debounced hw hst =>
    rw [hst] at ht
    exact ⟨hs.count, ht, rfl, hnr, fun _ => by simp [DecoderOk]⟩
  | leaderStarts hw hst =>
    rw [hst] at hi
    exact ⟨Nat.two_pow_pos _, rfl, hi, hnr, fun _ => by simp [DecoderOk]⟩
  | leaderEnds hw hst =>
    rw [hst] at hi
    exact ⟨hs.count, rfl, hi, hnr, fun _ => by simp [DecoderOk]⟩
  | gated hw hst =>
    rw [hst] at ht hi
    exact ⟨hs.count, ht, hi, hnr, fun _ => by simp [DecoderOk]⟩
  | extracts hw hst =>
    rw [hst] at ht hi
    exact ⟨hs.count, ht, hi, hnr, fun _ => by simp [DecoderOk]⟩
  | bitStarts hw hst =>
    rw [hst] at hi
    obtain ⟨hf, hb⟩ := hd.2 (.inl hst)
    exact ⟨Nat.two_pow_pos _, rfl, hi, hnr, fun _ => by simp [DecoderOk, hf, hb]⟩
  | bitEnds hw hst =>
    rw [hst] at hi
    obtain ⟨hf, hb⟩ := hd.2 (.inr hst)
    exact .advanceBit hr hs.count rfl hi hf hb
  | completes => exact ⟨hs.count, rfl, rfl, fun _ => rfl, fun e => nomatch e⟩

theorem CtrlInv.decoder {i : Instr} {s t : State} (h : Inv s) (hr : s.ready = false) (ho : OperationOk i s)
    (hi : i = .decFrame ∨ i = .decService) (hm : DecoderMove s t) : CtrlInv i t := by
  obtain ⟨hb, hd⟩ := ho.decoderOk hi
  obtain ⟨hcount, htimer, hind, hrest, hbusy⟩ := hm.decoderInv h hr hd
  have e := hm.block
  have hbt : BusResting t := e ▸ hb
  refine ⟨hcount, htimer, hind, e ▸ h.delay, fun hr => ⟨hbt, hrest hr⟩, fun hr => ?_⟩
  obtain ⟨hne, hdt⟩ := hbusy hr
  obtain rfl | rfl := hi
  · exact ⟨hbt, hne, hdt⟩
  · exact ⟨hbt, hdt⟩

/-! ### Every operation -/

/-- The operations that rest the bus driver and the decoder while they run (R64). -/
theorem OperationOk.idle {i : Instr} {s : State} (h : OperationOk i s)
    (hi : i = .busChkack ∨ i = .decCheck ∨ (∃ n, i = .frmRead n) ∨ i = .ldrRead) :
    BusResting s ∧ s.dstate = .idle := by
  obtain rfl | rfl | ⟨n, rfl⟩ | rfl := hi <;> exact h

theorem CtrlMove.ctrlInv {i : Instr} {s t : State} (h : CtrlMove i s t) (hs : Inv s) (hr : s.ready = false)
    (ho : OperationOk i s) : CtrlInv i t := by
  have hc := hs.ctrlInv ho
  cases h with
  | bus k b hk hm => exact hc.bus hr hk hm
  | decoder hi hm => exact .decoder hs hr ho hi hm
  | absent hi hd => exact (hc.setRes _).complete (ho.decoderOk (.inr hi)).1 hd
  | present hi hd =>
    obtain ⟨hb, -⟩ := ho.decoderOk (.inr hi)
    subst hi
    have ht := hs.timer
    have hn := hs.indicator
    rw [hd] at ht hn
    exact ⟨hs.count, ht, hn, fun t ht => by cases ht; exact Nat.le_refl _, fun e => by simp [hr] at e,
      fun _ => ⟨hb, by simp [DecoderOk]⟩⟩
  | delays => exact hc
  | elapsed n hi =>
    subst hi
    obtain ⟨hb, hd, -⟩ := ho
    exact hc.complete hb hd
  | ackUndef => exact hc.raise _ _
  | result v hi =>
    obtain ⟨hb, hd⟩ := ho.idle hi
    exact (hc.setRes v).complete hb hd

theorem Inv.ctrlAction {i : Instr} {s t : State} (h : Inv s) (hr : s.ready = false) (hw : i.wf = true)
    (hc : s.cur = some (encode i)) (hs : ctrlAction i s = .next t) : Inv t := by
  obtain ⟨j, hj, hcj, ho⟩ := h.busy hr
  obtain rfl : i = j := encode_inj hw hj (Option.some.inj (hc.symm.trans hcj))
  have hm := ctrlAction_move hs
  exact (hm.ctrlInv h hr ho).inv h (ctrlAction_frame hs) hw (hm.cur.trans hc)

/-! ## Runs -/

theorem AgentMove.inv {m : Move} {s t : State} (h : AgentMove s m t) (hs : Inv s) : Inv t := by
  cases h with
  | tick => exact hs.tickStep
  | engine => exact hs.engineStep
  | ctrl i hr _ hw hc h => exact hs.ctrlAction hr hw hc h
  | issue i hr _ hw hp => exact (hs.nextWord hp).issueActions hr hw
  | host _ _ _ _ f => exact hs.of_hostFrame f
  | stays => exact hs

theorem Inv.step {s t : State} (h : Inv s) (hs : step s = .next t) : Inv t := (step_move hs).inv h.afterChoice

theorem Inv.powerOn {l : Launch} (h : launchRefusal l = none) (inp : Inputs) (d : Nat) : Inv (State.powerOn l inp d) :=
  ⟨h, Nat.mod_lt _ (Nat.two_pow_pos _), rfl, rfl, (fun _ e => nomatch e), Nat.zero_le _,
    fun _ => ⟨⟨rfl, ⟨rfl, rfl, rfl⟩, rfl⟩, rfl⟩, fun e => nomatch e⟩

theorem Reachable.inv {s : State} (h : Reachable s) : Inv s := by
  induction h with
  | reset l inp d h => exact .powerOn h inp d
  | step _ hs ih => exact ih.step hs

/-- What the engine holds: nothing, one request, or one completion not yet seen (R38). -/
theorem Inv.engine {s : State} (h : Inv s) : EngineQuiet s ∨ Answered s ∨ ∃ k, Pending k s := by
  cases hr : s.ready with
  | true => exact .inl (h.rest hr).1.2
  | false =>
    obtain ⟨i, -, -, ho⟩ := h.busy hr
    cases hk : busRequest i s with
    | none => exact .inl (ho.busResting hk).2
    | some r =>
      obtain ⟨-, hi, hw⟩ := ho.primitiveOk hk
      cases hp : s.bph with
      | issue => exact .inl (hi hp)
      | wait => exact .inr ((hw hp).symm.imp_right fun h => ⟨_, h⟩)

end Sys2Proof.Machine
end

section
/-! What each element of the state is written by: the statements on single steps (10_state.md). -/

namespace Sys2Proof.Machine

/-! ## Invariants of runs -/

theorem measuring_iff (d : DState) : measuring d = true ↔ d = .ldrMeasure ∨ d = .bitMeasure := by
  cases d <;> simp [measuring]

theorem decoding_iff (d : DState) : decoding d = true ↔ d ≠ .idle ∧ d ≠ .debounce := by
  cases d <;> simp [decoding]

/-- Settles O10: the invariant holds of every state a run reaches, and says what the engine, the timer and the indicator
hold. -/
theorem oneRequestAtATime : Obligations.OneRequestAtATime := by
  intro s hs
  have h := hs.inv
  rw [h.timer, h.indicator, measuring_iff, decoding_iff]
  obtain ⟨⟨h1, h2, h3⟩, h4⟩ | ⟨⟨h1, h2, h3⟩, h4⟩ | ⟨k, h1, h2, h3, h4, -⟩ := h.engine
  · simp [h1, h2, h3]
  · simp [h1, h2, h3]
  · cases k <;> simp [h1, h2, h3, h4]

/-! ## Spins -/

/-- The decoder's spins, state by state, in the table of R196. -/
theorem decoderSpins_iff (s : State) :
    decoderSpins s = true ↔
      (s.dstate = .debounce ∧ s.now < s.delayStart + s.launch.tDebounce) ∨
      (s.dstate = .ldrWaitHigh ∧ s.irNow = false) ∨
      (s.dstate = .ldrMeasure ∧ s.irNow = true) ∨
      (s.dstate = .ldrWaitLow ∧ s.irNow = s.measLevel) ∨
      (s.dstate = .bitSeek ∧ s.irNow ≠ s.measLevel) ∨
      (s.dstate = .bitMeasure ∧ s.irNow = s.measLevel) := by
  cases h : s.dstate <;> simp [decoderSpins, h, State.delayRuns]

theorem busSpins_iff (s : State) : busSpins s = true ↔ s.bph = .wait ∧ s.seDone = false := by
  simp [busSpins]

/-- Settles O19: CTRL's step leaves the state as it is exactly when it is a spin, for each operation. -/
theorem onlySpinsChangeNothing : Obligations.OnlySpinsChangeNothing := by
  intro i s t hr hf h
  rw [exec_ctrl i hf hr] at h
  rw [(ctrlAction_move h).eq_self_iff hr hf]
  cases i with
  | busStart => exact busSpins_iff s
  | busStop => exact busSpins_iff s
  | busSend d => exact busSpins_iff s
  | busWrite a c d => exact busSpins_iff s
  | sysDelay n => exact decide_eq_true_iff
  | decFrame => exact decoderSpins_iff s
  | decService => exact decoderSpins_iff s
  | busChkack => exact Bool.false_eq_true.to_iff
  | decCheck => exact Bool.false_eq_true.to_iff
  | frmRead k => exact Bool.false_eq_true.to_iff
  | ldrRead => exact Bool.false_eq_true.to_iff

/-! ## The bus trace and the acknowledgment -/

/-- Only the ENGINE writes the trace and the acknowledgment (R40, R48). -/
theorem AgentMove.bus {m : Move} {s t : State} (h : AgentMove s m t) (hm : m ≠ .engine) :
    t.busTrace = s.busTrace ∧ t.seAckstat = s.seAckstat := by
  cases h with
  | tick => exact ⟨rfl, rfl⟩
  | engine => exact absurd rfl hm
  | ctrl i _ _ _ _ h => exact ⟨(ctrlAction_frame h).trace, (ctrlAction_frame h).ackstat⟩
  | issue i =>
    have f := issueActions_frame i { s with cpc := s.cpc + 1 }
    exact ⟨f.trace, f.ackstat⟩
  | host _ _ _ _ f => rw [← f.block]; exact ⟨rfl, rfl⟩
  | stays => exact ⟨rfl, rfl⟩

/-- Everything the ENGINE's step does to the trace and the acknowledgment (R138). -/
theorem engineStep_cases (s : State) :
    (s.seStartReq = true ∧ (engineStep s).busTrace = s.busTrace ++ [.start] ∧
      (engineStep s).seAckstat = s.seAckstat) ∨
    (s.seStartReq = false ∧ s.seStopReq = true ∧ (engineStep s).busTrace = s.busTrace ++ [.stop] ∧
      (engineStep s).seAckstat = s.seAckstat) ∨
    (s.seStartReq = false ∧ s.seStopReq = false ∧ s.seTxPend = true ∧
      (engineStep s).busTrace = s.busTrace ++ [.byte s.txByte (nextAck s)] ∧
      (engineStep s).seAckstat = some (nextAck s)) ∨
    engineStep s = s := by
  cases h1 : s.seStartReq with
  | true => simp [engineStep, h1]
  | false =>
    cases h2 : s.seStopReq with
    | true => simp [engineStep, h1, h2]
    | false => cases h3 : s.seTxPend <;> simp [engineStep, h1, h2, h3]

theorem AgentMove.eq_engineStep {s t : State} (h : AgentMove s .engine t) : t = engineStep s := by
  cases h with
  | engine => rfl
  | host _ hm => simp at hm
  | stays _ hm => simp at hm

/-- Settles O29: of the ENGINE's steps only the byte transfer writes `SE_ACKSTAT`, and no other agent does. -/
theorem ackStatusOnlyFromByteTransfers : Obligations.AckStatusOnlyFromByteTransfers := by
  intro s t h
  have h := step_move h
  by_cases hm : nextMove s = .engine
  · rw [hm] at h
    rw [h.eq_engineStep]
    obtain ⟨-, -, ha⟩ | ⟨-, -, -, ha⟩ | ⟨h1, h2, h3, ht, ha⟩ | he := engineStep_cases (afterChoice s)
    · exact .inr ha
    · exact .inr ha
    · exact .inl ⟨hm, h1, h2, h3, _, _, ht, ha⟩
    · rw [he]; exact .inr rfl
  · exact .inr (h.bus hm).2

/-- Settles O31: the ENGINE appends the event of the request it completes, and no other agent writes the trace. -/
theorem onlyTheEngineExtendsTheTrace : Obligations.OnlyTheEngineExtendsTheTrace := by
  refine ⟨fun s t h ht => ?_, fun _ _ _ => rfl⟩
  have h := step_move h
  by_cases hm : nextMove s = .engine
  · refine ⟨hm, ?_⟩
    rw [hm] at h
    rw [h.eq_engineStep] at ht ⊢
    obtain ⟨h1, he, -⟩ | ⟨-, h2, he, -⟩ | ⟨-, -, h3, he, -⟩ | he := engineStep_cases (afterChoice s)
    · exact .inl ⟨h1, he⟩
    · exact .inr (.inl ⟨h2, he⟩)
    · exact .inr (.inr ⟨h3, _, he⟩)
    · exact absurd (congrArg State.busTrace he) ht
  · exact absurd (h.bus hm).1 ht

/-! ## RES, CPC and time -/

theorem AgentMove.res {m : Move} {s t : State} (h : AgentMove s m t) (ht : t.res ≠ s.res) :
    m = .ctrl ∧ s.ready = false ∧ ∃ i : Instr, s.cur = some (encode i) ∧
      (i = .busChkack ∨ i = .decCheck ∨ i = .decService ∨ (∃ k, i = .frmRead k) ∨ i = .ldrRead) := by
  cases h with
  | ctrl i hr _ _ hc h => exact ⟨rfl, hr, i, hc, (ctrlAction_move h).res ht⟩
  | engine => exact absurd (engineStep_frame s).res ht
  | issue i => cases i <;> exact absurd rfl ht
  | host _ _ _ _ f => rw [← f.block] at ht; exact absurd rfl ht
  | tick => exact absurd rfl ht
  | stays => exact absurd rfl ht

/-- Settles O51: of CTRL's steps only those of the five operations with a result write RES, and no other agent does. -/
theorem onlyFiveOperationsWriteTheResult : Obligations.OnlyFiveOperationsWriteTheResult :=
  fun _ _ h ht => (step_move h).res ht

theorem AgentMove.stream {m : Move} {s t : State} (h : AgentMove s m t) :
    s.prog <+: t.prog ∧
    (t.cpc = s.cpc ∨
      (t.cpc = s.cpc + 1 ∧ m = .host ∧ s.ready = true ∧ s.fault = none ∧ t.ready = false ∧
        t.cur = s.prog[s.cpc]?)) := by
  cases h with
  | tick => exact ⟨List.prefix_rfl, .inl rfl⟩
  | engine =>
    have f := engineStep_frame s
    exact ⟨by rw [f.prog], .inl f.cpc⟩
  | ctrl i _ _ _ _ h =>
    have f := ctrlAction_frame h
    exact ⟨by rw [f.prog], .inl f.cpc⟩
  | issue i hr hf _ hp =>
    have f := issueActions_frame i { s with cpc := s.cpc + 1 }
    obtain ⟨hc, hr'⟩ := issueActions_latched i { s with cpc := s.cpc + 1 }
    exact ⟨by rw [f.prog], .inr ⟨f.cpc, rfl, hr, hf, hr', hc.trans hp.symm⟩⟩
  | host _ _ _ _ f => exact ⟨f.prog, .inl f.cpc⟩
  | stays => exact ⟨List.prefix_rfl, .inl rfl⟩

/-- Settles O52: only the issue of a word advances `CPC`, and the stream only grows at its end. -/
theorem commandCounterAdvancesByOne : Obligations.CommandCounterAdvancesByOne :=
  fun _ _ h => (step_move h).stream

theorem AgentMove.now {m : Move} {s t : State} (h : AgentMove s m t) :
    t.now = if m = .tick then s.now + 1 else s.now := by
  cases h with
  | tick => rfl
  | engine => exact (engineStep_frame s).now
  | ctrl i _ _ _ _ h => exact (ctrlAction_frame h).now
  | issue i => exact (issueActions_frame i { s with cpc := s.cpc + 1 }).now
  | host _ hm _ _ f =>
    rw [← f.block]
    obtain rfl | rfl := hm <;> rfl
  | stays _ hm => obtain ⟨rfl, -⟩ | ⟨rfl | rfl, -⟩ := hm <;> rfl

/-- Settles O53: of the four agents TICK alone writes `now`. -/
theorem timeMovesOnlyByTick : Obligations.TimeMovesOnlyByTick := by
  intro s t h
  have hn := (step_move h).now
  exact ⟨fun hm => by simpa [hm] using hn, fun hm => by simpa [hm] using hn⟩

/-! ## Reset -/

/-- Settles O5: each element of `State.powerOn` is its value of R69. -/
theorem resetLeavesEveryElementAtItsValue : Obligations.ResetLeavesEveryElementAtItsValue := by
  refine ⟨?_, fun p c s => ⟨_, _, rfl, rfl, rfl, rfl, rfl⟩, rfl, by decide⟩
  rintro l inp d s rfl
  simp [State.powerOn, State.tmrIe, State.seIe, Nat.mod_lt]

/-! ## The steps of CTRL, the HOST and TICK -/

section
variable {s : State} (hl : launchRefusal s.launch = none)
include hl

theorem step_tick (hm : nextMove s = .tick) : step s = .next (tickStep (afterChoice s)) := by
  rw [step_eq hl, hm]; rfl

theorem step_ctrl (hm : nextMove s = .ctrl) (hr : s.ready = false) (hf : s.fault = none) :
    step s = ctrlStep (afterChoice s) := by
  rw [step_eq hl, hm]
  simp [agentStep, ctrlEnabled, hr, hf]

theorem step_ctrl_disabled (hm : nextMove s = .ctrl) (h : s.ready = true ∨ s.fault ≠ none) :
    step s = .next (afterChoice s) := by
  have he : ctrlEnabled (afterChoice s) = false := by
    obtain h | h := h <;> simp [ctrlEnabled, Option.isSome_iff_ne_none, h]
  rw [step_eq hl, hm]
  simp [agentStep, he]

theorem step_host (hm : nextMove s = .host) (hr : s.ready = true) (hf : s.fault = none) :
    step s = hostStep (afterChoice s) := by
  rw [step_eq hl, hm]
  simp [agentStep, hostEnabled, hr, hf]

theorem step_hostRead (hm : nextMove s = .hostRead) (hr : s.ready = true) (hf : s.fault = none) :
    step s = .next (hostReadStep (afterChoice s)) := by
  rw [step_eq hl, hm]
  simp [agentStep, hostEnabled, hr, hf]

theorem step_host_disabled (hm : nextMove s = .host) (h : s.ready = false ∨ s.fault ≠ none) :
    step s = .next (afterChoice s) := by
  have he : hostEnabled (afterChoice s) = false := by
    obtain h | h := h <;> simp [hostEnabled, Option.isSome_iff_ne_none, h]
  rw [step_eq hl, hm]
  simp [agentStep, he]

end

theorem hostStep_legal {s : State} {w : Word} {i : Instr} (hp : s.prog[s.cpc]? = some w) (hd : decode w = .legal i) :
    hostStep s = exec i { s with cpc := s.cpc + 1 } := by
  simp [hostStep, hp, issueWord, hd]

theorem hostStep_illegal {s : State} {w : Word} {why : Illegal} (hp : s.prog[s.cpc]? = some w)
    (hd : decode w = .illegal why) : hostStep s = .next (raise .illegal w s) := by
  simp [hostStep, hp, issueWord, hd]

/-- Settles O11: CTRL's step is that of the operation in `CUR`, and there is none while CTRL is not enabled. -/
theorem ctrlRunsTheCurrentOperation : Obligations.CtrlRunsTheCurrentOperation := by
  intro s hl hm
  refine ⟨fun w i hr hf hc hd => ?_, step_ctrl_disabled hl hm⟩
  rw [step_ctrl hl hm hr hf]
  exact ctrlStep_eq hc hd

/-- Settles O12: the HOST's step takes the word at `CPC`, issues a legal one and refuses an illegal one. -/
theorem hostIssuesTheNextWord : Obligations.HostIssuesTheNextWord := by
  intro s hl hm
  refine ⟨fun w i hr hf hp hd => ?_, fun w why hr hf hp hd => ?_, step_host_disabled hl hm⟩
  · have hs := (step_host hl hm hr hf).trans (hostStep_legal hp hd)
    have he := exec_issue i (s := { afterChoice s with cpc := s.cpc + 1 }) hf hr
    have f := issueActions_frame i { afterChoice s with cpc := s.cpc + 1 }
    obtain ⟨hc, hr'⟩ := issueActions_latched i { afterChoice s with cpc := s.cpc + 1 }
    exact ⟨hs, _, hs.trans he, (decode_legal hd).2 ▸ hc, hr', f.cpc, f.prog⟩
  · exact (step_host hl hm hr hf).trans (hostStep_illegal hp hd)

/-- Settles O14: every operation has the shape of `operation`, so its issue is the latch and its issue actions. -/
theorem everyOperationIssues : Obligations.EveryOperationIssues := by
  intro s hr hf
  have h (i : Instr) : exec i s = .next (issueActions i (latch i s)) := exec_issue i hf hr
  exact ⟨h _, h _, fun _ => h _, h _, fun _ _ _ => h _, h _, h _, h _, fun _ => h _, h _, fun _ => h _⟩

/-- Settles O15: the TICK step is the tick rule of the timer and the advance of time. -/
theorem tickAdvancesTimeAndTimer : Obligations.TickAdvancesTimeAndTimer := by
  intro s hl hm
  rw [step_tick hl hm]
  refine ⟨fun hon hmax => ?_, fun hon hmax => ?_, fun hoff => ?_⟩
  · simp [tickStep, tmrTick, countTick, hon, hmax]
  · simp [tickStep, tmrTick, countTick, hon, hmax]
  · simp [tickStep, tmrTick, hoff]

/-- Settles O17: the read notes the value of RES, or raises `F_RES_UNDEF`. -/
theorem hostReadsTheResult : Obligations.HostReadsTheResult := by
  intro s hl hm hr hf
  rw [step_hostRead hl hm hr hf]
  exact ⟨fun v hv => congrArg _ (readRes_of_some hv), fun hv => congrArg _ (readRes_of_none hv)⟩

/-! ## The register images -/

/-- The bits of a register image of two flags. -/
theorem image_bits (a b : Bool) :
    (0#6 ++ BitVec.ofBool a ++ BitVec.ofBool b).getLsbD 0 = b ∧
    (0#6 ++ BitVec.ofBool a ++ BitVec.ofBool b).getLsbD 1 = a ∧
    (0#6 ++ BitVec.ofBool a ++ BitVec.ofBool b).extractLsb' 2 6 = 0 := by
  revert a b; decide

theorem seCtrl_eq (s : State) : s.seCtrl = 0#6 ++ BitVec.ofBool s.seStopReq ++ BitVec.ofBool s.seStartReq := by
  unfold State.seCtrl State.seIe
  cases s.seStopReq <;> cases s.seStartReq <;> rfl

/-- Settles O32: both images are two flags under six zeros. -/
theorem engineRegisterImages : Obligations.EngineRegisterImages := by
  intro s
  rw [seCtrl_eq]
  obtain ⟨h0, h1, hz⟩ := image_bits s.seStopReq s.seStartReq
  exact ⟨h0, h1, hz, fun a ha => ⟨_, congrArg (Option.map _) ha, image_bits a s.seDone⟩, rfl, rfl⟩

end Sys2Proof.Machine
end

section
/-! A bus operation in progress ends in every fair execution with an engine that is not stalled (R67, R139, R251): each of
its phases ends once the one agent it waits for moves, and no other agent's step takes it back. -/

namespace Sys2Proof.Machine

/-! ## Progress by a fair agent -/

/-- If `P` holds until `Q` does, `P` keeps an agent enabled, and that agent's step from `P` reaches `Q`, then `Q` comes. -/
theorem Execution.eventually_of_fair {x : Nat → State} (hx : Execution x) {a : Move} {enabled : State → Bool}
    (hfair : ∀ n, (∀ m, n ≤ m → enabled (x m) = true) → ∃ m, n ≤ m ∧ nextMove (x m) = a) {P Q : State → Prop}
    (henabled : ∀ s, P s → enabled s = true) (hstays : ∀ s t, P s → step s = .next t → P t ∨ Q t)
    (hmoves : ∀ s t, P s → nextMove s = a → step s = .next t → Q t) {n : Nat} (hn : P (x n)) : ∃ m, Q (x m) := by
  by_contra hq
  have hp : ∀ m, n ≤ m → P (x m) := by
    intro m hm
    induction m, hm using Nat.le_induction with
    | base => exact hn
    | succ m _ ih => exact (hstays _ _ ih (hx m)).resolve_right fun h => hq ⟨_, h⟩
  obtain ⟨m, hm, ha⟩ := hfair n fun m hm => henabled _ (hp m hm)
  exact hq ⟨_, hmoves _ _ (hp m hm) ha (hx m)⟩

/-! ## A bus operation in progress -/

/-- Operation `i` is in progress. -/
structure Running (i : Instr) (s : State) : Prop where
  inv : Inv s
  ready : s.ready = false
  fault : s.fault = none
  cur : s.cur = some (encode i)
  wf : i.wf = true

/-- The operation has completed, or faulted because its precondition did not hold (R131, R133, R135). -/
def BusEnded (s : State) : Prop :=
  s.ready = true ∨ ∃ w, s.fault = some ⟨.busNotIdle, w⟩ ∨ s.fault = some ⟨.busNotActive, w⟩

/-- The stages of `BUS.WRITE` that follow a stage (R150). -/
def WriteStage.after : WriteStage → Nat
  | .start => 4
  | .address => 3
  | .control => 2
  | .data => 1
  | .stop => 0

/-- The primitives that follow the present one. -/
def primitivesLeft (i : Instr) (s : State) : Nat :=
  match i with
  | .busWrite _ _ _ => s.wseq.after
  | _ => 0

/-- The moves that the present primitive still needs after the next one: a request, its completion, and its end (R130). -/
def movesLeft (s : State) : Nat :=
  match s.bph with
  | .issue => 2
  | .wait => if s.seDone then 0 else 1

/-- How far a bus operation is from its end. -/
def busRank (i : Instr) (s : State) : Nat := 3 * primitivesLeft i s + movesLeft s

/-- The agent that a bus operation of a rank waits for: the ENGINE while a request is pending, and else CTRL. -/
def awaited (r : Nat) : Move := if r % 3 = 1 then .engine else .ctrl

theorem busRank_mod (i : Instr) (s : State) : busRank i s % 3 = movesLeft s := by
  have : movesLeft s < 3 := by
    unfold movesLeft
    repeat' split
    all_goals decide
  unfold busRank
  omega

theorem movesLeft_eq_one_iff (s : State) : movesLeft s = 1 ↔ s.bph = .wait ∧ s.seDone = false := by
  unfold movesLeft
  cases s.bph <;> cases s.seDone <;> simp

theorem awaited_busRank (i : Instr) (s : State) :
    awaited (busRank i s) = if s.bph = .wait ∧ s.seDone = false then .engine else .ctrl := by
  simp only [awaited, busRank_mod, movesLeft_eq_one_iff]

/-- The operation is in progress, at rank `r`. -/
def AtRank (i : Instr) (r : Nat) (s : State) : Prop := Running i s ∧ busRank i s = r

/-- The operation has ended, or is nearer its end than rank `r`. -/
def PastRank (i : Instr) (r : Nat) (s : State) : Prop := BusEnded s ∨ (Running i s ∧ busRank i s < r)

/-- A step of agent `m` keeps the operation at its rank, and then another agent is awaited; or it takes it past it. -/
def BusProgress (i : Instr) (m : Move) (s t : State) : Prop :=
  (AtRank i (busRank i s) t ∧ m ≠ awaited (busRank i s)) ∨ PastRank i (busRank i s) t

theorem Running.primitiveOk {i : Instr} {s : State} (h : Running i s) {k : Request} {b : Byte}
    (hk : busRequest i s = some (k, b)) : PrimitiveOk k s := by
  obtain ⟨j, hj, hc, ho⟩ := h.inv.busy h.ready
  obtain rfl : i = j := encode_inj h.wf hj (Option.some.inj (h.cur.symm.trans hc))
  exact (ho.primitiveOk hk).2

theorem Running.pending {i : Instr} {s : State} (h : Running i s) {k : Request} {b : Byte}
    (hk : busRequest i s = some (k, b)) (hp : s.bph = .wait) (hd : s.seDone = false) : Pending k s := by
  obtain h | ⟨-, h⟩ := (h.primitiveOk hk).2 hp
  · exact h
  · rw [hd] at h; cases h

/-- While no request waits for its completion, none is pending. -/
theorem Running.noRequest {i : Instr} {s : State} (h : Running i s) {k : Request} {b : Byte}
    (hk : busRequest i s = some (k, b)) (hp : ¬ (s.bph = .wait ∧ s.seDone = false)) : NoRequest s := by
  obtain ⟨hi, hw⟩ := h.primitiveOk hk
  cases hb : s.bph with
  | issue => exact (hi hb).1
  | wait =>
    obtain ⟨-, -, -, hd, -⟩ | h := hw hb
    · exact absurd ⟨hb, hd⟩ hp
    · exact h.1

theorem Running.engineStep {i : Instr} {s : State} (h : Running i s) {k : Request} {b : Byte}
    (hk : busRequest i s = some (k, b)) : BusProgress i .engine s (engineStep s) := by
  have f := engineStep_frame s
  by_cases hp : s.bph = .wait ∧ s.seDone = false
  · have ha := (h.pending hk hp.1 hp.2).engineStep_answered
    refine .inr (.inr ⟨⟨h.inv.engineStep, f.ready.trans h.ready, f.fault.trans h.fault, f.cur.trans h.cur, h.wf⟩, ?_⟩)
    have hl : primitivesLeft i (Machine.engineStep s) = primitivesLeft i s := by
      unfold primitivesLeft; rw [f.wseq]
    simp [busRank, hl, movesLeft, f.bph, hp, ha.2]
  · rw [engineStep_of_noRequest (h.noRequest hk hp)]
    exact .inl ⟨⟨h, rfl⟩, by simp [awaited_busRank, hp]⟩

theorem primitivesLeft_makeRequest (i : Instr) (k : Request) (b : Byte) (s : State) :
    primitivesLeft i (makeRequest k b s) = primitivesLeft i s := by
  cases k <;> rfl

/-- After the end of a primitive the operation is complete or in its next stage. -/
theorem busAdvance_progress (i : Instr) (s : State) :
    (busAdvance i s).ready = true ∨ primitivesLeft i (busAdvance i s) < primitivesLeft i s := by
  cases i with
  | busWrite a c d =>
    cases hw : s.wseq <;> simp [busAdvance, writeAdvance, primitivesLeft, WriteStage.after, hw]
  | _ => exact .inl rfl

theorem busAdvance_fault (i : Instr) (s : State) : (busAdvance i s).fault = s.fault := by
  unfold busAdvance writeAdvance
  repeat' split
  all_goals rfl

theorem Running.ctrlAction {i : Instr} {s t : State} (h : Running i s) {k : Request} {b : Byte}
    (hk : busRequest i s = some (k, b)) (hs : ctrlAction i s = .next t) : BusProgress i .ctrl s t := by
  have hm := ctrlAction_bus_move hk hs
  have hi := h.inv.ctrlAction h.ready h.wf h.cur hs
  have hc := hm.block.cur.trans h.cur
  cases hm with
  | faults => exact .inr (.inl (.inr ⟨s.curWord, by cases k <;> simp [Request.fault]⟩))
  | requests hp =>
    have hq := (h.primitiveOk hk).1 hp
    refine .inr (.inr ⟨⟨hi, ?_, ?_, hc, h.wf⟩, ?_⟩)
    · cases k <;> exact h.ready
    · cases k <;> exact h.fault
    · have hd : (makeRequest k b s).seDone = false := by cases k <;> exact hq.2
      simp [busRank, primitivesLeft_makeRequest, movesLeft, hp, hd]
  | waits hp hd => exact .inl ⟨⟨h, rfl⟩, by simp [awaited_busRank, hp, hd]⟩
  | ends hp hd =>
    obtain hr | hl := busAdvance_progress i (endRequest k s)
    · exact .inr (.inl (.inl hr))
    cases hr : (busAdvance i (endRequest k s)).ready with
    | true => exact .inr (.inl (.inl hr))
    | false =>
      have hf : (busAdvance i (endRequest k s)).fault = none := (busAdvance_fault i _).trans h.fault
      have hl : primitivesLeft i (busAdvance i (endRequest k s)) < primitivesLeft i s := hl
      have h0 : movesLeft s = 0 := by simp [movesLeft, hp, hd]
      have h2 : movesLeft (busAdvance i (endRequest k s)) = 2 := by simp [movesLeft]
      refine .inr (.inr ⟨⟨hi, hr, hf, hc, h.wf⟩, ?_⟩)
      unfold busRank
      omega

theorem Running.afterChoice {i : Instr} {s : State} (h : Running i s) : Running i (afterChoice s) :=
  ⟨h.inv.afterChoice, h.ready, h.fault, h.cur, h.wf⟩

/-- Every step of every agent: the operation stays as it is, ends, or comes nearer its end. -/
theorem Running.agentMove {i : Instr} {m : Move} {s t : State} (h : Running i s)
    (hk : ∃ k b, busRequest i s = some (k, b)) (hm : AgentMove s m t) : BusProgress i m s t := by
  obtain ⟨k, b, hk⟩ := hk
  have hstays {m : Move} (hne : m ≠ .engine ∧ m ≠ .ctrl) : m ≠ awaited (busRank i s) := by
    rw [awaited_busRank]
    split
    · exact hne.1
    · exact hne.2
  cases hm with
  | tick => exact .inl ⟨⟨⟨h.inv.tickStep, h.ready, h.fault, h.cur, h.wf⟩, rfl⟩, hstays (by decide)⟩
  | engine => exact h.engineStep hk
  | ctrl j _ _ hw hc hs =>
    obtain rfl : i = j := encode_inj h.wf hw (Option.some.inj (h.cur.symm.trans hc))
    exact h.ctrlAction hk hs
  | issue j hr => exact absurd (h.ready.symm.trans hr) Bool.false_ne_true
  | host _ _ hr => exact absurd (h.ready.symm.trans hr) Bool.false_ne_true
  | stays _ hm =>
    obtain ⟨rfl, he⟩ | ⟨hm, -⟩ := hm
    · simp [ctrlEnabled, h.ready, h.fault] at he
    · exact .inl ⟨⟨h, rfl⟩, hstays (by obtain rfl | rfl := hm <;> decide)⟩

/-! ## Fair executions -/

/-- A bus operation (R137, R140, R141, R150): it makes a request in each of its stages. -/
theorem busRequest_of_bus {i : Instr}
    (hi : i = .busStart ∨ i = .busStop ∨ (∃ d, i = .busSend d) ∨ ∃ a c d, i = .busWrite a c d) (s : State) :
    ∃ k b, busRequest i s = some (k, b) := by
  obtain rfl | rfl | ⟨d, rfl⟩ | ⟨a, c, d, rfl⟩ := hi <;> exact ⟨_, _, rfl⟩

theorem Pending.engineEnabled {k : Request} {s : State} (h : Pending k s) : engineEnabled s = true := by
  obtain ⟨h1, h2, h3, -⟩ := h
  cases k <;> simp [Machine.engineEnabled, h1, h2, h3]

section
variable {i : Instr} (hk : ∀ s, ∃ k b, busRequest i s = some (k, b))
include hk

theorem AtRank.stays_or_past {r : Nat} {s t : State} (h : AtRank i r s) (hs : step s = .next t) :
    (AtRank i r t ∧ nextMove s ≠ awaited r) ∨ PastRank i r t := by
  obtain ⟨h, rfl⟩ := h
  exact h.afterChoice.agentMove (hk _) (step_move hs)

/-- While a request is pending the ENGINE is enabled. -/
theorem AtRank.engineEnabled {r : Nat} {s : State} (h : AtRank i r s) (hr : r % 3 = 1) : engineEnabled s = true := by
  obtain ⟨h, rfl⟩ := h
  obtain ⟨k, b, hk⟩ := hk s
  rw [busRank_mod, movesLeft_eq_one_iff] at hr
  exact (h.pending hk hr.1 hr.2).engineEnabled

variable {x : Nat → State} (hx : Execution x) (hfair : Fair x) (hstall : (x 0).launch.stall = false)
include hx hfair hstall

/-- The agent that the operation waits for moves at last, and takes it past its rank. -/
theorem AtRank.eventually_past {r n : Nat} (hn : AtRank i r (x n)) : ∃ m, PastRank i r (x m) := by
  have hstays (s t : State) (h : AtRank i r s) (hs : step s = .next t) : AtRank i r t ∨ PastRank i r t :=
    (h.stays_or_past hk hs).imp_left And.left
  have hmoves (s t : State) (h : AtRank i r s) (ha : nextMove s = awaited r) (hs : step s = .next t) :
      PastRank i r t :=
    (h.stays_or_past hk hs).resolve_left fun h => h.2 ha
  unfold awaited at hmoves
  by_cases hr : r % 3 = 1
  · rw [if_pos hr] at hmoves
    exact hx.eventually_of_fair (hfair.engine hstall) (fun s h => h.engineEnabled hk hr) hstays hmoves hn
  · rw [if_neg hr] at hmoves
    refine hx.eventually_of_fair hfair.ctrl (fun s h => ?_) hstays hmoves hn
    simp [ctrlEnabled, h.1.ready, h.1.fault]

theorem Running.eventually_ended {n : Nat} (hn : Running i (x n)) : ∃ m, BusEnded (x m) := by
  induction hr : busRank i (x n) using Nat.strong_induction_on generalizing n with
  | _ r ih =>
    obtain ⟨m, hm | ⟨hm, hlt⟩⟩ := AtRank.eventually_past hk hx hfair hstall ⟨hn, hr⟩
    · exact ⟨m, hm⟩
    · exact ih _ hlt hm rfl

end

/-- Settles O28, by induction on how far the operation is from its end: the agent it waits for is fair to it, and no
other takes it back. -/
theorem fairBusOperationsEnd : Obligations.FairBusOperationsEnd :=
  fun _ _ hx hfair hinv hstall hf hr hw hc hi =>
    Running.eventually_ended (n := 0) (busRequest_of_bus hi) hx hfair hstall ⟨hinv, hr, hf, hc, hw⟩

end Sys2Proof.Machine
end

section
/-! The frame as memory (R70 to R74): what a frame write changes, and which step makes one. -/

namespace Sys2Proof.Machine

/-! ## Frame writes -/

/-- A frame write replaces one bit of its byte (R74). -/
theorem getLsbD_frameWrite (s : State) (i : Fin 4) (p k : Fin 8) (b : Bool) :
    ((frameWrite i p b s).frame.get i).getLsbD k = if k = p then b else (s.frame.get i).getLsbD k := by
  rw [frameWrite_frame, Frame.get_set_same, getLsbD_putBit _ p b k k.isLt]
  simp only [Fin.val_inj]

theorem frameWrite_get_other (s : State) {i j : Fin 4} (p : Fin 8) (b : Bool) (h : j ≠ i) :
    (frameWrite i p b s).frame.get j = s.frame.get j :=
  Frame.get_set_other _ _ h

/-- Writing the bits of `v` at the positions of a list leaves those positions with the bits of `v` and keeps the others. -/
theorem getLsbD_foldl_frameWrite (i : Fin 4) (v : Byte) (k : Fin 8) (l : List (Fin 8)) (s : State) :
    ((l.foldl (fun t q => frameWrite i q (v.getLsbD q.val) t) s).frame.get i).getLsbD k =
      if k ∈ l then v.getLsbD k else (s.frame.get i).getLsbD k := by
  induction l generalizing s with
  | nil => simp
  | cons q l ih =>
    rw [List.foldl_cons, ih, getLsbD_frameWrite]
    by_cases hq : k = q <;> simp [hq]

/-- Settles O42: a write replaces one bit of one byte, so the eight writes of a byte replace all its bits. -/
theorem frameWriteChangesOneBit : Obligations.FrameWriteChangesOneBit := by
  intro s i p b
  refine ⟨fun k hk => ?_, fun j hj => frameWrite_get_other s p b hj, rfl, fun v => ?_⟩
  · simpa [← Fin.val_inj] using getLsbD_frameWrite s i p ⟨k, hk⟩ b
  · refine BitVec.eq_of_getLsbD_eq fun k hk => ?_
    simpa using getLsbD_foldl_frameWrite i v ⟨k, hk⟩ (List.finRange 8) s

/-! ## The step that writes the frame -/

theorem BusBlock.frame {s t : State} (h : BusBlock s t) : t.frame = s.frame := by rw [← h]

@[simp] theorem advanceBit_frame_eq (s : State) : (advanceBit s).frame = s.frame := by
  unfold advanceBit
  repeat' split
  all_goals rfl

theorem bitMeasure_spins_iff {s : State} (hd : s.dstate = .bitMeasure) :
    decoderSpins s = true ↔ s.irNow = s.measLevel := by
  simp [decoderSpins, hd]

/-- The decoder writes the frame only as it stores a bit, in the byte `FIDX` (R192). -/
theorem DecoderMove.frame {s t : State} (h : DecoderMove s t) (ht : t.frame ≠ s.frame) :
    s.dstate = .bitMeasure ∧ s.irNow ≠ s.measLevel ∧ ∀ j, j ≠ s.frameIndex → t.frame.get j = s.frame.get j := by
  cases h with
  | bitEnds hw hd =>
    have hlevel : s.irNow ≠ s.measLevel := fun e => by simp [(bitMeasure_spins_iff hd).mpr e] at hw
    refine ⟨hd, hlevel, fun j hj => ?_⟩
    rw [advanceBit_frame_eq]
    exact frameWrite_get_other _ _ _ hj
  | _ => exact absurd rfl ht

/-- Of the operations only those that run the decoder write the frame. -/
theorem CtrlMove.frame {i : Instr} {s t : State} (h : CtrlMove i s t) (ht : t.frame ≠ s.frame) :
    (i = .decFrame ∨ i = .decService) ∧ DecoderMove s t := by
  cases h with
  | decoder hi h => exact ⟨hi, h⟩
  | bus k b hk h => exact absurd h.block.frame ht
  | _ => exact absurd rfl ht

/-- Of the agents only CTRL writes the frame (R71). -/
theorem AgentMove.frame {m : Move} {s t : State} (h : AgentMove s m t) (ht : t.frame ≠ s.frame) :
    m = .ctrl ∧ s.ready = false ∧ s.fault = none ∧
      (s.cur = some (encode .decFrame) ∨ s.cur = some (encode .decService)) ∧ DecoderMove s t := by
  cases h with
  | ctrl i hr hf _ hc h =>
    obtain ⟨hi, hd⟩ := (ctrlAction_move h).frame ht
    refine ⟨rfl, hr, hf, ?_, hd⟩
    obtain rfl | rfl := hi
    · exact .inl hc
    · exact .inr hc
  | engine => exact absurd (engineStep_frame s).frame ht
  | issue i => cases i <;> exact absurd rfl ht
  | host _ _ _ _ f => rw [← f.block] at ht; exact absurd rfl ht
  | tick => exact absurd rfl ht
  | stays => exact absurd rfl ht

/-- Settles O43: the agent is CTRL, the operation one that runs the decoder, and the decoder's step the one that stores a
bit. -/
theorem onlyBitMeasureWritesTheFrame : Obligations.OnlyBitMeasureWritesTheFrame := by
  intro s t h ht
  obtain ⟨hm, hr, hf, hc, hmove⟩ := (step_move h).frame ht
  obtain ⟨hd, hlevel, hbytes⟩ := hmove.frame ht
  exact ⟨hm, hr, hf, hd, hc, hlevel, hbytes⟩

end Sys2Proof.Machine
end

section
/-! The decoder against the opcode table: the table's rows are the operations' rows, and a word matches a row exactly when
it has the row's opcode and zeros outside the operand (R92, R94, R97, R99). -/

namespace Sys2Proof

/-- Settles O2: the round trip of each operation, field by field. -/
theorem encodedOperationsDecodeBack : Obligations.EncodedOperationsDecodeBack := fun _ h => decode_encode h

/-- Settles O3: the fields of a legal word are its opcode, its operands and required zeros. -/
theorem legalWordsEncodeBack : Obligations.LegalWordsEncodeBack := fun _ _ h => decode_legal h

/-! ## The decode function at an opcode -/

/-- The decode function of R99 at opcode `o`. -/
def decodeAt (o : Byte) (w : Word) : Decoded :=
  if o = 0x01 then .ifZero (Word.fieldN w) .busStart
  else if o = 0x02 then .ifZero (Word.fieldN w) .busStop
  else if o = 0x03 then .ifZero (w.extractLsb' 8 16) (.busSend (Word.fieldD w))
  else if o = 0x04 then .ifZero (Word.fieldN w) .busChkack
  else if o = 0x05 then .legal (.busWrite (Word.fieldA w) (Word.fieldC w) (Word.fieldD w))
  else if o = 0x10 then .ifZero (Word.fieldN w) .decCheck
  else if o = 0x11 then .ifZero (Word.fieldN w) .decFrame
  else if o = 0x12 then .ifZero (Word.fieldN w) .decService
  else if o = 0x13 then .ifZero (w.extractLsb' 2 22) (.frmRead (w.extractLsb' 0 2).toNat)
  else if o = 0x14 then .ifZero (Word.fieldN w) .ldrRead
  else if o = 0x20 then .legal (.sysDelay (Word.fieldN w).toNat)
  else .illegal .unassignedOpcode

theorem decode_eq_decodeAt {o : Byte} {w : Word} (h : Word.opc w = o) : decode w = decodeAt o w := by
  subst h; rfl

theorem decode_unassigned {w : Word}
    (h : Word.opc w ∉ ([0x01, 0x02, 0x03, 0x04, 0x05, 0x10, 0x11, 0x12, 0x13, 0x14, 0x20] : List Byte)) :
    decode w = .illegal .unassignedOpcode := by
  simp only [List.mem_cons, List.not_mem_nil, or_false, not_or] at h
  simp only [decode, h, if_false]

/-! ## The rows of the opcode table -/

/-- How many low bits of an operation's word are its operand (R93). -/
def Instr.operandBits : Instr → Nat
  | .busSend _ => 8
  | .busWrite _ _ _ => 24
  | .frmRead _ => 2
  | .sysDelay _ => 24
  | _ => 0

/-- The row of an operation: its opcode, and required zeros above the operand (R94, R99). -/
def Instr.row (i : Instr) : TableRow := ⟨i.mnemonic, i.opcode ++ 0#24, 0xFF#8 ++ BitVec.allOnes 24 <<< i.operandBits⟩

/-- An operation with its operands zero. -/
def Instr.bare : Instr → Instr
  | .busSend _ => .busSend 0
  | .busWrite _ _ _ => .busWrite 0 0 0
  | .frmRead _ => .frmRead 0
  | .sysDelay _ => .sysDelay 0
  | i => i

/-- The eleven operations in the order of the opcode table (R92). -/
def bareOperations : List Instr :=
  [.busStart, .busStop, .busSend 0, .busChkack, .busWrite 0 0 0, .decCheck, .decFrame, .decService, .frmRead 0, .ldrRead,
    .sysDelay 0]

theorem bare_mem (i : Instr) : i.bare ∈ bareOperations := by cases i <;> simp [Instr.bare, bareOperations]

theorem row_bare (i : Instr) : i.bare.row = i.row := by cases i <;> rfl

theorem opcodeTable_eq_map_row : opcodeTable = bareOperations.map Instr.row := rfl

theorem row_mem_opcodeTable (i : Instr) : i.row ∈ opcodeTable := by
  rw [opcodeTable_eq_map_row, ← row_bare]
  exact List.mem_map_of_mem (bare_mem i)

theorem exists_row_eq {r : TableRow} (h : r ∈ opcodeTable) : ∃ i : Instr, i.row = r := by
  rw [opcodeTable_eq_map_row, List.mem_map] at h
  obtain ⟨i, -, hi⟩ := h
  exact ⟨i, hi⟩

/-! ## Match and mask -/

theorem word_eq_iff {v w : Word} : v = w ↔ Word.opc v = Word.opc w ∧ Word.fieldN v = Word.fieldN w := by
  refine ⟨fun h => h ▸ ⟨rfl, rfl⟩, fun ⟨ho, hn⟩ => ?_⟩
  rw [← word_eq_opc_append v, ho, hn, word_eq_opc_append]

theorem and_highOnes_eq_zero_iff {v : Nat} (n : BitVec v) (k : Nat) :
    n &&& BitVec.allOnes v <<< k = 0#v ↔ n.extractLsb' k (v - k) = 0 := by
  constructor
  · intro h
    refine BitVec.eq_of_getLsbD_eq fun j hj => ?_
    have hz := congrArg (BitVec.getLsbD · (k + j)) h
    simpa [show k + j < v by omega, show j < v by omega, hj] using hz
  · intro h
    refine BitVec.eq_of_getLsbD_eq fun j hj => ?_
    by_cases hk : k ≤ j
    · have hz := congrArg (BitVec.getLsbD · (j - k)) h
      simp [show j - k < v - k by omega, Nat.add_sub_cancel' hk] at hz
      simp [hz]
    · simp [show j < k by omega]

theorem operandBits_le (i : Instr) : i.operandBits ≤ 24 := by cases i <;> simp [Instr.operandBits]

/-- The bits above an operation's operand are zero (R94). -/
theorem lowBits_above_operand (i : Instr) : i.lowBits.extractLsb' i.operandBits (24 - i.operandBits) = 0 := by
  cases i with
  | busSend d =>
    change (Instr.busSend d).lowBits.extractLsb' 8 16 = 0
    exact extract_two_bytes 0 0 d
  | busWrite | sysDelay => exact BitVec.of_length_zero
  | frmRead k => exact (setWidth_index_fields _).1
  | _ => rfl

/-- A word matches the row of an operation exactly when it has its opcode and zeros above its operand. -/
theorem matches_row_iff (i : Instr) (w : Word) :
    w &&& i.row.mask = i.row.value ↔
      Word.opc w = i.opcode ∧ w.extractLsb' i.operandBits (24 - i.operandBits) = 0 := by
  have hopc : Word.opc w &&& 0xFF#8 = Word.opc w := BitVec.and_allOnes
  have ha : w &&& i.row.mask = Word.opc w ++ (Word.fieldN w &&& BitVec.allOnes 24 <<< i.operandBits) := by
    conv_lhs => rw [← word_eq_opc_append w, Instr.row, BitVec.and_append, hopc]
  have hk : i.operandBits + (24 - i.operandBits) ≤ 24 := (Nat.add_sub_cancel' (operandBits_le i)).le
  rw [ha, word_eq_iff, extractLsb'_eq_fieldN w hk, ← and_highOnes_eq_zero_iff]
  simp [Instr.row]

theorem encode_matches_row (i : Instr) : encode i &&& i.row.mask = i.row.value := by
  have hk : i.operandBits + (24 - i.operandBits) ≤ 24 := (Nat.add_sub_cancel' (operandBits_le i)).le
  rw [matches_row_iff, opc_encode, extractLsb'_eq_fieldN _ hk, fieldN_encode]
  exact ⟨rfl, lowBits_above_operand i⟩

theorem decode_of_matches_row {i : Instr} {w : Word} (h : w &&& i.row.mask = i.row.value) :
    ∃ j, decode w = .legal j ∧ j.mnemonic = i.mnemonic := by
  obtain ⟨ho, hz⟩ := (matches_row_iff i w).mp h
  rw [decode_eq_decodeAt ho]
  cases i with
  | busSend d => exact ⟨.busSend (Word.fieldD w), if_pos hz, rfl⟩
  | busWrite a c d => exact ⟨.busWrite (Word.fieldA w) (Word.fieldC w) (Word.fieldD w), rfl, rfl⟩
  | frmRead k => exact ⟨.frmRead (w.extractLsb' 0 2).toNat, if_pos hz, rfl⟩
  | sysDelay n => exact ⟨.sysDelay (Word.fieldN w).toNat, rfl, rfl⟩
  | busStart => exact ⟨.busStart, if_pos hz, rfl⟩
  | busStop => exact ⟨.busStop, if_pos hz, rfl⟩
  | busChkack => exact ⟨.busChkack, if_pos hz, rfl⟩
  | decCheck => exact ⟨.decCheck, if_pos hz, rfl⟩
  | decFrame => exact ⟨.decFrame, if_pos hz, rfl⟩
  | decService => exact ⟨.decService, if_pos hz, rfl⟩
  | ldrRead => exact ⟨.ldrRead, if_pos hz, rfl⟩

/-- The words that decode to an operation of a mnemonic are those that match its row (R99). -/
theorem decode_mnemonic_iff (w : Word) (m : String) :
    (∃ i, decode w = .legal i ∧ i.mnemonic = m) ↔ ∃ r ∈ opcodeTable, r.mnemonic = m ∧ w &&& r.mask = r.value := by
  constructor
  · rintro ⟨i, hd, hm⟩
    obtain ⟨-, rfl⟩ := decode_legal hd
    exact ⟨i.row, row_mem_opcodeTable i, hm, encode_matches_row i⟩
  · rintro ⟨r, hr, rfl, hw⟩
    obtain ⟨i, rfl⟩ := exists_row_eq hr
    exact decode_of_matches_row hw

theorem opc_value_of_matches {r : TableRow} {w : Word} (hr : r ∈ opcodeTable) (hw : w &&& r.mask = r.value) :
    Word.opc r.value = Word.opc w := by
  obtain ⟨i, rfl⟩ := exists_row_eq hr
  exact (opc_append _ _).trans ((matches_row_iff i w).mp hw).1.symm

/-- No word matches two rows: the rows have different opcodes. -/
theorem row_unique {r q : TableRow} {w : Word} (hr : r ∈ opcodeTable) (hq : q ∈ opcodeTable)
    (hwr : w &&& r.mask = r.value) (hwq : w &&& q.mask = q.value) : r = q := by
  have hnodup : (opcodeTable.map fun r => Word.opc r.value).Nodup := by decide
  exact List.inj_on_of_nodup_map hnodup hr hq ((opc_value_of_matches hr hwr).trans (opc_value_of_matches hq hwq).symm)

/-- Settles O4: the decode function evaluated at each opcode, and the operations' rows, which are those of the table. -/
theorem decodeFollowsTheOpcodeTable : Obligations.DecodeFollowsTheOpcodeTable :=
  ⟨fun _ => ⟨decode_eq_decodeAt, decode_eq_decodeAt, decode_eq_decodeAt, decode_eq_decodeAt, decode_eq_decodeAt,
      decode_eq_decodeAt, decode_eq_decodeAt, decode_eq_decodeAt, decode_eq_decodeAt, decode_eq_decodeAt,
      decode_eq_decodeAt, decode_unassigned⟩,
    decode_mnemonic_iff, fun _ _ _ => row_unique⟩

/-- Settles O1: the sixteen words are closed, so the decoder is evaluated at each. -/
theorem commandWordsOfTheSpecDecode : Obligations.CommandWordsOfTheSpecDecode := by
  unfold Obligations.CommandWordsOfTheSpecDecode
  decide

end Sys2Proof
end

section
/-! The decoder under the prompt schedule: CTRL takes each step that is no spin at once, and time passes while it spins
(R200). A bit pulse is measured to the tick, and the pulses of a frame are stored one after another (R105, R107, R192). -/

namespace Sys2Proof.Machine

/-! ## Runs -/

theorem runFor_succ {s t : State} (h : step s = .next t) (k : Nat) : runFor (k + 1) s = runFor k t := by
  simp [runFor, Host.Core.run, core, h]

theorem runFor_add {k : Nat} {s t : State} (h : runFor k s = .next t) (m : Nat) : runFor (k + m) s = runFor m t := by
  induction k generalizing s with
  | zero => cases h; rw [Nat.zero_add]
  | succ k ih =>
    cases hs : step s with
    | next u =>
      rw [runFor_succ hs] at h
      rw [Nat.succ_add, runFor_succ hs, ih h]
    | fault r => simp [runFor, Host.Core.run, core, hs] at h
    | refused r => simp [runFor, Host.Core.run, core, hs] at h

/-! ## The timer over several ticks -/

theorem ticks_of_stopped {s : State} (h : s.tmrOn = false) (n : Nat) : ticks n s = { s with now := s.now + n } := by
  induction n generalizing s with
  | zero => rfl
  | succ n ih =>
    rw [ticks, ih (s := tickStep s) h]
    simp [tickStep, tmrTick, h, Nat.add_assoc, Nat.add_comm 1]

/-- A running timer counts the ticks as long as it does not overflow (R256). -/
theorem ticks_of_running {s : State} (h : s.tmrOn = true) (n : Nat) (hn : s.tmrCnt + n < 2 ^ s.launch.tmrWidth) :
    ticks n s = { s with now := s.now + n, tmrCnt := s.tmrCnt + n } := by
  induction n generalizing s with
  | zero => rfl
  | succ n ih =>
    have hmax : s.tmrCnt ≠ 2 ^ s.launch.tmrWidth - 1 := by omega
    have hcnt : (tickStep s).tmrCnt = s.tmrCnt + 1 := by simp [tmrTick, countTick, h, hmax]
    rw [ticks, ih (s := tickStep s) h (by rw [hcnt]; exact lt_of_eq_of_lt (by omega) hn), hcnt]
    simp [tickStep, tmrTick, countTick, h, hmax, Nat.add_assoc, Nat.add_comm 1]

/-! ## The decoder under the prompt schedule -/

theorem PromptRun.afterChoice_eq {s : State} (h : PromptRun s) : afterChoice s = s := by
  obtain ⟨hp, hs⟩ := h
  unfold afterChoice
  rw [hp, hs]
  exact (congrArg (fun l => { s with sched := l }) hs).symm

/-- A decoder operation is in progress, the prompt schedule chooses, and the ENGINE has nothing to do. -/
structure PromptDecoding (s : State) : Prop where
  accepted : launchRefusal s.launch = none
  prompt : PromptRun s
  ready : s.ready = false
  fault : s.fault = none
  cur : ∃ i : Instr, (i = .decFrame ∨ i = .decService) ∧ i.wf = true ∧ s.cur = some (encode i)
  quiet : engineEnabled s = false

theorem Inv.promptDecoding {s : State} (h : Inv s) (hp : PromptRun s) (hr : s.ready = false) (hf : s.fault = none)
    (hc : s.cur = some (encode .decFrame) ∨ s.cur = some (encode .decService)) : PromptDecoding s := by
  have hcur : ∃ i : Instr, (i = .decFrame ∨ i = .decService) ∧ i.wf = true ∧ s.cur = some (encode i) :=
    hc.elim (fun hc => ⟨_, .inl rfl, rfl, hc⟩) fun hc => ⟨_, .inr rfl, rfl, hc⟩
  refine ⟨h.launch, hp, hr, hf, hcur, ?_⟩
  obtain ⟨i, hi, hw, hci⟩ := hcur
  obtain ⟨j, hwj, hcj, ho⟩ := h.busy hr
  obtain rfl : i = j := encode_inj hw hwj (Option.some.inj (hci.symm.trans hcj))
  obtain ⟨⟨-, ⟨h1, h2, h3⟩, -⟩, -⟩ := ho.decoderOk hi
  simp [engineEnabled, h1, h2, h3]

namespace PromptDecoding

variable {s : State} (h : PromptDecoding s)
include h

theorem nextMove_eq : nextMove s = if decoderSpins s then .tick else .ctrl := by
  obtain ⟨i, hi, hw, hc⟩ := h.cur
  have hs : spins i s = decoderSpins s := by obtain rfl | rfl := hi <;> rfl
  have hctrl : ctrlMoves s = !decoderSpins s := by
    simp [ctrlMoves, ctrlEnabled, h.ready, h.fault, hc, decode_encode hw, hs]
  cases hd : decoderSpins s <;>
    simp [nextMove, h.prompt.1, h.prompt.2, promptMove, hostMoves, hostEnabled, h.ready, hctrl, hd, h.quiet]

theorem tick : PromptDecoding (tickStep s) := ⟨h.accepted, h.prompt, h.ready, h.fault, h.cur, h.quiet⟩

/-- While the decoder spins, time passes. -/
theorem step_of_spins (hw : decoderSpins s = true) : step s = .next (tickStep s) := by
  rw [step_tick h.accepted (by simp [h.nextMove_eq, hw]), h.prompt.afterChoice_eq]

/-- A step of the decoder that is no spin is taken at once. -/
theorem step_of_moves (hw : decoderSpins s = false) (hd : s.dstate ≠ .idle) : step s = decoderStep s := by
  obtain ⟨i, hi, hwf, hc⟩ := h.cur
  rw [step_ctrl h.accepted (by simp [h.nextMove_eq, hw]) h.ready h.fault, h.prompt.afterChoice_eq,
    ctrlStep_eq hc (decode_encode hwf), exec_ctrl i h.fault h.ready]
  obtain rfl | rfl := hi
  · rfl
  · change serviceStep s = decoderStep s
    unfold serviceStep
    split
    · next hidle => exact absurd hidle hd
    · rfl

end PromptDecoding

/-- Time passes while the decoder spins, and then it takes its step. -/
theorem PromptDecoding.runFor_wait {s t u : State} (h : PromptDecoding s) {n : Nat} (ht : ticks n s = t)
    (hspins : ∀ m, m < n → decoderSpins (ticks m s) = true) (hmoves : decoderSpins t = false)
    (hd : t.dstate ≠ .idle) (hu : decoderStep t = .next u) : runFor (n + 1) s = .next u := by
  induction n generalizing s with
  | zero =>
    subst ht
    exact (runFor_succ ((h.step_of_moves hmoves hd).trans hu) 0).trans rfl
  | succ n ih =>
    rw [runFor_succ (h.step_of_spins (hspins 0 n.succ_pos))]
    exact ih h.tick ht fun m hm => hspins (m + 1) (by omega)

/-! ## One bit pulse -/

theorem bitSeek_spins_iff {s : State} (hd : s.dstate = .bitSeek) : decoderSpins s = true ↔ s.irNow ≠ s.measLevel := by
  simp [decoderSpins, hd]

/-- The line has reached the measured level: the timer starts (R190). -/
def startBit (s : State) : State := { tmrRun (tmrClear s) with dstate := .bitMeasure }

/-- The line has left the measured level: the bit is stored and the indices advance (R192). -/
def storeBit (s : State) : State :=
  advanceBit
    (frameWrite s.frameIndex (Fin.rev s.bitIndex) (bitOf (tmrRead (tmrHalt s))) (afterTmrRead (tmrHalt s)))

theorem decoderStep_bitSeek {s : State} (hd : s.dstate = .bitSeek) (hw : decoderSpins s = false) :
    decoderStep s = .next (startBit s) := by
  have hlevel : ¬ s.irNow ≠ s.measLevel := by rw [← bitSeek_spins_iff hd, hw]; exact Bool.false_ne_true
  simp only [decoderStep, hd, bitSeekStep, if_neg hlevel, startBit]

theorem decoderStep_bitMeasure {s : State} (hd : s.dstate = .bitMeasure) (hw : decoderSpins s = false) :
    decoderStep s = .next (storeBit s) := by
  have hlevel : ¬ s.irNow = s.measLevel := by rw [← bitMeasure_spins_iff hd, hw]; exact Bool.false_ne_true
  simp only [decoderStep, hd, bitMeasureStep, if_neg hlevel, storeBit]

/-- The separator before a bit: `n` ticks, and then the measurement starts. -/
theorem PromptDecoding.runFor_separator {s : State} (h : PromptDecoding s) (hd : s.dstate = .bitSeek)
    (hon : s.tmrOn = false) {n : Nat} (hlow : ∀ u, s.now ≤ u → u < s.now + n → s.irAt u = !s.measLevel)
    (hhigh : s.irAt (s.now + n) = s.measLevel) :
    runFor (n + 1) s = .next (startBit { s with now := s.now + n }) := by
  have hmoves : decoderSpins { s with now := s.now + n } = false :=
    Bool.eq_false_of_not_eq_true fun hw => (bitSeek_spins_iff (s := { s with now := s.now + n }) hd).mp hw hhigh
  refine h.runFor_wait (ticks_of_stopped hon n) (fun m hm => ?_) hmoves (by simp [hd]) (decoderStep_bitSeek hd hmoves)
  rw [ticks_of_stopped hon]
  refine (bitSeek_spins_iff (s := { s with now := s.now + m }) hd).mpr fun he => ?_
  have hl : s.irAt (s.now + m) = !s.measLevel := hlow _ (Nat.le_add_right _ _) (by omega)
  exact Bool.not_ne_self _ (hl.symm.trans he)

/-- The interval of a bit: `n` ticks, counted, and then the bit is stored. -/
theorem PromptDecoding.runFor_interval {s : State} (h : PromptDecoding s) (hd : s.dstate = .bitMeasure)
    (hon : s.tmrOn = true) {n : Nat} (hfits : s.tmrCnt + n < 2 ^ s.launch.tmrWidth)
    (hhigh : ∀ u, s.now ≤ u → u < s.now + n → s.irAt u = s.measLevel) (hlow : s.irAt (s.now + n) = !s.measLevel) :
    runFor (n + 1) s = .next (storeBit { s with now := s.now + n, tmrCnt := s.tmrCnt + n }) := by
  have hmoves : decoderSpins { s with now := s.now + n, tmrCnt := s.tmrCnt + n } = false :=
    Bool.eq_false_of_not_eq_true fun hw => Bool.not_ne_self _ <| hlow.symm.trans <|
      (bitMeasure_spins_iff (s := { s with now := s.now + n, tmrCnt := s.tmrCnt + n }) hd).mp hw
  refine h.runFor_wait (ticks_of_running hon n hfits) (fun m hm => ?_) hmoves (by simp [hd])
    (decoderStep_bitMeasure hd hmoves)
  rw [ticks_of_running hon m (by omega)]
  exact (bitMeasure_spins_iff (s := { s with now := s.now + m, tmrCnt := s.tmrCnt + m }) hd).mpr
    (hhigh _ (Nat.le_add_right _ _) (Nat.add_lt_add_left hm _))

/-- The end of a bit pulse with a separator of `p.1` ticks and an interval of `p.2` ticks, as CTRL finds it. -/
def pulseEnd (p : Nat × Nat) (s : State) : State :=
  { s with now := s.now + p.1 + p.2, tmrCnt := p.2, tmrOvf := false, tmrOn := true, dstate := .bitMeasure }

/-- The state after a bit pulse. -/
def afterPulse (p : Nat × Nat) (s : State) : State := storeBit (pulseEnd p s)

theorem PromptDecoding.runFor_pulse {s : State} (h : PromptDecoding s) (hd : s.dstate = .bitSeek)
    (hon : s.tmrOn = false) {p : Nat × Nat} (hpos : 1 ≤ p.2) (hfits : p.2 < 2 ^ s.launch.tmrWidth)
    (hlow : ∀ u, s.now ≤ u → u < s.now + p.1 → s.irAt u = !s.measLevel)
    (hhigh : ∀ u, s.now + p.1 ≤ u → u < s.now + p.1 + p.2 → s.irAt u = s.measLevel)
    (hend : s.irAt (s.now + p.1 + p.2) = !s.measLevel) :
    runFor (p.1 + 1 + (p.2 + 1)) s = .next (afterPulse p s) := by
  have hb : PromptDecoding (startBit { s with now := s.now + p.1 }) :=
    ⟨h.accepted, h.prompt, h.ready, h.fault, h.cur, h.quiet⟩
  rw [runFor_add (h.runFor_separator hd hon hlow (hhigh _ (Nat.le_refl _) (by omega)))]
  refine (hb.runFor_interval rfl rfl (n := p.2) ?_ hhigh hend).trans ?_
  · simpa [startBit] using hfits
  · simp [startBit, afterPulse, pulseEnd]

/-! ## What a bit pulse leaves behind -/

theorem advanceBit_writes (s : State) :
    { s with fidx := (advanceBit s).fidx, bidx := (advanceBit s).bidx, dstate := (advanceBit s).dstate } =
      advanceBit s := by
  unfold advanceBit
  repeat' split
  all_goals rfl

/-- A pulse writes the frame, the indices and the decoder's state, it takes its time, and it leaves the timer halted with
its count (R192, R200). -/
theorem afterPulse_writes (p : Nat × Nat) (s : State) :
    { s with
      now := s.now + p.1 + p.2, tmrCnt := p.2, tmrOvf := false, tmrOn := false, frame := (afterPulse p s).frame
      fidx := (afterPulse p s).fidx, bidx := (afterPulse p s).bidx, dstate := (afterPulse p s).dstate } =
      afterPulse p s := by
  unfold afterPulse storeBit
  rw [← advanceBit_writes]
  rfl

theorem afterPulse_launch (p : Nat × Nat) (s : State) : (afterPulse p s).launch = s.launch := by
  rw [← afterPulse_writes]
theorem afterPulse_ir (p : Nat × Nat) (s : State) : (afterPulse p s).ir = s.ir := by
  rw [← afterPulse_writes]
theorem afterPulse_now (p : Nat × Nat) (s : State) : (afterPulse p s).now = s.now + p.1 + p.2 := by
  rw [← afterPulse_writes]
theorem afterPulse_ready (p : Nat × Nat) (s : State) : (afterPulse p s).ready = s.ready := by
  rw [← afterPulse_writes]
theorem afterPulse_leaderOk (p : Nat × Nat) (s : State) : (afterPulse p s).leaderOk = s.leaderOk := by
  rw [← afterPulse_writes]
theorem afterPulse_tmrOn (p : Nat × Nat) (s : State) : (afterPulse p s).tmrOn = false := by
  rw [← afterPulse_writes]

theorem PromptDecoding.pulse {s : State} (h : PromptDecoding s) (p : Nat × Nat) :
    PromptDecoding (afterPulse p s) := by
  rw [← afterPulse_writes]
  exact ⟨h.accepted, h.prompt, h.ready, h.fault, h.cur, h.quiet⟩

/-- The position in the frame that the indices point to (R192). -/
def bitPosition (s : State) : Nat := 8 * s.frameIndex.val + s.bitIndex.val

theorem bitPosition_lt (s : State) : bitPosition s < 32 := by unfold bitPosition; omega

theorem advanceBit_next {s : State} (h : bitPosition s < 31) :
    (advanceBit s).dstate = .bitSeek ∧ bitPosition (advanceBit s) = bitPosition s + 1 := by
  unfold bitPosition at h
  unfold advanceBit
  split
  · next hb =>
    have hnext : (s.bitIndex + 1).val = s.bitIndex.val + 1 := Fin.val_add_one_of_lt' (by omega)
    exact ⟨rfl, congrArg (8 * s.frameIndex.val + ·) hnext⟩
  · next hb =>
    have hf : s.frameIndex < 3 := by omega
    have hnext : (s.frameIndex + 1).val = s.frameIndex.val + 1 := Fin.val_add_one_of_lt' (by omega)
    rw [if_pos hf]
    refine ⟨rfl, ?_⟩
    change 8 * (s.frameIndex + 1).val + 0 = 8 * s.frameIndex.val + s.bitIndex.val + 1
    omega

theorem advanceBit_last {s : State} (h : bitPosition s = 31) : (advanceBit s).dstate = .complete := by
  have hb : ¬ s.bitIndex < 7 := by unfold bitPosition at h; omega
  have hf : ¬ s.frameIndex < 3 := by unfold bitPosition at h; omega
  rw [advanceBit, if_neg hb, if_neg hf]

theorem afterPulse_next (p : Nat × Nat) {s : State} (h : bitPosition s < 31) :
    (afterPulse p s).dstate = .bitSeek ∧ bitPosition (afterPulse p s) = bitPosition s + 1 := advanceBit_next h

theorem afterPulse_last (p : Nat × Nat) {s : State} (h : bitPosition s = 31) : (afterPulse p s).dstate = .complete :=
  advanceBit_last h

/-- Bit `m` of byte `j` of a frame, most significant bit first (R107). -/
def frameBit (f : Frame) (j : Fin 4) (m : Fin 8) : Bool := (f.get j).getLsbD (7 - m.val)

theorem frameBit_frameWrite (s : State) (i j : Fin 4) (q m : Fin 8) (b : Bool) :
    frameBit (frameWrite i (Fin.rev q) b s).frame j m =
      if 8 * j.val + m.val = 8 * i.val + q.val then b else frameBit s.frame j m := by
  have hm : 7 - m.val = (Fin.rev m).val := by simp [Fin.val_rev]
  unfold frameBit
  rw [hm]
  by_cases hj : j = i
  · subst hj
    rw [getLsbD_frameWrite]
    simp [Fin.val_inj]
  · rw [frameWrite_get_other _ _ _ hj, if_neg (by omega)]

theorem afterPulse_frameBit (p : Nat × Nat) (s : State) (j : Fin 4) (m : Fin 8) :
    frameBit (afterPulse p s).frame j m =
      if 8 * j.val + m.val = bitPosition s then bitOf p.2 else frameBit s.frame j m := by
  unfold afterPulse storeBit
  rw [advanceBit_frame_eq]
  exact frameBit_frameWrite ..

/-! ## The pulses of a frame -/

theorem Carries.of_eq {s t : State} (hir : t.ir = s.ir) (hl : t.launch = s.launch) {ps : List (Nat × Nat)} {u : Nat}
    (h : Carries s u ps) : Carries t u ps := by
  have hat (v : Nat) : t.irAt v = s.irAt v := by unfold State.irAt; rw [hir]
  have hm : t.measLevel = s.measLevel := by unfold State.measLevel; rw [hl]
  induction ps generalizing u with
  | nil => exact (hat u).trans (h.trans (congrArg _ hm.symm))
  | cons p ps ih =>
    obtain ⟨hlow, hhigh, hrest⟩ := h
    simp only [Carries, hat, hm]
    exact ⟨hlow, hhigh, ih hrest⟩

/-- Pulses begin with their separator, and the line ends at its level (R105). -/
theorem Carries.level {s : State} {t : Nat} {ps : List (Nat × Nat)} (h : Carries s t ps) (hps : ∀ p ∈ ps, 1 ≤ p.1) :
    s.irAt t = !s.measLevel := by
  cases ps with
  | nil => exact h
  | cons p ps =>
    have hp : 1 ≤ p.1 := hps p List.mem_cons_self
    exact h.1 t (Nat.le_refl _) (by omega)

/-- The decoder waits for bit `n` of the frame. -/
structure AwaitsBit (n : Nat) (s : State) : Prop where
  decoding : PromptDecoding s
  dstate : s.dstate = .bitSeek
  stopped : s.tmrOn = false
  position : bitPosition s = n

theorem AwaitsBit.pulse {n : Nat} {s : State} (h : AwaitsBit n s) (hn : n < 31) (p : Nat × Nat) :
    AwaitsBit (n + 1) (afterPulse p s) := by
  obtain rfl := h.position
  obtain ⟨hd, hp⟩ := afterPulse_next p hn
  exact ⟨h.decoding.pulse p, hd, afterPulse_tmrOn p s, hp⟩

/-- The frame `g` has the bits of `f` before position `n`, and from there on those of the pulses. -/
def BitsStored (n : Nat) (ps : List (Nat × Nat)) (f g : Frame) : Prop :=
  ∀ (j : Fin 4) (m : Fin 8),
    (8 * j.val + m.val < n → frameBit g j m = frameBit f j m) ∧
    ∀ p, n ≤ 8 * j.val + m.val → ps[8 * j.val + m.val - n]? = some p → frameBit g j m = bitOf p.2

theorem BitsStored.nil (n : Nat) (f : Frame) : BitsStored n [] f f :=
  fun _ _ => ⟨fun _ => rfl, fun _ _ h => nomatch h⟩

theorem BitsStored.cons {p : Nat × Nat} {ps : List (Nat × Nat)} {s : State} {g : Frame}
    (h : BitsStored (bitPosition s + 1) ps (afterPulse p s).frame g) : BitsStored (bitPosition s) (p :: ps) s.frame g := by
  intro j m
  obtain ⟨hbefore, hfrom⟩ := h j m
  have hbit := afterPulse_frameBit p s j m
  refine ⟨fun hlt => ?_, fun q hle hq => ?_⟩
  · rw [hbefore (by omega), hbit, if_neg (by omega)]
  · by_cases he : 8 * j.val + m.val = bitPosition s
    · obtain rfl : p = q := by simpa [he] using hq
      rw [hbefore (by omega), hbit, if_pos he]
    · refine hfrom q (by omega) ?_
      rwa [show 8 * j.val + m.val - bitPosition s = 8 * j.val + m.val - (bitPosition s + 1) + 1 by omega,
        List.getElem?_cons_succ] at hq

/-- Pulses for all the bits that are left bring the decoder to `COMPLETE` with these bits stored. -/
theorem AwaitsBit.runFor_pulses {n : Nat} {s : State} {ps : List (Nat × Nat)} (h : AwaitsBit n s) (hn : n + ps.length = 32)
    (hps : ∀ p ∈ ps, 1 ≤ p.1 ∧ 1 ≤ p.2 ∧ p.2 < 2 ^ s.launch.tmrWidth) (hc : Carries s s.now ps) :
    ∃ k t, runFor k s = .next t ∧ t.dstate = .complete ∧ t.ready = false ∧ t.leaderOk = s.leaderOk ∧
      BitsStored n ps s.frame t.frame := by
  induction ps generalizing n s with
  | nil => exact absurd hn (h.position ▸ bitPosition_lt s).ne
  | cons p ps ih =>
    obtain ⟨hlow, hhigh, hrest⟩ := hc
    obtain ⟨-, hpos, hfits⟩ := hps p List.mem_cons_self
    have hps' : ∀ q ∈ ps, 1 ≤ q.1 ∧ 1 ≤ q.2 ∧ q.2 < 2 ^ s.launch.tmrWidth :=
      fun q hq => hps q (List.mem_cons_of_mem p hq)
    have hend := hrest.level fun q hq => (hps' q hq).1
    have hrun := h.decoding.runFor_pulse h.dstate h.stopped hpos hfits hlow hhigh hend
    have hlen : n + ps.length = 31 := Nat.succ.inj hn
    have hready : (afterPulse p s).ready = false := (afterPulse_ready p s).trans h.decoding.ready
    obtain rfl := h.position
    by_cases hlast : bitPosition s = 31
    · obtain rfl : ps = [] := List.eq_nil_of_length_eq_zero (by omega)
      exact ⟨_, _, hrun, afterPulse_last p hlast, hready, afterPulse_leaderOk p s, (BitsStored.nil _ _).cons⟩
    · have hlt : bitPosition s < 31 := by omega
      have hc' : Carries (afterPulse p s) (afterPulse p s).now ps := by
        rw [afterPulse_now]
        exact hrest.of_eq (afterPulse_ir p s) (afterPulse_launch p s)
      rw [← afterPulse_launch p s] at hps'
      obtain ⟨k, t, ht, hd, hr, hl, hb⟩ := ih (h.pulse hlt p) (by omega) hps' hc'
      exact ⟨_, t, (runFor_add hrun k).trans ht, hd, hr, hl.trans (afterPulse_leaderOk p s), hb.cons⟩

/-- Settles O45: each pulse is measured to the tick and stored at the position the indices point to, and the indices pass
through the frame once. -/
theorem promptFrameIsDecoded : Obligations.PromptFrameIsDecoded := by
  intro s ps hinv hprompt hf hr hcur hd hfi hbi hlen hps hc
  have hpos : bitPosition s = 0 := by simp [bitPosition, State.frameIndex, State.bitIndex, hfi, hbi]
  have hstopped : s.tmrOn = false := by rw [hinv.timer, hd]; rfl
  have h : AwaitsBit 0 s := ⟨hinv.promptDecoding hprompt hr hf hcur, hd, hstopped, hpos⟩
  obtain ⟨k, t, hrun, hdone, hbusy, hleader, hbits⟩ := h.runFor_pulses (by omega) hps hc
  exact ⟨k, t, hrun, hdone, hbusy, hleader, fun j m p hp => (hbits j m).2 p (Nat.zero_le _) hp⟩

end Sys2Proof.Machine
end

section
/-! The bus primitives as the operations run them (R130 to R144): the four cases of one operation's step, the ENGINE's
completion, the wait that only a completion ends, and the acknowledgment that no step but `BUS.CHKACK`'s reads. -/

namespace Sys2Proof.Machine

/-! ## Rest -/

/-- Settles O6: each clause of the invariant is read off the values of reset. -/
theorem resetMeetsTheInvariant : Obligations.ResetMeetsTheInvariant := fun _ inp d h => .powerOn h inp d

/-- Settles O9: the invariant holds of every state a run reaches, and says what `READY = 1` means. -/
theorem readyMeansAtRest : Obligations.ReadyMeansAtRest := by
  intro s hs hr
  obtain ⟨⟨hp, ⟨hstart, hstop, htx⟩, hd⟩, hi⟩ := hs.inv.rest hr
  exact ⟨hd, hp, hstart, hstop, htx, hi⟩

/-! ## The four cases of a bus operation's step -/

theorem curWord_of_cur {s : State} {w : Word} (h : s.cur = some w) : s.curWord = w := by
  simp [State.curWord, h]

section
variable {i : Instr} {s : State} {k : Request} {b : Byte} (hr : s.ready = false) (hf : s.fault = none)
  (hk : busRequest i s = some (k, b))
include hr hf hk

theorem exec_bus_requests (hp : s.bph = .issue) (hb : s.busph = k.bus) : exec i s = .next (makeRequest k b s) := by
  rw [exec_ctrl i hf hr, ctrlAction_bus hk, primitiveStep_issue k b hp, if_pos hb]; rfl

theorem exec_bus_faults {w : Word} (hp : s.bph = .issue) (hb : s.busph ≠ k.bus) (hc : s.cur = some w) :
    exec i s = .next (raise k.fault w s) := by
  rw [exec_ctrl i hf hr, ctrlAction_bus hk, primitiveStep_issue k b hp, if_neg hb, curWord_of_cur hc]; rfl

theorem exec_bus_waits (hp : s.bph = .wait) (hd : s.seDone = false) : exec i s = .next s := by
  rw [exec_ctrl i hf hr, ctrlAction_bus hk, primitiveStep_wait k b hp, hd]; rfl

theorem exec_bus_ends (hp : s.bph = .wait) (hd : s.seDone = true) :
    exec i s = .next (busAdvance i (endRequest k s)) := by
  rw [exec_ctrl i hf hr, ctrlAction_bus hk, primitiveStep_wait k b hp, hd]; rfl

end

/-- Settles O20: `BUS.START` is the primitive of a start request, which asks for an idle bus. -/
theorem startPrimitive : Obligations.StartPrimitive := by
  intro s hr hf
  have hk : busRequest .busStart s = some (.start, 0) := rfl
  exact ⟨exec_bus_requests hr hf hk,
    fun _ hp hb => exec_bus_faults hr hf hk hp (by simp [hb, Request.bus]),
    exec_bus_waits hr hf hk,
    exec_bus_ends hr hf hk⟩

/-- Settles O21: `BUS.STOP` is the primitive of a stop request, which asks for an open transaction. -/
theorem stopPrimitive : Obligations.StopPrimitive := by
  intro s hr hf
  have hk : busRequest .busStop s = some (.stop, 0) := rfl
  exact ⟨exec_bus_requests hr hf hk,
    fun _ hp hb => exec_bus_faults hr hf hk hp (by simp [hb, Request.bus]),
    exec_bus_waits hr hf hk,
    exec_bus_ends hr hf hk⟩

/-- Settles O22: `BUS.SEND d` is the primitive of a byte request, which asks for an open transaction and leaves it
open. -/
theorem bytePrimitive : Obligations.BytePrimitive := by
  intro s d hr hf
  have hk : busRequest (.busSend d) s = some (.byte, d) := rfl
  exact ⟨exec_bus_requests hr hf hk,
    fun _ hp hb => exec_bus_faults hr hf hk hp (by simp [hb, Request.bus]),
    exec_bus_waits hr hf hk,
    exec_bus_ends hr hf hk⟩

/-! ## `BUS.CHKACK` -/

theorem exec_busChkack {s : State} (hr : s.ready = false) (hf : s.fault = none) :
    exec .busChkack s = .next (chkackStep s) := exec_ctrl .busChkack hf hr

theorem chkackStep_of_some {s : State} {a : Bool} (h : s.seAckstat = some a) :
    chkackStep s = complete (setRes (flagByte a) s) := by
  unfold chkackStep; rw [h]

theorem chkackStep_of_none {s : State} (h : s.seAckstat = none) : chkackStep s = raise .ackUndef s.curWord s := by
  unfold chkackStep; rw [h]

/-- Settles O23: `BUS.CHKACK` is one step, by the three values of `SE_ACKSTAT`. -/
theorem checkAckReadsTheLastLevel : Obligations.CheckAckReadsTheLastLevel := by
  intro s hr hf
  rw [exec_busChkack hr hf]
  refine ⟨fun h => ?_, fun h => ?_, fun w h hc => ?_⟩
  · rw [chkackStep_of_some h]; rfl
  · rw [chkackStep_of_some h]; rfl
  · rw [chkackStep_of_none h, curWord_of_cur hc]; rfl

/-! ## The ENGINE -/

theorem step_engine {s : State} (hl : launchRefusal s.launch = none) (hm : nextMove s = .engine) :
    step s = .next (engineStep (afterChoice s)) := by
  rw [step_eq hl, hm]; rfl

theorem txByte_of_seTxbuf {s : State} {b : Byte} (h : s.seTxbuf = some b) : s.txByte = b := by
  simp [State.txByte, h]

theorem nextAck_of_listed {s : State} {x : Bool} {xs : List Bool} (h : s.acks = x :: xs) : nextAck s = x := by
  simp [nextAck, h]

section
variable {s : State}

theorem engineStep_start (h : s.seStartReq = true) :
    engineStep s = { emit .start s with seStartReq := false, seDone := true } := if_pos h

theorem engineStep_stop (h1 : s.seStartReq = false) (h2 : s.seStopReq = true) :
    engineStep s = { emit .stop s with seStopReq := false, seDone := true } := by
  simp [engineStep, h1, h2]

theorem engineStep_byte (h1 : s.seStartReq = false) (h2 : s.seStopReq = false) (h3 : s.seTxPend = true) :
    engineStep s =
      { emit (.byte s.txByte (nextAck s)) (afterAck s) with
        seAckstat := some (nextAck s), seTxPend := false, seDone := true } := by
  simp [engineStep, h1, h2, h3]

end

/-- Settles O16: the ENGINE's step by its pending request; the level of a byte is `nextAck`. -/
theorem engineCompletesThePendingRequest : Obligations.EngineCompletesThePendingRequest := by
  intro s hl hm
  rw [step_engine hl hm]
  refine ⟨fun h => ?_, fun h1 h2 => ?_, fun b h1 h2 h3 hb => ?_, fun h1 h2 h3 => ?_⟩
  · rw [engineStep_start (s := afterChoice s) h]; rfl
  · rw [engineStep_stop (s := afterChoice s) h1 h2]; rfl
  · have hack (x : Bool) (xs : List Bool) (ha : s.acks = x :: xs) :
        nextAck (afterChoice s) = x ∧ s.acks.tail = xs := ⟨nextAck_of_listed ha, congrArg List.tail ha⟩
    refine ⟨nextAck (afterChoice s), s.acks.tail, (afterAck (afterChoice s)).draws, hack, ?_⟩
    rw [engineStep_byte (s := afterChoice s) h1 h2 h3, txByte_of_seTxbuf (s := afterChoice s) hb]
    rfl
  · rw [engineStep_of_noRequest (s := afterChoice s) ⟨h1, h2, h3⟩]

/-! ## A wait that no completion ends -/

/-- CTRL waits in a bus primitive for a completion that is not there (R130). -/
structure BusWaiting (s : State) : Prop where
  launch : launchRefusal s.launch = none
  ready : s.ready = false
  fault : s.fault = none
  phase : s.bph = .wait
  done : s.seDone = false
  bus : ∃ w i, s.cur = some w ∧ decode w = .legal i ∧ ∃ k b, busRequest i s = some (k, b)

/-- Nothing changes but the time, the timer's count and the model's own record of the schedule. -/
def OnlyTimePasses (s t : State) : Prop :=
  { s with now := t.now, tmrCnt := t.tmrCnt, tmrOvf := t.tmrOvf, sched := t.sched, draws := t.draws } = t

theorem OnlyTimePasses.trans {s t u : State} (h : OnlyTimePasses s t) (h' : OnlyTimePasses t u) :
    OnlyTimePasses s u := by
  rw [← h] at h'
  exact h'

theorem BusWaiting.onlyTimePasses {s t : State} (h : BusWaiting s) (ht : OnlyTimePasses s t) : BusWaiting t := by
  rw [← ht]
  exact ⟨h.launch, h.ready, h.fault, h.phase, h.done, h.bus⟩

/-- While CTRL waits on the bus its own step is a spin and the HOST has none; only the ENGINE could end the wait. -/
theorem BusWaiting.step {s : State} (h : BusWaiting s) (hm : nextMove s ≠ .engine) :
    ∃ t, step s = .next t ∧ OnlyTimePasses s t := by
  cases hn : nextMove s with
  | tick => exact ⟨_, step_tick h.launch hn, rfl⟩
  | engine => exact absurd hn hm
  | ctrl =>
    obtain ⟨w, i, hc, hd, k, b, hk⟩ := h.bus
    have hs : exec i (afterChoice s) = .next (afterChoice s) := exec_bus_waits h.ready h.fault hk h.phase h.done
    refine ⟨afterChoice s, ?_, rfl⟩
    rw [step_ctrl h.launch hn h.ready h.fault, ctrlStep_eq (s := afterChoice s) hc hd, hs]
  | host => exact ⟨_, step_host_disabled h.launch hn (.inl h.ready), rfl⟩
  | hostRead =>
    refine ⟨afterChoice s, ?_, rfl⟩
    rw [step_eq h.launch, hn]
    simp [agentStep, hostEnabled, h.ready]

/-- A bus wait has no timeout (R142). -/
theorem BusWaiting.runFor {k : Nat} {s : State} (h : BusWaiting s)
    (hm : ∀ j u, j < k → runFor j s = .next u → nextMove u ≠ .engine) :
    ∃ t, runFor k s = .next t ∧ OnlyTimePasses s t := by
  induction k generalizing s with
  | zero => exact ⟨s, rfl, rfl⟩
  | succ k ih =>
    obtain ⟨t, hs, ht⟩ := h.step (hm 0 s k.succ_pos rfl)
    obtain ⟨u, hu, htu⟩ := ih (h.onlyTimePasses ht) fun j u hj hu =>
      hm (j + 1) u (Nat.succ_lt_succ hj) ((runFor_succ hs j).trans hu)
    exact ⟨u, (runFor_succ hs k).trans hu, ht.trans htu⟩

/-- Settles O27: by induction on the steps, each of which lets only time pass. -/
theorem uncompletedRequestHangsTheBus : Obligations.UncompletedRequestHangsTheBus := by
  intro s w i hl hr hf hc hd hi hp hdone k hm
  obtain ⟨t, ht, hst⟩ := BusWaiting.runFor ⟨hl, hr, hf, hp, hdone, w, i, hc, hd, busRequest_of_bus hi s⟩ hm
  refine ⟨t, ht, ?_⟩
  rw [← hst]
  exact ⟨hr, hf, rfl, hp, rfl, rfl, rfl⟩

/-! ## The acknowledgment is read by `BUS.CHKACK` alone -/

/-- The state with another value in `SE_ACKSTAT`. -/
def withAck (x : Option Bool) (s : State) : State := { s with seAckstat := x }

section
variable (x : Option Bool) (s : State)

@[simp] theorem withAck_prog : (withAck x s).prog = s.prog := rfl
@[simp] theorem withAck_cpc : (withAck x s).cpc = s.cpc := rfl
@[simp] theorem withAck_client : (withAck x s).client = s.client := rfl
@[simp] theorem withAck_cur : (withAck x s).cur = s.cur := rfl
@[simp] theorem withAck_dstate : (withAck x s).dstate = s.dstate := rfl
@[simp] theorem withAck_seDone : (withAck x s).seDone = s.seDone := rfl
@[simp] theorem withAck_wseq : (withAck x s).wseq = s.wseq := rfl
@[simp] theorem withAck_ctrlEnabled : ctrlEnabled (withAck x s) = ctrlEnabled s := rfl
@[simp] theorem withAck_hostEnabled : hostEnabled (withAck x s) = hostEnabled s := rfl

end

/-- The outcome with the state it leads to changed. -/
def onNext (f : State → State) : Result → Result
  | .next s => .next (f s)
  | .fault r => .fault r
  | .refused r => .refused r

/-- `f` neither reads `SE_ACKSTAT` nor writes it. -/
def IgnoresAck (f : State → State) : Prop := ∀ x s, f (withAck x s) = withAck x (f s)

/-- The step `f` neither reads `SE_ACKSTAT` nor writes it. -/
def StepIgnoresAck (f : State → Result) : Prop := ∀ x s, f (withAck x s) = onNext (withAck x) (f s)

theorem IgnoresAck.next {f : State → State} (h : IgnoresAck f) : StepIgnoresAck fun s => .next (f s) :=
  fun x s => congrArg _ (h x s)

theorem agreeButAck_onNext (x : Option Bool) (r : Result) : AgreeButAck r (onNext (withAck x) r) := by
  cases r <;> rfl

/-! ### The bus primitives -/

theorem writeAdvance_ignoresAck : IgnoresAck writeAdvance := by
  intro x s
  unfold writeAdvance
  rw [withAck_wseq]
  cases s.wseq <;> rfl

theorem busAdvance_ignoresAck (i : Instr) : IgnoresAck (busAdvance i) := by
  cases i with
  | busWrite => exact writeAdvance_ignoresAck
  | _ => exact fun _ _ => rfl

theorem primitiveStep_ignoresAck (k : Request) (b : Byte) {f : State → State} (hf : IgnoresAck f) :
    IgnoresAck fun s => (primitiveStep k b s).followedBy f := by
  intro x s
  dsimp only
  cases hp : s.bph with
  | issue =>
    rw [primitiveStep_issue k b hp, primitiveStep_issue k b (s := withAck x s) hp]
    simp only [Primitive.followedBy]
    rw [apply_ite (withAck x)]
    cases k <;> rfl
  | wait =>
    rw [primitiveStep_wait k b hp, primitiveStep_wait k b (s := withAck x s) hp, withAck_seDone]
    cases s.seDone with
    | false => rfl
    | true => exact hf x (endRequest k s)

theorem ctrlAction_bus_withAck {i : Instr} {s : State} {k : Request} {b : Byte} (x : Option Bool)
    (hk : busRequest i s = some (k, b)) : ctrlAction i (withAck x s) = onNext (withAck x) (ctrlAction i s) := by
  rw [ctrlAction_bus hk, ctrlAction_bus (s := withAck x s) hk]
  exact congrArg _ (primitiveStep_ignoresAck k b (busAdvance_ignoresAck i) x s)

/-! ### The decoder -/

theorem debounceStep_ignoresAck : IgnoresAck debounceStep := by
  intro x s; unfold debounceStep; rw [apply_ite (withAck x)]; rfl

theorem ldrWaitHighStep_ignoresAck : IgnoresAck ldrWaitHighStep := by
  intro x s; unfold ldrWaitHighStep; rw [apply_ite (withAck x)]; rfl

theorem ldrMeasureStep_ignoresAck : IgnoresAck ldrMeasureStep := by
  intro x s; unfold ldrMeasureStep; rw [apply_ite (withAck x)]; rfl

theorem ldrWaitLowStep_ignoresAck : IgnoresAck ldrWaitLowStep := by
  intro x s; unfold ldrWaitLowStep; rw [apply_ite (withAck x), apply_ite (withAck x)]; rfl

theorem bitSeekStep_ignoresAck : IgnoresAck bitSeekStep := by
  intro x s; unfold bitSeekStep; rw [apply_ite (withAck x)]; rfl

theorem advanceBit_ignoresAck : IgnoresAck advanceBit := by
  intro x s; unfold advanceBit; rw [apply_ite (withAck x), apply_ite (withAck x)]; rfl

theorem bitMeasureStep_ignoresAck : IgnoresAck bitMeasureStep := by
  intro x s; unfold bitMeasureStep; rw [apply_ite (withAck x), ← advanceBit_ignoresAck]; rfl

theorem decoderStep_ignoresAck : StepIgnoresAck decoderStep := by
  intro x s
  unfold decoderStep
  rw [withAck_dstate]
  cases s.dstate with
  | idle => rfl
  | debounce => exact debounceStep_ignoresAck.next x s
  | ldrWaitHigh => exact ldrWaitHighStep_ignoresAck.next x s
  | ldrMeasure => exact ldrMeasureStep_ignoresAck.next x s
  | ldrWaitLow => exact ldrWaitLowStep_ignoresAck.next x s
  | bitSeek => exact bitSeekStep_ignoresAck.next x s
  | bitMeasure => exact bitMeasureStep_ignoresAck.next x s
  | complete => rfl

theorem presenceCheck_ignoresAck : IgnoresAck presenceCheck := by
  intro x s; unfold presenceCheck; rw [apply_ite (withAck x)]; rfl

theorem serviceStep_ignoresAck : StepIgnoresAck serviceStep := by
  intro x s
  unfold serviceStep
  rw [withAck_dstate]
  cases s.dstate with
  | idle => exact presenceCheck_ignoresAck.next x s
  | _ => exact decoderStep_ignoresAck x s

/-! ### Every operation -/

theorem frmReadStep_ignoresAck (k : Nat) : StepIgnoresAck (frmReadStep k) := by
  intro x s
  unfold frmReadStep
  split <;> rfl

theorem delayStep_ignoresAck (n : Nat) : IgnoresAck (delayStep n) := by
  intro x s; unfold delayStep; rw [apply_ite (withAck x)]; rfl

theorem ctrlAction_ignoresAck {i : Instr} (hi : i ≠ .busChkack) : StepIgnoresAck (ctrlAction i) := by
  intro x s
  cases i with
  | busStart | busStop | busSend | busWrite => exact ctrlAction_bus_withAck x rfl
  | busChkack => exact absurd rfl hi
  | decCheck | ldrRead => rfl
  | decFrame => exact decoderStep_ignoresAck x s
  | decService => exact serviceStep_ignoresAck x s
  | frmRead k => exact frmReadStep_ignoresAck k x s
  | sysDelay n => exact (delayStep_ignoresAck n).next x s

theorem issueActions_ignoresAck (i : Instr) : IgnoresAck fun s => issueActions i (latch i s) := by
  intro x s
  cases i <;> rfl

/-- An operation's issue ignores the acknowledgment, and so does its CTRL step but for `BUS.CHKACK`. -/
theorem exec_withAck {i : Instr} {s : State} (x : Option Bool) (h : i ≠ .busChkack ∨ s.ready = true) :
    exec i (withAck x s) = onNext (withAck x) (exec i s) := by
  cases hf : s.fault with
  | some f =>
    have hs : s.fault.isSome = true := by simp [hf]
    rw [exec_faulted i hs, exec_faulted (s := withAck x s) i hs]; rfl
  | none =>
    cases hr : s.ready with
    | true =>
      rw [exec_issue i hf hr, exec_issue i (s := withAck x s) hf hr]
      exact congrArg _ (issueActions_ignoresAck i x s)
    | false =>
      rw [exec_ctrl i hf hr, exec_ctrl i (s := withAck x s) hf hr]
      exact ctrlAction_ignoresAck (h.resolve_right (by simp [hr])) x s

/-! ### The agents -/

theorem readRes_ignoresAck {k : Byte → State → State} (hk : ∀ v, IgnoresAck (k v)) : IgnoresAck (readRes k) := by
  intro x s
  cases hv : s.res with
  | none => rw [readRes_of_none hv, readRes_of_none (s := withAck x s) hv]; rfl
  | some v =>
    rw [readRes_of_some hv, readRes_of_some (s := withAck x s) hv]
    exact hk v x { s with resReads := s.resReads ++ [v] }

theorem hostReadStep_ignoresAck : IgnoresAck hostReadStep := readRes_ignoresAck fun _ _ _ => rfl

theorem enterRow_ignoresAck (rows : List HostRow) (n : Nat) : IgnoresAck (enterRow rows n) := by
  intro x s
  unfold enterRow
  cases rows[n]? <;> rfl

theorem tableStep_ignoresAck (rows : List HostRow) (next : HostNext) : IgnoresAck (tableStep rows next) := by
  cases next with
  | finish => exact fun _ _ => rfl
  | goto n => exact enterRow_ignoresAck rows n
  | onRes cases otherwise => exact readRes_ignoresAck fun v => enterRow_ignoresAck rows (selectRow cases otherwise v)

theorem unlistedStep_ignoresAck (a : HostAction) : IgnoresAck (unlistedStep a) := by
  cases a with
  | read => exact hostReadStep_ignoresAck
  | _ => exact fun _ _ => rfl

theorem clientStep_ignoresAck : IgnoresAck clientStep := by
  intro x s
  unfold clientStep
  rw [withAck_client]
  cases s.client with
  | stream => rfl
  | rendering i forever => exact readRes_ignoresAck (fun _ _ _ => rfl) x s
  | table rows next => exact tableStep_ignoresAck rows next x s
  | unlisted n => exact unlistedStep_ignoresAck (s.unlistedAction n) x s

theorem hostStep_withAck {s : State} (x : Option Bool) (hr : s.ready = true) :
    hostStep (withAck x s) = onNext (withAck x) (hostStep s) := by
  cases hp : s.prog[s.cpc]? with
  | none =>
    simp only [hostStep, withAck_prog, withAck_cpc, hp]
    exact clientStep_ignoresAck.next x s
  | some w =>
    cases hd : decode w with
    | illegal why => rw [hostStep_illegal hp hd, hostStep_illegal (s := withAck x s) hp hd]; rfl
    | legal i =>
      rw [hostStep_legal hp hd, hostStep_legal (s := withAck x s) hp hd]
      exact exec_withAck (s := { s with cpc := s.cpc + 1 }) x (.inr hr)

theorem ctrlStep_withAck {s : State} (x : Option Bool) (hc : s.cur ≠ some (encode .busChkack)) :
    ctrlStep (withAck x s) = onNext (withAck x) (ctrlStep s) := by
  unfold ctrlStep
  rw [withAck_cur]
  split
  · next i hi =>
    obtain ⟨w, hw, hd⟩ := Option.map_eq_some_iff.mp hi
    refine exec_withAck x (.inl ?_)
    rintro rfl
    exact hc (hw.trans (congrArg some (decode_legal hd).2.symm))
  · rfl

/-- The ENGINE writes the acknowledgment with a byte transfer, and does not read it (R138). -/
theorem engineStep_withAck (x : Option Bool) (s : State) :
    AgreeButAck (.next (engineStep s)) (.next (engineStep (withAck x s))) := by
  cases h1 : s.seStartReq with
  | true => rw [engineStep_start h1, engineStep_start (s := withAck x s) h1]; rfl
  | false =>
    cases h2 : s.seStopReq with
    | true => rw [engineStep_stop h1 h2, engineStep_stop (s := withAck x s) h1 h2]; rfl
    | false =>
      cases h3 : s.seTxPend with
      | true => rw [engineStep_byte h1 h2 h3, engineStep_byte (s := withAck x s) h1 h2 h3]; rfl
      | false =>
        rw [engineStep_of_noRequest ⟨h1, h2, h3⟩, engineStep_of_noRequest (s := withAck x s) ⟨h1, h2, h3⟩]; rfl

theorem agentStep_withAck {m : Move} {s : State} (x : Option Bool)
    (h : ¬ (m = .ctrl ∧ s.cur = some (encode .busChkack))) :
    AgreeButAck (agentStep m s) (agentStep m (withAck x s)) := by
  cases m with
  | tick => rfl
  | engine => exact engineStep_withAck x s
  | ctrl =>
    have hs := ctrlStep_withAck x fun hc => h ⟨rfl, hc⟩
    simp only [agentStep, hs, withAck_ctrlEnabled]
    split
    · exact agreeButAck_onNext x _
    · rfl
  | host =>
    cases he : hostEnabled s with
    | true =>
      have hs := hostStep_withAck x (Bool.and_eq_true_iff.mp he).1
      simp only [agentStep, hs, withAck_hostEnabled, he, if_true]
      exact agreeButAck_onNext x _
    | false => simp only [agentStep, withAck_hostEnabled, he]; rfl
  | hostRead =>
    simp only [agentStep, hostReadStep_ignoresAck x s, withAck_hostEnabled]
    split <;> rfl

/-- Settles O30: each agent's step ignores `SE_ACKSTAT`, but the ENGINE's, which overwrites it, and that of
`BUS.CHKACK`, which copies it. -/
theorem acknowledgmentIsNeverEnforced : Obligations.AcknowledgmentIsNeverEnforced := by
  refine ⟨fun s x h => ?_, fun s a hr hf ha => ?_⟩
  · change AgreeButAck (step s) (step (withAck x s))
    cases hl : launchRefusal s.launch with
    | some r => simp [step, hl, withAck, AgreeButAck]
    | none =>
      rw [step_eq hl, step_eq (s := withAck x s) hl]
      exact agentStep_withAck (s := afterChoice s) x h
  · rw [exec_busChkack hr hf, chkackStep_of_some ha]; rfl

end Sys2Proof.Machine
end

section
/-! `BUS.WRITE` (R150, R152): its five stages one by one, what a run of it keeps under every schedule, and its fifteen
steps under the prompt schedule. -/

namespace Sys2Proof.Machine

/-! ## The five stages -/

/-- The stage after a stage; none follows the stop (R150). -/
def WriteStage.next : WriteStage → Option WriteStage
  | .start => some .address
  | .address => some .control
  | .control => some .data
  | .data => some .stop
  | .stop => none

theorem writeAdvance_next {s : State} {q : WriteStage} (h : s.wseq.next = some q) :
    writeAdvance s = { s with wseq := q } := by
  unfold writeAdvance
  cases hw : s.wseq <;> rw [hw] at h <;> cases h <;> rfl

theorem writeAdvance_stop {s : State} (h : s.wseq = .stop) : writeAdvance s = complete { s with wseq := .start } := by
  unfold writeAdvance; rw [h]

section
variable {s : State} {a c d b : Byte} {k : Request}

theorem busRequest_busWrite (h : writeRequest a c d s.wseq = (k, b)) :
    busRequest (.busWrite a c d) s = some (k, b) := congrArg some h

/-- The end of a stage's primitive moves to the next stage (R150). -/
theorem busAdvance_endRequest_next {q : WriteStage} (h : s.wseq.next = some q) :
    busAdvance (.busWrite a c d) (endRequest k s) = { endRequest k s with wseq := q } :=
  writeAdvance_next (s := endRequest k s) h

/-- The end of the stop completes the operation (R150). -/
theorem busAdvance_endRequest_stop (h : s.wseq = .stop) :
    busAdvance (.busWrite a c d) (endRequest k s) = complete { endRequest k s with wseq := .start } :=
  writeAdvance_stop (s := endRequest k s) h

end

/-- Stage `p` of `BUS.WRITE a, c, d` transfers byte `b`, and stage `q` follows it (R150). -/
def ByteStage (a c d : Byte) (p : WriteStage) (b : Byte) (q : WriteStage) : Prop :=
  (p = .address ∧ b = a ∧ q = .control) ∨ (p = .control ∧ b = c ∧ q = .data) ∨ (p = .data ∧ b = d ∧ q = .stop)

theorem ByteStage.writeRequest_next {a c d b : Byte} {p q : WriteStage} (h : ByteStage a c d p b q) :
    writeRequest a c d p = (.byte, b) ∧ p.next = some q := by
  obtain ⟨rfl, rfl, rfl⟩ | ⟨rfl, rfl, rfl⟩ | ⟨rfl, rfl, rfl⟩ := h <;> exact ⟨rfl, rfl⟩

/-- Settles O24: each stage is the primitive of its request, and its end is `writeAdvance`'s. -/
theorem writeTransactionStages : Obligations.WriteTransactionStages := by
  intro s a c d hr hf
  refine ⟨exec_bus_waits hr hf (busRequest_busWrite rfl), fun hw => ?_, fun b q hs => ?_, fun hw => ?_⟩
  · have hk : busRequest (.busWrite a c d) s = some (.start, 0) := busRequest_busWrite (by rw [hw]; rfl)
    refine ⟨exec_bus_requests hr hf hk, fun w hp hb => exec_bus_faults hr hf hk hp (by simp [hb, Request.bus]), ?_⟩
    intro hp hd
    rw [exec_bus_ends hr hf hk hp hd, busAdvance_endRequest_next (by rw [hw]; rfl)]
    rfl
  · obtain ⟨hq, hn⟩ := ByteStage.writeRequest_next hs
    have hk := busRequest_busWrite hq
    refine ⟨exec_bus_requests hr hf hk, fun hp hd => ?_⟩
    rw [exec_bus_ends hr hf hk hp hd, busAdvance_endRequest_next hn]
    rfl
  · have hk : busRequest (.busWrite a c d) s = some (.stop, 0) := busRequest_busWrite (by rw [hw]; rfl)
    refine ⟨exec_bus_requests hr hf hk, fun hp hd => ?_⟩
    rw [exec_bus_ends hr hf hk hp hd, busAdvance_endRequest_stop hw]
    rfl

/-- The request of an operation depends on `WSEQ` alone (R150). -/
theorem busRequest_congr (i : Instr) {s t : State} (h : t.wseq = s.wseq) : busRequest i t = busRequest i s := by
  unfold busRequest; rw [h]

/-! ## A run of `BUS.WRITE` under any schedule -/

/-- What the steps of a run of a bus operation may write, whichever agents take them (R152): the time, the bus driver and
the engine, the bus trace, `READY`, `FAULT`, and the model's own record of the schedule. -/
def BusRunBlock (s t : State) : Prop :=
  { s with
    acks := t.acks, sched := t.sched, draws := t.draws, now := t.now, ready := t.ready, tmrCnt := t.tmrCnt
    tmrOvf := t.tmrOvf, seStartReq := t.seStartReq, seStopReq := t.seStopReq, seDone := t.seDone
    seAckstat := t.seAckstat, seTxbuf := t.seTxbuf, seTxPend := t.seTxPend, bph := t.bph, wseq := t.wseq
    busph := t.busph, busTrace := t.busTrace, fault := t.fault } = t

theorem BusRunBlock.trans {s t u : State} (h : BusRunBlock s t) (h' : BusRunBlock t u) : BusRunBlock s u := by
  rw [← h] at h'
  exact h'

theorem BusBlock.busRunBlock {s t : State} (h : BusBlock s t) : BusRunBlock s t := by
  rw [← h]; rfl

theorem BusRunBlock.cur {s t : State} (h : BusRunBlock s t) : t.cur = s.cur := by rw [← h]

theorem engineStep_busRunBlock (s : State) : BusRunBlock s (engineStep s) := by
  unfold engineStep
  repeat' split
  all_goals rfl

/-! ### The events of a transaction -/

/-- The event of a completed request, with the level of its acknowledgment (R138). -/
def requestEvent (r : Request × Byte) (x : Bool) : BusEvent :=
  match r.1 with
  | .start => .start
  | .stop => .stop
  | .byte => .byte r.2 x

/-- `SE_ACKSTAT` after a completed request (R40, R138). -/
def ackAfter (k : Request) (x : Bool) (old : Option Bool) : Option Bool :=
  match k with
  | .byte => some x
  | _ => old

/-- The five events of a transaction (R152). -/
def writeEvents (a c d : Byte) (a1 a2 a3 : Bool) : List BusEvent :=
  [.start, .byte a a1, .byte c a2, .byte d a3, .stop]

/-- How many events of a transaction in progress are on the bus: those of the stages that ended, and the present one's once
it is completed. -/
def eventsSent (t : State) : Nat := t.wseq.code.toNat + t.seDone.toNat

/-- From `s` to `t` the first `n` events of a transaction were appended, and after the data byte its level is the one in
`SE_ACKSTAT` (R152). -/
def Sent (a c d : Byte) (s t : State) (n : Nat) : Prop :=
  ∃ a1 a2 a3 : Bool, t.busTrace = s.busTrace ++ (writeEvents a c d a1 a2 a3).take n ∧
    (4 ≤ n → t.seAckstat = some a3)

theorem WriteStage.code_next {p q : WriteStage} (h : p.next = some q) : q.code.toNat = p.code.toNat + 1 := by
  cases p <;> cases h <;> rfl

/-- The event of a stage is the next one of the transaction. -/
theorem Sent.succ {a c d : Byte} {s t u : State} {q : WriteStage} {x : Bool} (h : Sent a c d s t q.code.toNat)
    (ht : u.busTrace = t.busTrace ++ [requestEvent (writeRequest a c d q) x])
    (ha : u.seAckstat = ackAfter (writeRequest a c d q).1 x t.seAckstat) : Sent a c d s u (q.code.toNat + 1) := by
  obtain ⟨a1, a2, a3, htr, hack⟩ := h
  rw [htr, List.append_assoc] at ht
  cases q with
  | start => exact ⟨a1, a2, a3, ht, by simp [WriteStage.code]⟩
  | address => exact ⟨x, a2, a3, ht, by simp [WriteStage.code]⟩
  | control => exact ⟨a1, x, a3, ht, by simp [WriteStage.code]⟩
  | data => exact ⟨a1, a2, x, ht, fun _ => ha⟩
  | stop => exact ⟨a1, a2, a3, ht, fun _ => ha.trans (hack (by simp [WriteStage.code]))⟩

theorem Pending.engineStep_emits {k : Request} {b : Byte} {t : State} (h : Pending k t)
    (hb : t.seTxPend = true → t.seTxbuf = some b) :
    (engineStep t).busTrace = t.busTrace ++ [requestEvent (k, b) (nextAck t)] ∧
      (engineStep t).seAckstat = ackAfter k (nextAck t) t.seAckstat := by
  obtain ⟨h1, h2, h3, -, -⟩ := h
  cases k with
  | start => rw [engineStep_start h1]; exact ⟨rfl, rfl⟩
  | stop => rw [engineStep_stop h1 h2]; exact ⟨rfl, rfl⟩
  | byte => rw [engineStep_byte h1 h2 h3, txByte_of_seTxbuf (hb h3)]; exact ⟨rfl, rfl⟩

/-! ### The invariant of the run -/

/-- From `s` on, a `BUS.WRITE` is in progress in `t`: its present stage is where `BPH` says, the bus is open as that stage
asks, and the events of the stages done are on it. -/
structure Writing (a c d : Byte) (s t : State) : Prop where
  block : BusRunBlock s t
  ready : t.ready = false
  fault : t.fault = none
  bus : t.busph = (writeRequest a c d t.wseq).1.bus
  primitive : PrimitiveOk (writeRequest a c d t.wseq).1 t
  byte : t.seTxPend = true → t.seTxbuf = some (writeRequest a c d t.wseq).2
  sent : Sent a c d s t (eventsSent t)

/-- The `BUS.WRITE` that was in progress from `s` on has completed in `t`. -/
structure Written (a c d : Byte) (s t : State) : Prop where
  block : BusRunBlock s t
  ready : t.ready = true
  fault : t.fault = none
  bus : t.busph = .idle
  stage : t.wseq = .start
  rest : BusResting t
  sent : Sent a c d s t 5

theorem Pending.seDone {k : Request} {s : State} (h : Pending k s) : s.seDone = false := by
  obtain ⟨-, -, -, hd, -⟩ := h
  exact hd

theorem PrimitiveOk.pending_or_noRequest {k : Request} {s : State} (h : PrimitiveOk k s) :
    Pending k s ∨ NoRequest s := by
  cases hp : s.bph with
  | issue => exact .inr (h.1 hp).1
  | wait => exact (h.2 hp).imp_right And.left

theorem EngineQuiet.seTxPend_ne {s : State} (h : EngineQuiet s) : s.seTxPend ≠ true := by
  obtain ⟨⟨-, -, h⟩, -⟩ := h
  simp [h]

theorem makeRequest_txbuf {k : Request} {b : Byte} {s : State} (hq : EngineQuiet s)
    (h : (makeRequest k b s).seTxPend = true) : (makeRequest k b s).seTxbuf = some b := by
  cases k with
  | byte => rfl
  | start | stop => exact absurd h hq.seTxPend_ne

/-- What the request of a stage writes (R131, R133, R135). -/
theorem makeRequest_writes (k : Request) (b : Byte) (s : State) :
    ∃ r1 r2 x p, makeRequest k b s =
      { s with seStartReq := r1, seStopReq := r2, seTxbuf := x, seTxPend := p, bph := .wait } := by
  cases k <;> exact ⟨_, _, _, _, rfl⟩

theorem WriteStage.eq_stop_of_next {q : WriteStage} (h : q.next = none) : q = .stop := by
  cases q with
  | stop => rfl
  | _ => cases h

/-- The end of a stage leaves the bus open as the next stage asks (R150). -/
theorem busphAfter_next {a c d : Byte} {s : State} {q : WriteStage} (h : s.wseq.next = some q)
    (hb : s.busph = (writeRequest a c d s.wseq).1.bus) :
    busphAfter (writeRequest a c d s.wseq).1 s = (writeRequest a c d q).1.bus := by
  cases hw : s.wseq <;> rw [hw] at h hb <;> cases h
  · rfl
  all_goals exact hb

section
variable {a c d : Byte} {s t u : State} (h : Writing a c d s t)
include h

theorem Writing.afterChoice : Writing a c d s (afterChoice t) :=
  ⟨h.block.trans rfl, h.ready, h.fault, h.bus, h.primitive, h.byte, h.sent⟩

theorem Writing.tickStep : Writing a c d s (tickStep t) :=
  ⟨h.block.trans rfl, h.ready, h.fault, h.bus, h.primitive, h.byte, h.sent⟩

/-- The ENGINE's step puts the event of the present stage on the bus, if its request is pending. -/
theorem Writing.engineStep : Writing a c d s (engineStep t) := by
  obtain hp | hn := h.primitive.pending_or_noRequest
  · have f := engineStep_frame t
    obtain ⟨htr, hack⟩ := hp.engineStep_emits h.byte
    obtain ⟨⟨-, -, htx⟩, hdone⟩ := hp.engineStep_answered
    have hsent := h.sent
    rw [eventsSent, hp.seDone] at hsent
    refine ⟨h.block.trans (engineStep_busRunBlock t), f.ready.trans h.ready, f.fault.trans h.fault, ?_, ?_, ?_, ?_⟩
    · rw [f.busph, f.wseq]; exact h.bus
    · rw [f.wseq]; exact h.primitive.engineStep
    · rw [htx]; exact fun e => nomatch e
    · rw [eventsSent, f.wseq, hdone]; exact hsent.succ htr hack
  · rw [engineStep_of_noRequest hn]; exact h

/-- CTRL makes the request of the present stage, for which the bus is open as it asks. -/
theorem Writing.makeRequest (hp : t.bph = .issue) :
    Writing a c d s (makeRequest (writeRequest a c d t.wseq).1 (writeRequest a c d t.wseq).2 t) := by
  have hq := h.primitive.1 hp
  have hprim := PrimitiveOk.makeRequest hq (writeRequest a c d t.wseq).1 (writeRequest a c d t.wseq).2
  have htx := makeRequest_txbuf (k := (writeRequest a c d t.wseq).1) (b := (writeRequest a c d t.wseq).2) hq
  obtain ⟨r1, r2, x, p, he⟩ := makeRequest_writes (writeRequest a c d t.wseq).1 (writeRequest a c d t.wseq).2 t
  rw [he] at hprim htx ⊢
  exact ⟨h.block.trans rfl, h.ready, h.fault, h.bus, hprim, htx, h.sent⟩

/-- CTRL sees the completion of the present stage's request: the next stage begins, or the transaction is complete. -/
theorem Writing.endRequest (hp : t.bph = .wait) (hd : t.seDone = true)
    (hb : BusRunBlock t (busAdvance (.busWrite a c d) (endRequest (writeRequest a c d t.wseq).1 t))) :
    Writing a c d s (busAdvance (.busWrite a c d) (endRequest (writeRequest a c d t.wseq).1 t)) ∨
      Written a c d s (busAdvance (.busWrite a c d) (endRequest (writeRequest a c d t.wseq).1 t)) := by
  have hrest := h.primitive.endRequest hp hd
  have hsent := h.sent
  rw [eventsSent, hd] at hsent
  cases hn : t.wseq.next with
  | some q =>
    rw [busAdvance_endRequest_next hn] at hb ⊢
    refine .inl ⟨h.block.trans hb, h.ready, h.fault, busphAfter_next hn h.bus, hrest.primitiveOk _, ?_, ?_⟩
    · exact fun e => absurd e hrest.2.seTxPend_ne
    · rw [Bool.toNat_true, ← WriteStage.code_next hn] at hsent
      exact hsent
  | none =>
    have hw := WriteStage.eq_stop_of_next hn
    rw [busAdvance_endRequest_stop hw] at hb ⊢
    rw [hw] at hsent hrest hb ⊢
    exact .inr ⟨h.block.trans hb, rfl, h.fault, rfl, rfl, hrest, hsent⟩

/-- CTRL's step: the request, the spin, or the end of the present stage. No precondition fails. -/
theorem Writing.ctrlAction (hs : ctrlAction (.busWrite a c d) t = .next u) :
    Writing a c d s u ∨ Written a c d s u := by
  have hk : busRequest (.busWrite a c d) t = some (writeRequest a c d t.wseq) := rfl
  have hb := (ctrlAction_bus_move hk hs).block.busRunBlock
  rw [← exec_ctrl _ h.fault h.ready] at hs
  cases hp : t.bph with
  | issue =>
    cases (exec_bus_requests h.ready h.fault hk hp h.bus).symm.trans hs
    exact .inl (h.makeRequest hp)
  | wait =>
    cases hd : t.seDone with
    | false =>
      cases (exec_bus_waits h.ready h.fault hk hp hd).symm.trans hs
      exact .inl h
    | true =>
      cases (exec_bus_ends h.ready h.fault hk hp hd).symm.trans hs
      exact h.endRequest hp hd hb

/-- Every step of every agent keeps the transaction in progress or completes it. -/
theorem Writing.agentMove {m : Move} (hc : t.cur = some (encode (.busWrite a c d))) (hm : AgentMove t m u) :
    Writing a c d s u ∨ Written a c d s u := by
  cases hm with
  | tick => exact .inl h.tickStep
  | engine => exact .inl h.engineStep
  | ctrl j _ _ hw hj hs =>
    obtain rfl : .busWrite a c d = j := encode_inj rfl hw (Option.some.inj (hc.symm.trans hj))
    exact h.ctrlAction hs
  | issue _ hr => exact absurd (h.ready.symm.trans hr) Bool.false_ne_true
  | host _ _ hr => exact absurd (h.ready.symm.trans hr) Bool.false_ne_true
  | stays => exact .inl h

end

/-- The run of a transaction in progress: it is still in progress, or has completed in the last step. -/
theorem Writing.busyRun {a c d : Byte} {s t : State} (h : Writing a c d s s)
    (hc : s.cur = some (encode (.busWrite a c d))) (hrun : BusyRun s t) : Writing a c d s t ∨ Written a c d s t := by
  induction hrun with
  | here => exact .inl h
  | step _ hb hs ih =>
    obtain ht | ht := ih
    · exact ht.afterChoice.agentMove (ht.block.cur.trans hc) (step_move hs)
    · exact absurd (hb.symm.trans ht.ready) Bool.false_ne_true

theorem Writing.refl {a c d : Byte} {s : State} (hr : s.ready = false) (hf : s.fault = none) (hp : s.bph = .issue)
    (hw : s.wseq = .start) (hb : s.busph = .idle) (hq : EngineQuiet s) : Writing a c d s s := by
  have hrest : BusResting s := ⟨hp, hq⟩
  refine ⟨rfl, hr, hf, ?_, hrest.primitiveOk _, ?_, false, false, false, ?_, ?_⟩
  · rw [hb, hw]; rfl
  · exact fun e => absurd e hq.seTxPend_ne
  · simp [eventsSent, hw, hq.2, WriteStage.code]
  · simp [eventsSent, hw, hq.2, WriteStage.code]

/-- Settles O25: every step of the run keeps `Writing`, and the step that completes it leaves all five events sent. -/
theorem completedWriteEmitsFiveEvents : Obligations.CompletedWriteEmitsFiveEvents := by
  intro s t a c d hr hf hc hp hw hb hq hrun ht
  obtain h | ⟨hblock, -, hfault, hbus, hstage, ⟨hbph, hquiet⟩, a1, a2, a3, htrace, hack⟩ :=
    (Writing.refl hr hf hp hw hb hq).busyRun hc hrun
  · exact absurd (h.ready.symm.trans ht) Bool.false_ne_true
  · refine ⟨a1, a2, a3, htrace, hack (by decide), hbus, hbph, hstage, hquiet, hfault, ?_⟩
    rw [← hblock]
    exact ⟨rfl, rfl, rfl, rfl, rfl, rfl, rfl, rfl, rfl, rfl, rfl, rfl⟩

/-! ## The prompt schedule -/

/-- Bus operation `i` is in progress, the prompt schedule chooses, and the ENGINE is not stalled. -/
structure PromptBus (i : Instr) (s : State) : Prop where
  accepted : launchRefusal s.launch = none
  prompt : PromptRun s
  runs : s.launch.stall = false
  ready : s.ready = false
  fault : s.fault = none
  cur : s.cur = some (encode i)
  wf : i.wf = true

namespace PromptBus

variable {i : Instr} {s : State} {k : Request} {b : Byte} (h : PromptBus i s)
include h

theorem nextMove_eq (hk : busRequest i s = some (k, b)) :
    nextMove s = if !busSpins s then .ctrl else if engineEnabled s then .engine else .tick := by
  have hctrl : ctrlMoves s = !busSpins s := by
    simp [ctrlMoves, ctrlEnabled, h.ready, h.fault, h.cur, decode_encode h.wf, spins_of_busRequest hk]
  simp [nextMove, h.prompt.1, h.prompt.2, promptMove, hostMoves, hostEnabled, h.ready, hctrl, h.runs]

/-- CTRL takes its step at once unless it spins. -/
theorem step_ctrl (hk : busRequest i s = some (k, b)) (hs : busSpins s = false) : step s = exec i s := by
  rw [Machine.step_ctrl h.accepted (by simp [h.nextMove_eq hk, hs]) h.ready h.fault, h.prompt.afterChoice_eq,
    ctrlStep_eq h.cur (decode_encode h.wf)]

/-- While CTRL waits, the ENGINE completes the pending request. -/
theorem step_engine (hk : busRequest i s = some (k, b)) (hs : busSpins s = true) (he : engineEnabled s = true) :
    step s = .next (engineStep s) := by
  rw [Machine.step_engine h.accepted (by simp [h.nextMove_eq hk, hs, he]), h.prompt.afterChoice_eq]

theorem makeRequest : PromptBus i (makeRequest k b s) := by
  obtain ⟨r1, r2, x, p, he⟩ := makeRequest_writes k b s
  rw [he]
  exact ⟨h.accepted, h.prompt, h.runs, h.ready, h.fault, h.cur, h.wf⟩

theorem engineStep : PromptBus i (engineStep s) := by
  have f := engineStep_frame s
  refine ⟨?_, ⟨?_, f.sched.trans h.prompt.2⟩, ?_, f.ready.trans h.ready, f.fault.trans h.fault, f.cur.trans h.cur, h.wf⟩
  · rw [f.launch]; exact h.accepted
  · rw [f.launch]; exact h.prompt.1
  · rw [f.launch]; exact h.runs

/-- A primitive takes three steps: its request, the completion, and its end (R130, R200). -/
theorem runFor_primitive (hk : busRequest i s = some (k, b)) (hrest : BusResting s) (hb : s.busph = k.bus) :
    runFor 3 s = .next (busAdvance i (endRequest k (Machine.engineStep (Machine.makeRequest k b s)))) := by
  obtain ⟨hp, hq⟩ := hrest
  have hpend := Pending.makeRequest hq k b
  have f := engineStep_frame (Machine.makeRequest k b s)
  have hw : (Machine.makeRequest k b s).wseq = s.wseq := by cases k <;> rfl
  have h1 := h.makeRequest (k := k) (b := b)
  have h2 := h1.engineStep
  have hk1 : busRequest i (Machine.makeRequest k b s) = some (k, b) := (busRequest_congr i hw).trans hk
  have hk2 : busRequest i (Machine.engineStep (Machine.makeRequest k b s)) = some (k, b) :=
    (busRequest_congr i f.wseq).trans hk1
  have hphase : (Machine.engineStep (Machine.makeRequest k b s)).bph = .wait := f.bph.trans (makeRequest_bph k b s)
  have hdone := hpend.engineStep_answered.2
  rw [runFor_succ ((h.step_ctrl hk (by simp [busSpins, hp])).trans (exec_bus_requests h.ready h.fault hk hp hb)),
    runFor_succ (h1.step_engine hk1 (by simp [busSpins, hpend.seDone]) hpend.engineEnabled),
    runFor_succ ((h2.step_ctrl hk2 (by simp [busSpins, hdone])).trans
      (exec_bus_ends h2.ready h2.fault hk2 hphase hdone))]
  rfl

end PromptBus

/-! ### The state after a primitive -/

/-- A listed level is used up without a draw (R47). -/
theorem afterAck_of_listed {s : State} {x : Bool} {xs : List Bool} (h : s.acks = x :: xs) :
    afterAck s = { s with acks := xs } := by
  simp [afterAck, h]

section
variable {s : State} (h : BusResting s) (b : Byte)
include h

theorem BusResting.afterStart :
    endRequest .start (engineStep (makeRequest .start b s)) =
      { s with busph := .active, busTrace := s.busTrace ++ [.start] } := by
  obtain ⟨hp, ⟨h1, -, -⟩, hd⟩ := h
  rw [engineStep_start rfl]
  simp [endRequest, busphAfter, clearDone, emit, makeRequest, requestStart, hp, h1, hd]

theorem BusResting.afterStop :
    endRequest .stop (engineStep (makeRequest .stop b s)) =
      { s with busph := .idle, busTrace := s.busTrace ++ [.stop] } := by
  obtain ⟨hp, ⟨h1, h2, -⟩, hd⟩ := h
  rw [engineStep_stop (s := makeRequest .stop b s) h1 rfl]
  simp [endRequest, busphAfter, clearDone, emit, makeRequest, requestStop, hp, h2, hd]

theorem BusResting.afterByte {x : Bool} {xs : List Bool} (ha : s.acks = x :: xs) :
    endRequest .byte (engineStep (makeRequest .byte b s)) =
      { s with acks := xs, seTxbuf := some b, seAckstat := some x, busTrace := s.busTrace ++ [.byte b x] } := by
  obtain ⟨hp, ⟨h1, h2, h3⟩, hd⟩ := h
  rw [engineStep_byte (s := makeRequest .byte b s) h1 h2 rfl, nextAck_of_listed (s := makeRequest .byte b s) ha,
    afterAck_of_listed (s := makeRequest .byte b s) ha]
  simp [endRequest, busphAfter, clearDone, emit, makeRequest, loadTx, State.txByte, hp, h3, hd]

end

/-! ### The fifteen steps -/

/-- Under the prompt schedule a `BUS.WRITE` is about to begin stage `q`, whose precondition holds. -/
structure PromptStage (a c d : Byte) (q : WriteStage) (s : State) : Prop where
  running : PromptBus (.busWrite a c d) s
  rest : BusResting s
  stage : s.wseq = q
  bus : s.busph = (writeRequest a c d q).1.bus

/-- The state once the start stage has ended. -/
def afterStartStage (s : State) : State :=
  { s with busph := .active, wseq := .address, busTrace := s.busTrace ++ [.start] }

/-- The state once a byte stage has ended: byte `b` was answered with level `x`, the levels `xs` are left, and stage `q` is
next. -/
def afterByteStage (q : WriteStage) (b : Byte) (x : Bool) (xs : List Bool) (s : State) : State :=
  { s with
    acks := xs, seTxbuf := some b, seAckstat := some x, wseq := q, busTrace := s.busTrace ++ [.byte b x] }

/-- The state once the stop stage has ended. -/
def afterStopStage (s : State) : State :=
  { s with busph := .idle, wseq := .start, ready := true, busTrace := s.busTrace ++ [.stop] }

section
variable {a c d b : Byte} {p q : WriteStage} {s t : State}

theorem PromptStage.runFor_stage {k : Request} (h : PromptStage a c d q s) (hq : writeRequest a c d q = (k, b))
    (ht : endRequest k (engineStep (makeRequest k b s)) = t) : runFor 3 s = .next (writeAdvance t) := by
  obtain ⟨hrun, hrest, rfl, hb⟩ := h
  rw [hrun.runFor_primitive (busRequest_busWrite hq) hrest (by rw [hb, hq]), ht]
  rfl

theorem PromptStage.start (h : PromptStage a c d .start s) :
    runFor 3 s = .next (afterStartStage s) ∧ PromptStage a c d .address (afterStartStage s) := by
  obtain ⟨hl, hp, hs, hr, hf, hc, hw⟩ := h.running
  refine ⟨?_, ⟨hl, hp, hs, hr, hf, hc, hw⟩, h.rest, rfl, rfl⟩
  exact (h.runFor_stage rfl (h.rest.afterStart 0)).trans
    (congrArg Host.Outcome.next (writeAdvance_next (congrArg WriteStage.next h.stage)))

theorem PromptStage.byte (h : PromptStage a c d p s) {x : Bool} {xs : List Bool} (ha : s.acks = x :: xs)
    (hstage : ByteStage a c d p b q) :
    runFor 3 s = .next (afterByteStage q b x xs s) ∧ PromptStage a c d q (afterByteStage q b x xs s) := by
  obtain ⟨hq, hn⟩ := hstage.writeRequest_next
  obtain ⟨hl, hp, hs, hr, hf, hc, hw⟩ := h.running
  obtain rfl := h.stage
  have hopen := busphAfter_next hn h.bus
  rw [hq] at hopen
  refine ⟨?_, ⟨hl, hp, hs, hr, hf, hc, hw⟩, h.rest, rfl, hopen⟩
  exact (h.runFor_stage hq (h.rest.afterByte b ha)).trans (congrArg Host.Outcome.next (writeAdvance_next hn))

theorem PromptStage.stop (h : PromptStage a c d .stop s) : runFor 3 s = .next (afterStopStage s) :=
  (h.runFor_stage rfl (h.rest.afterStop 0)).trans (congrArg Host.Outcome.next (writeAdvance_stop h.stage))

end

/-- Settles O26: five stages of three steps each. -/
theorem writeCompletesPromptly : Obligations.WriteCompletesPromptly := by
  intro s a c d a1 a2 a3 l hl hp hs hr hf hc hb hw hbus hq ha
  have h0 : PromptStage a c d .start s := ⟨⟨hl, hp, hs, hr, hf, hc, rfl⟩, ⟨hb, hq⟩, hw, hbus⟩
  obtain ⟨hrun1, h1⟩ := h0.start
  obtain ⟨hrun2, h2⟩ := h1.byte (x := a1) ha (Or.inl ⟨rfl, rfl, rfl⟩)
  obtain ⟨hrun3, h3⟩ := h2.byte (x := a2) rfl (Or.inr (.inl ⟨rfl, rfl, rfl⟩))
  obtain ⟨hrun4, h4⟩ := h3.byte (x := a3) rfl (Or.inr (.inr ⟨rfl, rfl, rfl⟩))
  rw [runFor_add hrun1 12, runFor_add hrun2 9, runFor_add hrun3 6, runFor_add hrun4 3, h4.stop]
  simp [afterStartStage, afterByteStage, afterStopStage, hw, hbus]

end Sys2Proof.Machine
end

section
/-! The display client: what its pseudo-operations expand into (R160 to R168). -/

namespace Sys2Proof.Machine

/-! ## The digits (R166) -/

theorem hexDigit_toNat_of_le {n : BitVec 4} (h : n.toNat ≤ 9) : (hexDigit n).toNat = 0x30 + n.toNat := by
  have hn : n ≤ 9 := h
  rw [hexDigit, if_pos hn]
  bv_omega

theorem hexDigit_toNat_of_ge {n : BitVec 4} (h : 10 ≤ n.toNat) : (hexDigit n).toNat = 0x41 + (n.toNat - 10) := by
  have hn : ¬ n ≤ 9 := Nat.not_le.mpr h
  rw [hexDigit, if_neg hn]
  bv_omega

/-! ## The characters sent (R168) -/

/-- The operation is a character transaction: a `BUS.WRITE` with the control code `CC_CHAR` (R162). -/
def isCharacter (l : Launch) : Instr → Bool
  | .busWrite _ c _ => c == l.ccChar
  | _ => false

/-- The character transactions among some operations, in order. -/
def characters (l : Launch) (is : List Instr) : List Instr := is.filter (isCharacter l)

theorem characters_append (l : Launch) (is js : List Instr) :
    characters l (is ++ js) = characters l is ++ characters l js := List.filter_append ..

theorem characters_sendChar (l : Launch) (b : Byte) : characters l (sendChar l b) = sendChar l b := by
  simp [characters, sendChar, isCharacter]

theorem characters_sendCmd {l : Launch} (h : l.ccChar ≠ Config.ccCmd) (b : Byte) : characters l (sendCmd l b) = [] := by
  simp [characters, sendCmd, settle, isCharacter, h.symm]

theorem characters_lcdLocate {l : Launch} (h : l.ccChar ≠ Config.ccCmd) (col row : Nat) :
    characters l (lcdLocate l col row) = [] := characters_sendCmd h _

theorem characters_lcdHex {l : Launch} (h : l.ccChar ≠ Config.ccCmd) (col row : Nat) (v : Byte) :
    characters l (lcdHex l col row v) =
      sendChar l (hexDigit (highNibble v)) ++ sendChar l (hexDigit (lowNibble v)) := by
  unfold lcdHex
  split <;> simp [characters_append, characters_lcdLocate h, characters_sendChar]

/-- Settles O56: each branch of `hexDigit` stays below 256; the commands of `LCD_HEX` are no character transactions, and
its two `SEND_CHAR` are. -/
theorem hexRendering : Obligations.HexRendering :=
  ⟨fun _ => ⟨hexDigit_toNat_of_le, hexDigit_toNat_of_ge⟩, fun _ col row v h => characters_lcdHex h col row v⟩

/-! ## The expansions (R161 to R165, R167) -/

theorem locateAddress_toNat (l : Launch) (col row : Nat) :
    ((locateAddress l col row).toNat : Int) =
      ((l.locBase : Int) + l.locStride * ((row : Int) - 1) + ((col : Int) - 1)) % 256 := by
  rw [locateAddress, BitVec.toNat_ofInt, Int.toNat_of_nonneg (Int.emod_nonneg _ (by decide))]
  rfl

/-- Settles O57: the definitions are the expansions, and the cursor address is reduced modulo `2 ^ 8`. -/
theorem displayExpansions : Obligations.DisplayExpansions := by
  intro l code v col row
  refine ⟨rfl, Nat.one_mul _, rfl, rfl, ?_, ⟨_, rfl, locateAddress_toNat l col row⟩, ?_⟩
  · exact congrArg (l.initSeq.flatMap · ++ lcdClear l) (funext fun x => by cases x <;> rfl)
  · unfold lcdHex
    cases l.hexLocate with
    | each => exact (List.append_assoc ..).symm
    | once => rfl

/-! ## The operations used (R160) -/

/-- A well-formed operation of the display driver: a `BUS.WRITE` to the display with one of the two control codes, or a
`SYS.DELAY` (R160). -/
def DisplayOperation (l : Launch) (i : Instr) : Prop :=
  i.wf = true ∧ ((∃ c d, (c = Config.ccCmd ∨ c = l.ccChar) ∧ i = .busWrite Config.aDev c d) ∨ ∃ n, i = .sysDelay n)

theorem displayOperation_sysDelay (l : Launch) {n : Nat} (h : n < 2 ^ 24) : DisplayOperation l (.sysDelay n) :=
  ⟨decide_eq_true h, .inr ⟨n, rfl⟩⟩

/-- Every operation of the expansion is one of the display driver's. -/
def DisplayOnly (l : Launch) (is : List Instr) : Prop := ∀ i ∈ is, DisplayOperation l i

theorem DisplayOnly.append {l : Launch} {is js : List Instr} (h : DisplayOnly l is) (h' : DisplayOnly l js) :
    DisplayOnly l (is ++ js) := List.forall_mem_append.mpr ⟨h, h'⟩

theorem displayOnly_sendChar (l : Launch) (b : Byte) : DisplayOnly l (sendChar l b) :=
  List.forall_mem_singleton.mpr ⟨rfl, .inl ⟨_, _, .inr rfl, rfl⟩⟩

/-- The settle of an accepted launch fits the operand of `SYS.DELAY` (R10). -/
theorem tCmd_lt_of_accepted {l : Launch} (h : launchRefusal l = none) : l.tCmd < 2 ^ 24 := by
  have hok : launchParametersOk l = true := by
    by_contra hn
    rw [launchRefusal, if_pos (by simpa using hn)] at h
    cases h
  simp only [launchParametersOk, Bool.and_eq_true, decide_eq_true_eq] at hok
  obtain ⟨⟨⟨-, hcmd⟩, -⟩, -⟩ := hok
  exact hcmd

section
variable {l : Launch} (hl : launchRefusal l = none)
include hl

theorem displayOnly_sendCmd (b : Byte) : DisplayOnly l (sendCmd l b) :=
  List.forall_mem_cons.mpr ⟨⟨rfl, .inl ⟨_, _, .inl rfl, rfl⟩⟩,
    List.forall_mem_singleton.mpr (displayOperation_sysDelay l (tCmd_lt_of_accepted hl))⟩

theorem displayOnly_initItem (x : InitItem) : DisplayOnly l (initItem l x) := by
  cases x with
  | cmd b => exact displayOnly_sendCmd hl b
  | delay n => exact List.forall_mem_singleton.mpr (displayOperation_sysDelay l n.isLt)

theorem displayOnly_lcdClear : DisplayOnly l (lcdClear l) := displayOnly_sendCmd hl _

theorem displayOnly_lcdLocate (col row : Nat) : DisplayOnly l (lcdLocate l col row) := displayOnly_sendCmd hl _

theorem displayOnly_lcdInit : DisplayOnly l (lcdInit l) := by
  have hitems : DisplayOnly l (l.initSeq.flatMap (initItem l)) := fun i hi => by
    obtain ⟨x, -, hx⟩ := List.mem_flatMap.mp hi
    exact displayOnly_initItem hl x i hx
  exact hitems.append (displayOnly_lcdClear hl)

theorem displayOnly_lcdHex (col row : Nat) (v : Byte) : DisplayOnly l (lcdHex l col row v) := by
  have hlocate (k : Nat) := displayOnly_lcdLocate hl k row
  have hchar := displayOnly_sendChar l
  unfold lcdHex
  split
  · exact ((hlocate col).append (hchar _)).append ((hlocate (col + 1)).append (hchar _))
  · exact ((hlocate col).append (hchar _)).append (hchar _)

end

/-- Settles O58: every expansion is made of `SEND_CMD`, `SEND_CHAR` and the delays of `INIT_SEQ`, whose operands fit their
words in an accepted launch. -/
theorem displayUsesOnlyWritesAndDelays : Obligations.DisplayUsesOnlyWritesAndDelays := by
  intro l hl i h
  have hi : DisplayOperation l i := by
    obtain h | h | ⟨b, h⟩ | ⟨b, h⟩ | ⟨col, row, h⟩ | ⟨col, row, v, h⟩ := h
    · exact displayOnly_lcdInit hl i h
    · exact displayOnly_lcdClear hl i h
    · exact displayOnly_sendCmd hl b i h
    · exact displayOnly_sendChar l b i h
    · exact displayOnly_lcdLocate hl col row i h
    · exact displayOnly_lcdHex hl col row v i h
  obtain ⟨hwf, hkind⟩ := hi
  exact ⟨decode_encode hwf, hkind⟩

end Sys2Proof.Machine
end

section
/-! The decoder's operations step by step (R182 to R194, R210, R212): the two decision functions, the step of each
decoder state, and the two reads. -/

namespace Sys2Proof.Machine

/-! ## The decision functions -/

theorem classify_iff (l : Launch) (n : Nat) :
    classify l n = true ↔ 0x1F ≤ n ∧ (l.leaderMax = none ∨ ∃ m, l.leaderMax = some m ∧ n ≤ m) := by
  rw [classify, Bool.and_eq_true, decide_eq_true_iff]
  refine and_congr_right' ?_
  cases l.leaderMax <;> simp

theorem bitOf_iff (n : Nat) : bitOf n = true ↔ 0x04 ≤ n := decide_eq_true_iff

/-- Settles O35: the boundaries follow from the two equivalences. -/
theorem thresholdFunctions : Obligations.ThresholdFunctions := by
  refine ⟨classify_iff, fun l h => ⟨?_, ?_⟩, bitOf_iff, rfl, rfl, rfl, fun w hw => ?_⟩
  · exact (classify_iff l _).mpr ⟨Nat.le_refl _, .inl h⟩
  · exact Bool.eq_false_of_not_eq_true fun hc => absurd ((classify_iff l _).mp hc).1 (by decide)
  · have : 2 ^ 6 ≤ 2 ^ w := Nat.pow_le_pow_right (by decide) hw
    exact (bitOf_iff _).mpr (by omega)

/-! ## The decoder in an operation -/

/-- `DEC.FRAME` and `DEC.SERVICE` take the decoder's steps (R184, R222). -/
theorem exec_decoder {i : Instr} {s : State} (hi : i = .decFrame ∨ i = .decService) (hr : s.ready = false)
    (hf : s.fault = none) (hd : s.dstate ≠ .idle) : exec i s = decoderStep s := by
  rw [exec_ctrl i hf hr]
  obtain rfl | rfl := hi
  · rfl
  · change serviceStep s = decoderStep s
    unfold serviceStep
    split
    · next hidle => exact absurd hidle hd
    · rfl

/-- `CUR` holds the word of an operation that runs the decoder. -/
theorem exists_decoderOperation {s : State}
    (h : s.cur = some (encode .decFrame) ∨ s.cur = some (encode .decService)) :
    ∃ i : Instr, (i = .decFrame ∨ i = .decService) ∧ i.wf = true ∧ s.cur = some (encode i) :=
  h.elim (fun hc => ⟨_, .inl rfl, rfl, hc⟩) fun hc => ⟨_, .inr rfl, rfl, hc⟩

/-- The decoder has a step in every state but `IDLE`. -/
theorem exists_decoderStep {s : State} (hd : s.dstate ≠ .idle) : ∃ t, decoderStep s = .next t := by
  unfold decoderStep
  split
  · next hidle => exact absurd hidle hd
  all_goals exact ⟨_, rfl⟩

theorem decoderStep_of_spins {s : State} (h : decoderSpins s = true) : decoderStep s = .next s := by
  obtain ⟨t, ht⟩ := exists_decoderStep (dstate_ne_idle_of_decoderSpins h)
  rw [ht, (decoderStep_move ht).eq_self_iff.mpr h]

/-- A spin of the decoder leaves the state of the operation as it is (R63, R196). -/
theorem exec_of_decoderSpins {i : Instr} {s : State} (hi : i = .decFrame ∨ i = .decService) (hr : s.ready = false)
    (hf : s.fault = none) (h : decoderSpins s = true) : exec i s = .next s :=
  (exec_decoder hi hr hf (dstate_ne_idle_of_decoderSpins h)).trans (decoderStep_of_spins h)

/-! ## The timer's reading -/

/-- Without an overflow, or with `wrap`, a read is the count, and no draw (R259). -/
theorem tmrRead_of_count {s : State} (h : s.tmrOvf = false ∨ s.launch.ovfMode = .wrap) :
    tmrRead s = s.tmrCnt ∧ (afterTmrRead s).draws = s.draws := by
  have hdraw : tmrReadIsDraw s = false := by obtain h | h := h <;> simp [tmrReadIsDraw, h]
  simp [tmrRead, afterTmrRead, hdraw]

/-! ## The decoder's states one by one -/

section
variable {s : State}

theorem debounce_spins_iff {t0 : Nat} (hd : s.dstate = .debounce) (ht : s.dlyT0 = some t0) :
    decoderSpins s = true ↔ s.now < t0 + s.launch.tDebounce := by
  simp [decoderSpins, hd, State.delayRuns, State.delayStart, ht]

theorem ldrWaitHigh_spins_iff (hd : s.dstate = .ldrWaitHigh) : decoderSpins s = true ↔ s.irNow = false := by
  simp [decoderSpins, hd]

theorem ldrMeasure_spins_iff (hd : s.dstate = .ldrMeasure) : decoderSpins s = true ↔ s.irNow = true := by
  simp [decoderSpins, hd]

theorem ldrWaitLow_spins_iff (hd : s.dstate = .ldrWaitLow) : decoderSpins s = true ↔ s.irNow = s.measLevel := by
  simp [decoderSpins, hd]

theorem decoderStep_debounce {t0 : Nat} (hd : s.dstate = .debounce) (ht : s.dlyT0 = some t0)
    (h : t0 + s.launch.tDebounce ≤ s.now) :
    decoderStep s = .next { s with ind := true, dstate := .ldrWaitHigh } := by
  have hn : s.delayRuns s.launch.tDebounce = false := by simpa [State.delayRuns, State.delayStart, ht] using h
  simp [decoderStep, hd, debounceStep, hn]

theorem decoderStep_ldrWaitHigh (hd : s.dstate = .ldrWaitHigh) (h : s.irNow = true) :
    decoderStep s = .next { s with tmrCnt := 0, tmrOvf := false, tmrOn := true, dstate := .ldrMeasure } := by
  simp [decoderStep, hd, ldrWaitHighStep, h, tmrRun, tmrClear]

/-- The line has left level 1: the leader is classified (R188). -/
def storeLeader (s : State) : State :=
  { afterTmrRead (tmrHalt s) with leaderOk := classify s.launch (tmrRead (tmrHalt s)), dstate := .ldrWaitLow }

theorem decoderStep_ldrMeasure (hd : s.dstate = .ldrMeasure) (h : s.irNow = false) :
    decoderStep s = .next (storeLeader s) := by
  simp [decoderStep, hd, ldrMeasureStep, h, storeLeader]

theorem decoderStep_ldrWaitLow (hd : s.dstate = .ldrWaitLow) (h : s.irNow ≠ s.measLevel) :
    decoderStep s = .next (if gatedOut s then { s with dstate := .complete }
      else { s with fidx := some 0, bidx := some 0, dstate := .bitSeek }) := by
  simp [decoderStep, hd, ldrWaitLowStep, h]

theorem decoderStep_complete (hd : s.dstate = .complete) :
    decoderStep s = .next { s with tmrOn := false, ind := false, dstate := .idle, ready := true } := by
  simp [decoderStep, hd, completeStep, complete, tmrHalt]

theorem gatedOut_iff : gatedOut s = true ↔ s.launch.gate = .gated ∧ s.leaderOk = false := by
  simp [gatedOut]

/-- The advance of indices that hold `fi` and `bi` (R192). -/
theorem advanceBit_of_indices {fi : Fin 4} {bi : Fin 8} (hfi : s.fidx = some fi) (hbi : s.bidx = some bi) :
    advanceBit s =
      if bi.val < 7 then { s with bidx := some (bi + 1), dstate := .bitSeek }
      else if fi.val < 3 then { s with fidx := some (fi + 1), bidx := some 0, dstate := .bitSeek }
      else { s with dstate := .complete } := by
  simp [advanceBit, State.bitIndex, State.frameIndex, hfi, hbi, Fin.lt_def]

end

/-- Settles O36: each state's wait is a spin, and its other step is the decoder's; the count read after the leader fits
the timer. -/
theorem leaderSteps : Obligations.LeaderSteps := by
  intro s i hi hr hf
  have hspin := exec_of_decoderSpins hi hr hf
  have hexec {d : DState} (hd : s.dstate = d) (hne : d ≠ .idle) : exec i s = decoderStep s :=
    exec_decoder hi hr hf (hd ▸ hne)
  refine ⟨fun t0 hd ht h => ?_, fun t0 hd ht h => ?_, fun hd h => ?_, fun hd h => ?_, fun hd h => ?_,
    fun hd h hcount => ?_⟩
  · exact hspin ((debounce_spins_iff hd ht).mpr h)
  · exact (hexec hd (by decide)).trans (decoderStep_debounce hd ht h)
  · exact hspin ((ldrWaitHigh_spins_iff hd).mpr h)
  · exact (hexec hd (by decide)).trans (decoderStep_ldrWaitHigh hd h)
  · exact hspin ((ldrMeasure_spins_iff hd).mpr h)
  · exact ⟨tmrRead (tmrHalt s), (afterTmrRead (tmrHalt s)).draws, tmrRead_lt (tmrHalt s) hcount,
      tmrRead_of_count (s := tmrHalt s), (hexec hd (by decide)).trans (decoderStep_ldrMeasure hd h)⟩

/-- Settles O37: the wait is a spin, and the gate decides where it ends. -/
theorem gateStep : Obligations.GateStep := by
  intro s i hi hr hf hd
  have hexec : exec i s = decoderStep s := exec_decoder hi hr hf (by simp [hd])
  refine ⟨fun h => ?_, fun h hg hl => ?_, fun h hg => ?_⟩
  · exact exec_of_decoderSpins hi hr hf ((ldrWaitLow_spins_iff hd).mpr h)
  · rw [hexec, decoderStep_ldrWaitLow hd h, if_pos (gatedOut_iff.mpr ⟨hg, hl⟩)]
  · have hopen : ¬ gatedOut s = true := fun hc => by
      obtain ⟨hgate, hleader⟩ := gatedOut_iff.mp hc
      exact hg.elim (· hgate) fun hl => by simp [hleader] at hl
    rw [hexec, decoderStep_ldrWaitLow hd h, if_neg hopen]

/-- Settles O38: the waits are spins; the measurement ends with a frame write, which replaces one bit, and the advance of
the indices. -/
theorem bitSteps : Obligations.BitSteps := by
  intro s i hi hr hf
  have hspin := exec_of_decoderSpins hi hr hf
  refine ⟨fun hd h => ?_, fun hd h => ?_, fun hd h => ?_, fun fi bi hd h hfi hbi hcount => ?_⟩
  · exact hspin ((bitSeek_spins_iff hd).mpr h)
  · have hw : decoderSpins s = false := Bool.eq_false_of_not_eq_true fun hw => (bitSeek_spins_iff hd).mp hw h
    exact (exec_decoder hi hr hf (by simp [hd])).trans (decoderStep_bitSeek hd hw)
  · exact hspin ((bitMeasure_spins_iff hd).mpr h)
  · have hw : decoderSpins s = false := Bool.eq_false_of_not_eq_true fun hw => h ((bitMeasure_spins_iff hd).mp hw)
    have hfidx : s.frameIndex = fi := by simp [State.frameIndex, hfi]
    have hbidx : s.bitIndex = bi := by simp [State.bitIndex, hbi]
    refine ⟨tmrRead (tmrHalt s), (afterTmrRead (tmrHalt s)).draws,
      putBit (s.frame.get fi) (Fin.rev bi) (bitOf (tmrRead (tmrHalt s))), tmrRead_lt (tmrHalt s) hcount,
      tmrRead_of_count (s := tmrHalt s), fun k hk => ?_, ?_⟩
    · have hrev : (Fin.rev bi).val = 7 - bi.val := by simp [Fin.val_rev]
      rw [getLsbD_putBit _ _ _ k hk, hrev]
      rfl
    · rw [exec_decoder hi hr hf (by simp [hd]), decoderStep_bitMeasure hd hw, storeBit, hfidx, hbidx]
      exact congrArg _ (advanceBit_of_indices (s := frameWrite fi (Fin.rev bi) _ (afterTmrRead (tmrHalt s))) hfi hbi)

/-- Settles O39: the step of `COMPLETE` is the same in both operations. -/
theorem frameComplete : Obligations.FrameComplete := fun _ _ hi hr hf hd =>
  (exec_decoder hi hr hf (by simp [hd])).trans (decoderStep_complete hd)

/-! ## The reads -/

/-- Settles O41: both reads are one step that sets RES and completes; an index that no frame byte has
stops the machine. -/
theorem frameAndFlagReads : Obligations.FrameAndFlagReads := by
  intro s hr hf
  have hexec (i : Instr) : exec i s = ctrlAction i s := exec_ctrl i hf hr
  refine ⟨hexec _, hexec _, hexec _, hexec _, fun k hk => ?_, fun hl => ?_, fun hl => ?_⟩
  · exact (hexec _).trans (dif_neg (Nat.not_lt.mpr hk))
  · exact (hexec _).trans (congrArg (fun b => Host.Outcome.next (complete (setRes (flagByte b) s))) hl)
  · exact (hexec _).trans (congrArg (fun b => Host.Outcome.next (complete (setRes (flagByte b) s))) hl)

end Sys2Proof.Machine
end

section
/-! The timer over any number of ticks (R198, R256), and a measurement under the prompt schedule (R200). -/

namespace Sys2Proof.Machine

/-! ## Ticks -/

/-- A tick of a running timer counts modulo `2 ^ W`, and remembers that the count passed its maximum (R256). -/
theorem tickStep_of_running {s : State} (hc : s.tmrCnt < 2 ^ s.launch.tmrWidth) (hon : s.tmrOn = true) :
    tickStep s = { s with
      now := s.now + 1, tmrCnt := (s.tmrCnt + 1) % 2 ^ s.launch.tmrWidth
      tmrOvf := s.tmrOvf || decide (2 ^ s.launch.tmrWidth ≤ s.tmrCnt + 1) } := by
  by_cases hmax : s.tmrCnt = 2 ^ s.launch.tmrWidth - 1
  · have hsum : s.tmrCnt + 1 = 2 ^ s.launch.tmrWidth := by omega
    rw [hsum]
    simp [tickStep, tmrTick, countTick, hon, hmax]
  · have hlt : s.tmrCnt + 1 < 2 ^ s.launch.tmrWidth := by omega
    simp [tickStep, tmrTick, countTick, hon, hmax, Nat.mod_eq_of_lt hlt, hlt]

/-- A count passes its maximum in `n + 1` ticks in the first of them or in the others. -/
theorem overflows_succ {w c : Nat} (n : Nat) (hc : c < 2 ^ w) :
    (decide (2 ^ w ≤ c + 1) || decide (2 ^ w ≤ (c + 1) % 2 ^ w + n)) = decide (2 ^ w ≤ c + (n + 1)) := by
  by_cases h : c + 1 < 2 ^ w
  · rw [Nat.mod_eq_of_lt h, decide_eq_false (Nat.not_le.mpr h), Bool.false_or, Nat.add_assoc, Nat.add_comm 1]
  · rw [decide_eq_true (Nat.not_lt.mp h), decide_eq_true (by omega : 2 ^ w ≤ c + (n + 1)), Bool.true_or]

/-- Settles O34, by induction on the ticks: each is a tick of the count modulo `2 ^ W`. -/
theorem timerCountsTheTicks : Obligations.TimerCountsTheTicks := by
  refine fun n s hc => ⟨fun hon => ?_, fun hoff => ticks_of_stopped hoff n⟩
  induction n generalizing s with
  | zero => simp [ticks, Nat.mod_eq_of_lt hc, Nat.not_le.mpr hc]
  | succ n ih =>
    rw [ticks, ih (tickStep s) (tmrTick_count_lt s hc) hon, tickStep_of_running hc hon]
    simp only [Nat.mod_add_mod, Bool.or_assoc, overflows_succ n hc, Nat.add_assoc, Nat.add_comm 1]

/-! ## A leader under the prompt schedule -/

/-- The line has reached level 1: the timer starts (R186). -/
def startLeader (s : State) : State :=
  { s with tmrCnt := 0, tmrOvf := false, tmrOn := true, dstate := .ldrMeasure }

/-- The silence before a leader: `n` ticks, and then the measurement starts. -/
theorem PromptDecoding.runFor_silence {s : State} (h : PromptDecoding s) (hd : s.dstate = .ldrWaitHigh)
    (hon : s.tmrOn = false) {n : Nat} (hlow : ∀ u, s.now ≤ u → u < s.now + n → s.irAt u = false)
    (hhigh : s.irAt (s.now + n) = true) : runFor (n + 1) s = .next (startLeader { s with now := s.now + n }) := by
  have hmoves : decoderSpins { s with now := s.now + n } = false := Bool.eq_false_of_not_eq_true fun hw =>
    Bool.false_ne_true (((ldrWaitHigh_spins_iff (s := { s with now := s.now + n }) hd).mp hw).symm.trans hhigh)
  refine h.runFor_wait (ticks_of_stopped hon n) (fun m hm => ?_) hmoves (by simp [hd])
    (decoderStep_ldrWaitHigh hd hhigh)
  rw [ticks_of_stopped hon]
  exact (ldrWaitHigh_spins_iff (s := { s with now := s.now + m }) hd).mpr
    (hlow _ (Nat.le_add_right _ _) (Nat.add_lt_add_left hm _))

/-- The leader itself: `n` ticks, counted, and then it is classified. -/
theorem PromptDecoding.runFor_leader {s : State} (h : PromptDecoding s) (hd : s.dstate = .ldrMeasure)
    (hon : s.tmrOn = true) {n : Nat} (hfits : s.tmrCnt + n < 2 ^ s.launch.tmrWidth)
    (hhigh : ∀ u, s.now ≤ u → u < s.now + n → s.irAt u = true) (hlow : s.irAt (s.now + n) = false) :
    runFor (n + 1) s = .next (storeLeader { s with now := s.now + n, tmrCnt := s.tmrCnt + n }) := by
  have hmoves : decoderSpins { s with now := s.now + n, tmrCnt := s.tmrCnt + n } = false :=
    Bool.eq_false_of_not_eq_true fun hw => Bool.false_ne_true <| hlow.symm.trans <|
      (ldrMeasure_spins_iff (s := { s with now := s.now + n, tmrCnt := s.tmrCnt + n }) hd).mp hw
  refine h.runFor_wait (ticks_of_running hon n hfits) (fun m hm => ?_) hmoves (by simp [hd])
    (decoderStep_ldrMeasure hd hlow)
  rw [ticks_of_running hon m (by omega)]
  exact (ldrMeasure_spins_iff (s := { s with now := s.now + m, tmrCnt := s.tmrCnt + m }) hd).mpr
    (hhigh _ (Nat.le_add_right _ _) (Nat.add_lt_add_left hm _))

/-- The state after a leader of `n` ticks that began `m` ticks from now: it is measured to the tick (R200). -/
theorem PromptDecoding.runFor_leaderPulse {s : State} (h : PromptDecoding s) (hd : s.dstate = .ldrWaitHigh)
    (hon : s.tmrOn = false) {m n : Nat} (hpos : 1 ≤ n) (hfits : n < 2 ^ s.launch.tmrWidth)
    (hlow : ∀ u, s.now ≤ u → u < s.now + m → s.irAt u = false)
    (hhigh : ∀ u, s.now + m ≤ u → u < s.now + m + n → s.irAt u = true) (hend : s.irAt (s.now + m + n) = false) :
    runFor (m + 1 + (n + 1)) s = .next { s with
      now := s.now + m + n, tmrCnt := n, tmrOvf := false, tmrOn := false
      leaderOk := classify s.launch n, dstate := .ldrWaitLow } := by
  have hb : PromptDecoding (startLeader { s with now := s.now + m }) :=
    ⟨h.accepted, h.prompt, h.ready, h.fault, h.cur, h.quiet⟩
  rw [runFor_add (h.runFor_silence hd hon hlow (hhigh _ (Nat.le_refl _) (by omega)))]
  refine (hb.runFor_leader rfl rfl (n := n) ?_ hhigh hend).trans ?_
  · simpa [startLeader] using hfits
  · simp [startLeader, storeLeader, afterTmrRead, tmrRead, tmrReadIsDraw, tmrHalt]

/-- Settles O44: a leader and a bit are each a wait for the measured level and a measured interval. -/
theorem promptMeasurementIsExact : Obligations.PromptMeasurementIsExact := by
  intro s t1 t2 hinv hprompt hf hr hcur hnow hlt hfits
  obtain ⟨m, rfl⟩ := Nat.exists_eq_add_of_le hnow
  obtain ⟨n, rfl⟩ := Nat.exists_eq_add_of_le hlt.le
  rw [Nat.add_sub_cancel_left] at hfits ⊢
  have h : PromptDecoding s := hinv.promptDecoding hprompt hr hf hcur
  have hpos : 1 ≤ n := by omega
  refine ⟨fun hd hlow hhigh hend => ?_, fun fi bi hd hfi hbi hlow hhigh hend => ?_⟩
  · have hon : s.tmrOn = false := by rw [hinv.timer, hd]; rfl
    exact ⟨_, h.runFor_leaderPulse hd hon hpos hfits hlow hhigh hend⟩
  · have hon : s.tmrOn = false := by rw [hinv.timer, hd]; rfl
    have hposition : 8 * fi.val + bi.val = bitPosition s := by
      simp [bitPosition, State.frameIndex, State.bitIndex, hfi, hbi]
    refine ⟨_, _, h.runFor_pulse (p := (m, n)) hd hon hpos hfits hlow hhigh hend, afterPulse_now _ s, ?_,
      afterPulse_tmrOn _ s, (afterPulse_frameBit (m, n) s fi bi).trans (if_pos hposition)⟩
    rw [← afterPulse_writes]

end Sys2Proof.Machine
end

section
/-! What the frame held before an extraction does not matter to it (R206): two runs that differ in bits yet to be stored
take the same steps, and agree once the last bit is stored. -/

namespace Sys2Proof.Machine

/-! ## The bits of a frame -/

theorem Frame.ext_frameBit {f g : Frame} (h : ∀ j m, frameBit f j m = frameBit g j m) : f = g := by
  refine Frame.ext_get fun j => BitVec.eq_of_getLsbD_eq fun k hk => ?_
  have hbit := h j (Fin.rev ⟨k, hk⟩)
  rwa [frameBit, frameBit, Fin.val_rev, show 7 - (8 - (k + 1)) = k by omega] at hbit

/-- Two frames have the same bits before position `n`. -/
def AgreeBefore (n : Nat) (f g : Frame) : Prop :=
  ∀ (j : Fin 4) (m : Fin 8), 8 * j.val + m.val < n → frameBit f j m = frameBit g j m

theorem AgreeBefore.eq {f g : Frame} (h : AgreeBefore 32 f g) : f = g := Frame.ext_frameBit fun j m => h j m (by omega)

/-! ## The state with another frame -/

/-- The state with another frame. -/
def withFrame (f : Frame) (s : State) : State := { s with frame := f }

theorem engineStep_withFrame (f : Frame) (s : State) : engineStep (withFrame f s) = withFrame f (engineStep s) := by
  unfold engineStep
  rw [apply_ite (withFrame f), apply_ite (withFrame f), apply_ite (withFrame f)]
  rfl

theorem advanceBit_withFrame (f : Frame) (s : State) : advanceBit (withFrame f s) = withFrame f (advanceBit s) := by
  unfold advanceBit
  rw [apply_ite (withFrame f), apply_ite (withFrame f)]
  rfl

/-- The frame `f` with the bit that `storeBit` stores in `s` (R192). -/
def storedFrame (s : State) (f : Frame) : Frame :=
  (frameWrite s.frameIndex (Fin.rev s.bitIndex) (bitOf (tmrRead (tmrHalt s))) (withFrame f s)).frame

theorem storeBit_withFrame (f : Frame) (s : State) :
    storeBit (withFrame f s) = withFrame (storedFrame s f) (storeBit s) :=
  advanceBit_withFrame _ (frameWrite s.frameIndex (Fin.rev s.bitIndex) (bitOf (tmrRead (tmrHalt s)))
    (afterTmrRead (tmrHalt s)))

theorem storeBit_next {s : State} (h : bitPosition s < 31) :
    (storeBit s).dstate = .bitSeek ∧ bitPosition (storeBit s) = bitPosition s + 1 := advanceBit_next h

theorem storeBit_keeps (s : State) :
    (storeBit s).ready = s.ready ∧ (storeBit s).fault = s.fault ∧ (storeBit s).cur = s.cur := by
  rw [storeBit, ← advanceBit_writes]
  exact ⟨rfl, rfl, rfl⟩

theorem storeBit_frame (s : State) : (storeBit s).frame = storedFrame s s.frame := by
  rw [storeBit, advanceBit_frame_eq]; rfl

/-- Storing the bit at the position of the indices makes two frames agree on one bit more. -/
theorem AgreeBefore.storedFrame {s : State} {f : Frame} (h : AgreeBefore (bitPosition s) f s.frame) :
    AgreeBefore (bitPosition s + 1) (storedFrame s f) (storeBit s).frame := by
  intro j m hlt
  rw [storeBit_frame, Machine.storedFrame, Machine.storedFrame, frameBit_frameWrite, frameBit_frameWrite]
  split
  · rfl
  · next hne =>
    have hne : 8 * j.val + m.val ≠ bitPosition s := hne
    exact h j m (by omega)

/-! ## An extraction in progress -/

/-- A decoder operation is extracting the bits, and `f` has the bits that are stored already. -/
structure Extracting (f : Frame) (s : State) : Prop where
  ready : s.ready = false
  fault : s.fault = none
  cur : ∃ i : Instr, (i = .decFrame ∨ i = .decService) ∧ i.wf = true ∧ s.cur = some (encode i)
  dstate : s.dstate = .bitSeek ∨ s.dstate = .bitMeasure
  agree : AgreeBefore (bitPosition s) f s.frame

/-- The outcome `q` is `r` but for the frame of its state; then the extraction goes on, or the frames agree as well. -/
def SameButFrame (r q : Result) : Prop :=
  ∀ t, r = .next t → ∃ f, q = .next (withFrame f t) ∧ (Extracting f t ∨ f = t.frame)

namespace Extracting

variable {f : Frame} {s : State} (h : Extracting f s)
include h

theorem stays : SameButFrame (.next s) (.next (withFrame f s)) := by
  rintro t ⟨⟩
  exact ⟨f, rfl, .inl h⟩

/-- A stored bit is the last one, or the extraction goes on with the next one. -/
theorem storeBit : Extracting (storedFrame s f) (storeBit s) ∨ storedFrame s f = (storeBit s).frame := by
  have hagree := h.agree.storedFrame
  have hlt := bitPosition_lt s
  by_cases hlast : bitPosition s = 31
  · rw [hlast] at hagree
    exact .inr hagree.eq
  · obtain ⟨hd, hp⟩ := storeBit_next (show bitPosition s < 31 by omega)
    obtain ⟨hr, hf, hc⟩ := storeBit_keeps s
    exact .inl ⟨hr.trans h.ready, hf.trans h.fault, hc ▸ h.cur, .inl hd, hp ▸ hagree⟩

theorem decoderStep : SameButFrame (decoderStep s) (decoderStep (withFrame f s)) := by
  cases hw : decoderSpins s with
  | true =>
    rw [decoderStep_of_spins hw, decoderStep_of_spins (s := withFrame f s) hw]
    exact h.stays
  | false =>
    obtain hd | hd := h.dstate
    · rw [decoderStep_bitSeek hd hw, decoderStep_bitSeek (s := withFrame f s) hd hw]
      rintro t ⟨⟩
      exact ⟨f, rfl, .inl ⟨h.ready, h.fault, h.cur, .inr rfl, h.agree⟩⟩
    · rw [decoderStep_bitMeasure hd hw, decoderStep_bitMeasure (s := withFrame f s) hd hw]
      rintro t ⟨⟩
      exact ⟨_, congrArg _ (storeBit_withFrame f s), h.storeBit⟩

theorem ctrlStep : SameButFrame (ctrlStep s) (ctrlStep (withFrame f s)) := by
  obtain ⟨i, hi, hw, hc⟩ := h.cur
  have hd : s.dstate ≠ .idle := by obtain hd | hd := h.dstate <;> simp [hd]
  rw [ctrlStep_eq hc (decode_encode hw), exec_decoder hi h.ready h.fault hd,
    ctrlStep_eq (s := withFrame f s) hc (decode_encode hw), exec_decoder (s := withFrame f s) hi h.ready h.fault hd]
  exact h.decoderStep

theorem engineStep : Extracting f (engineStep s) := by
  have e := engineStep_frame s
  have hp : bitPosition (Machine.engineStep s) = bitPosition s := by
    simp only [bitPosition, State.frameIndex, State.bitIndex, e.fidx, e.bidx]
  exact ⟨e.ready ▸ h.ready, e.fault ▸ h.fault, e.cur ▸ h.cur, e.dstate ▸ h.dstate, hp ▸ e.frame ▸ h.agree⟩

theorem afterChoice : Extracting f (afterChoice s) := ⟨h.ready, h.fault, h.cur, h.dstate, h.agree⟩

theorem tickStep : Extracting f (tickStep s) := ⟨h.ready, h.fault, h.cur, h.dstate, h.agree⟩

/-- Every agent's step: only CTRL's has to do with the frame, and the HOST has none. -/
theorem agentStep (m : Move) : SameButFrame (agentStep m s) (agentStep m (withFrame f s)) := by
  have hctrl : ctrlEnabled s = true := by simp [ctrlEnabled, h.ready, h.fault]
  have hhost : ¬ hostEnabled s = true := by simp [hostEnabled, h.ready]
  cases m with
  | tick =>
    rintro t ⟨⟩
    exact ⟨f, rfl, .inl h.tickStep⟩
  | engine =>
    rintro t ⟨⟩
    exact ⟨f, congrArg _ (engineStep_withFrame f s), .inl h.engineStep⟩
  | ctrl =>
    have hctrl' : ctrlEnabled (withFrame f s) = true := hctrl
    rw [Machine.agentStep, Machine.agentStep, if_pos hctrl, if_pos hctrl']
    exact h.ctrlStep
  | host | hostRead =>
    have hhost' : ¬ hostEnabled (withFrame f s) = true := hhost
    rw [Machine.agentStep, Machine.agentStep, if_neg hhost, if_neg hhost']
    exact h.stays

/-- The choice of the agent does not read the frame. -/
theorem step : SameButFrame (step s) (step (withFrame f s)) := by
  intro t ht
  obtain ⟨hl, ht⟩ := step_cases ht
  rw [step_eq (s := withFrame f s) hl]
  exact h.afterChoice.agentStep (nextMove s) t ht

end Extracting

/-- Two runs that differ in bits yet to be stored agree, or the extraction is still in progress. -/
theorem Extracting.runFor {f : Frame} {s s' t' : State} {k : Nat} (h : Extracting f s) (hs : runFor k s = .next s')
    (ht : runFor k (withFrame f s) = .next t') : s' = t' ∨ Extracting t'.frame s' := by
  induction k generalizing f s with
  | zero =>
    cases hs
    cases ht
    exact .inr h
  | succ k ih =>
    cases hstep : Machine.step s with
    | fault r => simp [Machine.runFor, Host.Core.run, core, hstep] at hs
    | refused r => simp [Machine.runFor, Host.Core.run, core, hstep] at hs
    | next u =>
      obtain ⟨g, hstep', hu⟩ := h.step u hstep
      rw [runFor_succ hstep] at hs
      rw [runFor_succ hstep'] at ht
      obtain hu | rfl := hu
      · exact ih hu hs ht
      · exact .inl (Host.Outcome.next.inj (hs.symm.trans ht))

/-- Settles O46: until the last bit is stored the two runs differ in bits yet to be stored alone, and then no longer. -/
theorem extractionForgetsTheOldFrame : Obligations.ExtractionForgetsTheOldFrame := by
  intro s t s' t' fi bi k hst hf hr hcur hd hfi hbi hbits hs ht hdone
  have hposition : bitPosition s = 8 * fi.val + bi.val := by
    simp [bitPosition, State.frameIndex, State.bitIndex, hfi, hbi]
  have h : Extracting t.frame s :=
    ⟨hr, hf, exists_decoderOperation hcur, .inl hd, fun j m hlt => (hbits j m (hposition ▸ hlt)).symm⟩
  rw [← show withFrame t.frame s = t from hst] at ht
  refine (h.runFor hs ht).resolve_right fun hx => ?_
  obtain hx | hx := hx.dstate <;> simp [hx] at hdone

end Sys2Proof.Machine
end

section
/-! What no step writes (R45, R180), and a decoder wait that the line never ends (R202). -/

namespace Sys2Proof.Machine

/-! ## The launch and its waveforms -/

/-- No agent writes the launch's parameters or its waveforms (R45, R180). -/
theorem AgentMove.launch {m : Move} {s t : State} (h : AgentMove s m t) :
    t.launch = s.launch ∧ t.ir = s.ir ∧ t.present = s.present := by
  cases h with
  | tick => exact ⟨rfl, rfl, rfl⟩
  | engine =>
    have f := engineStep_frame s
    exact ⟨f.launch, f.ir, f.present⟩
  | ctrl i _ _ _ _ h =>
    have f := ctrlAction_frame h
    exact ⟨f.launch, f.ir, f.present⟩
  | issue i =>
    have f := issueActions_frame i { s with cpc := s.cpc + 1 }
    exact ⟨f.launch, f.ir, f.present⟩
  | host _ _ _ _ f => exact ⟨f.launch, f.ir, f.present⟩
  | stays => exact ⟨rfl, rfl, rfl⟩

/-- Settles O54: the levels of the lines are read off the waveforms, which no agent writes. -/
theorem launchAndWaveformsAreFixed : Obligations.LaunchAndWaveformsAreFixed := by
  intro s t h
  obtain ⟨hl, hir, hpresent⟩ := (step_move h).launch
  refine ⟨hl, fun u => ⟨?_, ?_⟩⟩
  · rw [State.irAt, hir]; rfl
  · rw [State.presentAt, hpresent]; rfl

/-! ## A decoder wait that the line never ends -/

theorem BusRunBlock.decoderSpins {s t : State} (h : BusRunBlock s t) :
    decoderSpins t = decoderSpins { s with now := t.now } := by
  rw [← h]; rfl

/-- From `s` on a decoder operation waits, and has not moved in `t`; whatever the time, its step is a spin. -/
structure DecoderWaiting (s t : State) : Prop where
  accepted : launchRefusal t.launch = none
  block : BusRunBlock s t
  ready : t.ready = false
  fault : t.fault = none
  cur : ∃ i : Instr, (i = .decFrame ∨ i = .decService) ∧ i.wf = true ∧ t.cur = some (encode i)
  later : s.now ≤ t.now
  spins : ∀ u, s.now ≤ u → decoderSpins { s with now := u } = true

namespace DecoderWaiting

variable {s t : State} (h : DecoderWaiting s t)
include h

theorem afterChoice : DecoderWaiting s (afterChoice t) :=
  ⟨h.accepted, h.block.trans rfl, h.ready, h.fault, h.cur, h.later, h.spins⟩

theorem tickStep : DecoderWaiting s (tickStep t) :=
  ⟨h.accepted, h.block.trans rfl, h.ready, h.fault, h.cur, Nat.le_succ_of_le h.later, h.spins⟩

theorem engineStep : DecoderWaiting s (engineStep t) := by
  have f := engineStep_frame t
  exact ⟨f.launch ▸ h.accepted, h.block.trans (engineStep_busRunBlock t), f.ready ▸ h.ready, f.fault ▸ h.fault,
    f.cur ▸ h.cur, f.now ▸ h.later, h.spins⟩

/-- CTRL's step is a spin. -/
theorem ctrlStep_eq_self : ctrlStep t = .next t := by
  obtain ⟨i, hi, hw, hc⟩ := h.cur
  rw [ctrlStep_eq hc (decode_encode hw)]
  exact exec_of_decoderSpins hi h.ready h.fault (h.block.decoderSpins.trans (h.spins _ h.later))

theorem agentStep (m : Move) : ∃ u, agentStep m t = .next u ∧ DecoderWaiting s u := by
  have hctrl : ctrlEnabled t = true := by simp [ctrlEnabled, h.ready, h.fault]
  have hhost : ¬ hostEnabled t = true := by simp [hostEnabled, h.ready]
  cases m with
  | tick => exact ⟨_, rfl, h.tickStep⟩
  | engine => exact ⟨_, rfl, h.engineStep⟩
  | ctrl => exact ⟨t, (if_pos hctrl).trans h.ctrlStep_eq_self, h⟩
  | host | hostRead => exact ⟨t, if_neg hhost, h⟩

theorem runFor (k : Nat) : ∃ u, runFor k t = .next u ∧ DecoderWaiting s u := by
  induction k generalizing t with
  | zero => exact ⟨t, rfl, h⟩
  | succ k ih =>
    obtain ⟨u, hs, hu⟩ := h.afterChoice.agentStep (nextMove t)
    obtain ⟨v, hv, hw⟩ := ih hu
    exact ⟨v, (runFor_succ ((step_eq h.accepted).trans hs) k).trans hv, hw⟩

end DecoderWaiting

/-- Settles O47, by induction on the steps: CTRL spins, the HOST is not enabled, and TICK and the ENGINE write nothing of
the decoder. -/
theorem deadLineHangsTheDecoder : Obligations.DeadLineHangsTheDecoder := by
  intro s hl hr hf hcur hline k
  have hspins (u : Nat) (hu : s.now ≤ u) : decoderSpins { s with now := u } = true := by
    obtain ⟨hd, hir⟩ | ⟨hd, hir⟩ | ⟨hd, hir⟩ | ⟨hd, hir⟩ | ⟨hd, hir⟩ := hline
    · exact (ldrWaitHigh_spins_iff (s := { s with now := u }) hd).mpr (hir u hu)
    · exact (ldrMeasure_spins_iff (s := { s with now := u }) hd).mpr (hir u hu)
    · exact (ldrWaitLow_spins_iff (s := { s with now := u }) hd).mpr (hir u hu)
    · exact (bitSeek_spins_iff (s := { s with now := u }) hd).mpr (hir u hu)
    · exact (bitMeasure_spins_iff (s := { s with now := u }) hd).mpr (hir u hu)
  have h : DecoderWaiting s s := ⟨hl, rfl, hr, hf, exists_decoderOperation hcur, Nat.le_refl _, hspins⟩
  obtain ⟨t, ht, hw⟩ := h.runFor k
  refine ⟨t, ht, hw.ready, hw.fault, ?_⟩
  rw [← hw.block]
  exact ⟨rfl, rfl, rfl, rfl, rfl, rfl⟩

end Sys2Proof.Machine
end

section
/-! `SYS.DELAY` (R224), alone and under the prompt schedule (R251), and the presence checks (R220, R222). -/

namespace Sys2Proof.Machine

/-! ## The delay -/

section
variable {s : State} {n t0 : Nat}

theorem delayRuns_iff (ht : s.dlyT0 = some t0) : s.delayRuns n = true ↔ s.now < t0 + n := by
  simp [State.delayRuns, State.delayStart, ht]

theorem exec_sysDelay (hr : s.ready = false) (hf : s.fault = none) :
    exec (.sysDelay n) s = .next (delayStep n s) := exec_ctrl _ hf hr

theorem delayStep_before (ht : s.dlyT0 = some t0) (h : s.now < t0 + n) : delayStep n s = s :=
  if_pos ((delayRuns_iff ht).mpr h)

theorem delayStep_after (ht : s.dlyT0 = some t0) (h : t0 + n ≤ s.now) : delayStep n s = complete s :=
  if_neg fun hn => absurd ((delayRuns_iff ht).mp hn) (Nat.not_lt.mpr h)

end

/-- Settles O48: the step of `SYS.DELAY n` by the time, before `DLY_T0 + n` and from it on. -/
theorem sysDelayStep : Obligations.DelayStep := by
  intro s n t0 hr hf ht
  rw [exec_sysDelay hr hf]
  exact ⟨fun h => congrArg _ (delayStep_before ht h), fun h => congrArg _ (delayStep_after ht h)⟩

/-! ## The delay under the prompt schedule -/

/-- With an operation in progress the prompt schedule takes each step of CTRL that is no spin; while CTRL spins, a request
of the engine is completed, and then time passes (R200). -/
theorem PromptRun.nextMove_busy {i : Instr} {s : State} (h : PromptRun s) (hr : s.ready = false) (hf : s.fault = none)
    (hw : i.wf = true) (hc : s.cur = some (encode i)) :
    nextMove s = if spins i s then (if engineEnabled s && !s.launch.stall then .engine else .tick) else .ctrl := by
  have hctrl : ctrlMoves s = !spins i s := by simp [ctrlMoves, ctrlEnabled, hr, hf, hc, decode_encode hw]
  cases hs : spins i s <;> simp [nextMove, h.1, h.2, promptMove, hostMoves, hostEnabled, hr, hctrl, hs]

/-- `SYS.DELAY n` is in progress since time `t0`, the prompt schedule chooses, and nothing else is to do. -/
structure PromptDelay (n t0 : Nat) (s : State) : Prop where
  accepted : launchRefusal s.launch = none
  prompt : PromptRun s
  ready : s.ready = false
  fault : s.fault = none
  cur : s.cur = some (encode (.sysDelay n))
  wf : (Instr.sysDelay n).wf = true
  quiet : engineEnabled s = false
  stopped : s.tmrOn = false
  start : s.dlyT0 = some t0

/-- A delay that is just issued (R224): the invariant keeps the engine quiet and the timer halted. -/
theorem Inv.promptDelay {s : State} {n t0 : Nat} (h : Inv s) (hp : PromptRun s) (hr : s.ready = false)
    (hf : s.fault = none) (hc : s.cur = some (encode (.sysDelay n))) (hn : n < 2 ^ 24) (ht : s.dlyT0 = some t0) :
    PromptDelay n t0 s := by
  have hw : (Instr.sysDelay n).wf = true := decide_eq_true hn
  obtain ⟨i, hwi, hci, ho⟩ := h.busy hr
  obtain rfl : .sysDelay n = i := encode_inj hw hwi (Option.some.inj (hc.symm.trans hci))
  obtain ⟨⟨-, ⟨h1, h2, h3⟩, -⟩, hidle, -⟩ := ho
  exact ⟨h.launch, hp, hr, hf, hc, hw, by simp [engineEnabled, h1, h2, h3], by rw [h.timer, hidle]; rfl, ht⟩

namespace PromptDelay

variable {n t0 : Nat} {s : State} (h : PromptDelay n t0 s)
include h

theorem nextMove_eq : nextMove s = if s.now < t0 + n then .tick else .ctrl := by
  simp [h.prompt.nextMove_busy h.ready h.fault h.wf h.cur, spins, delayRuns_iff h.start, h.quiet]

/-- Before its end only time passes. -/
theorem step_before (hn : s.now < t0 + n) : step s = .next { s with now := s.now + 1 } := by
  rw [step_tick h.accepted (by simp [h.nextMove_eq, hn]), h.prompt.afterChoice_eq]
  exact congrArg _ (ticks_of_stopped h.stopped 1)

/-- At its end CTRL completes it. -/
theorem step_after (hn : t0 + n ≤ s.now) : step s = .next { s with ready := true } := by
  have hm : nextMove s = .ctrl := h.nextMove_eq.trans (if_neg (Nat.not_lt.mpr hn))
  rw [step_ctrl h.accepted hm h.ready h.fault, h.prompt.afterChoice_eq, ctrlStep_eq h.cur (decode_encode h.wf),
    exec_sysDelay h.ready h.fault, delayStep_after h.start hn]
  rfl

theorem tick : PromptDelay n t0 { s with now := s.now + 1 } :=
  ⟨h.accepted, h.prompt, h.ready, h.fault, h.cur, h.wf, h.quiet, h.stopped, h.start⟩

end PromptDelay

/-- A delay with `k` ticks to go. -/
theorem PromptDelay.runFor {n t0 k : Nat} {s : State} (h : PromptDelay n t0 s) (hk : s.now + k = t0 + n) :
    runFor (k + 1) s = .next { s with now := s.now + k, ready := true } := by
  induction k generalizing s with
  | zero => exact runFor_succ (h.step_after (Nat.le_of_eq hk.symm)) 0
  | succ k ih =>
    have hrun := ih h.tick (by simp only; omega)
    rw [runFor_succ (h.step_before (by omega)), hrun, Nat.add_assoc, Nat.add_comm 1 k]

/-- Settles O49, by induction on the ticks to go. -/
theorem delayEndsOnTime : Obligations.DelayEndsOnTime :=
  fun _ _ h hp hf hr hc hn ht => (h.promptDelay hp hr hf hc hn ht).runFor rfl

/-! ## The presence checks -/

section
variable {s : State} (hr : s.ready = false) (hf : s.fault = none)
include hr hf

theorem exec_decCheck : exec .decCheck s = .next (complete (setRes (flagByte s.presentNow) s)) :=
  exec_ctrl .decCheck hf hr

/-- In `IDLE` the step of `DEC.SERVICE` is the presence check (R222). -/
theorem exec_decService_idle (hd : s.dstate = .idle) : exec .decService s = .next (presenceCheck s) := by
  rw [exec_ctrl .decService hf hr]
  change serviceStep s = _
  simp only [serviceStep, hd]

end

theorem presenceCheck_present {s : State} (h : s.presentNow = true) :
    presenceCheck s = { setRes 0x01 s with dlyT0 := some s.now, dstate := .debounce } := if_pos h

theorem presenceCheck_absent {s : State} (h : s.presentNow = false) : presenceCheck s = complete (setRes 0x00 s) :=
  if_neg (by simp [h])

/-- Settles O40: the two operations by the level of `PRESENT`; past the check `DEC.SERVICE` runs the decoder. -/
theorem presenceChecks : Obligations.PresenceChecks := by
  intro s hr hf
  refine ⟨fun hd h => ?_, fun hd h => ?_, fun hd => ?_, fun h => ?_, fun h => ?_⟩
  · rw [exec_decService_idle hr hf hd, presenceCheck_present h]; rfl
  · rw [exec_decService_idle hr hf hd, presenceCheck_absent h]; rfl
  · rw [exec_decoder (.inr rfl) hr hf hd, exec_decoder (.inl rfl) hr hf hd]
  · rw [exec_decCheck hr hf, State.presentNow, h]; rfl
  · rw [exec_decCheck hr hf, State.presentNow, h]; rfl

end Sys2Proof.Machine
end

section
/-! The HOST (R226 to R228, R232): the load of a word, the words its algorithm decides once its stream is used up, the
firmware's loop, and the end of a run. -/

namespace Sys2Proof.Machine

/-! ## A word loaded from outside -/

/-- The placed word stands at its index. -/
theorem placeWord_getElem? (prog : List Word) (n : Nat) (w : Word) : (placeWord prog n w)[n]? = some w := by
  have hlen : (prog.take n ++ List.replicate (n - prog.length) 0).length = n := by simp; omega
  rw [placeWord, List.getElem?_append_right (Nat.le_of_eq hlen), hlen, Nat.sub_self]
  rfl

theorem decode_of_decodeTableWord {nbits w : Nat} {i : Instr} (h : decodeTableWord nbits w = some i) :
    decode (BitVec.ofNat 32 (w % 2 ^ nbits)) = .legal i := by
  unfold decodeTableWord at h
  split at h
  · next j hj => rw [hj, Option.some.inj h]
  · cases h

/-- The HOST's step that `withFetchWord` lists is used up, and its word is next. -/
theorem afterChoice_withFetchWord (s : State) (nbits w : Nat) :
    afterChoice (s.withFetchWord nbits w) =
      { s with
        prog := placeWord s.prog s.cpc (BitVec.ofNat 32 (w % 2 ^ nbits)), ready := true, fault := none } := rfl

/-- Settles O13: the listed step is the HOST's, and the word at `CPC` is the placed one. -/
theorem fetchedWordRunsNext : Obligations.FetchedWordRunsNext := by
  intro s nbits w i hl hd
  refine ⟨placeWord s.prog s.cpc (BitVec.ofNat 32 (w % 2 ^ nbits)), ?_⟩
  rw [step_host (s := s.withFetchWord nbits w) hl rfl rfl rfl, afterChoice_withFetchWord]
  exact hostStep_legal (placeWord_getElem? _ _ _) (decode_of_decodeTableWord hd)

/-! ## The algorithm's next words -/

theorem hostStep_client {s : State} (h : s.prog.length ≤ s.cpc) : hostStep s = .next (clientStep s) := by
  simp [hostStep, List.getElem?_eq_none h]

/-- With its stream used up the HOST goes on with its algorithm (R228). -/
theorem step_client {s : State} (hl : launchRefusal s.launch = none) (hm : nextMove s = .host) (hr : s.ready = true)
    (hf : s.fault = none) (hp : s.prog.length ≤ s.cpc) : step s = .next (clientStep (afterChoice s)) :=
  (step_host hl hm hr hf).trans (hostStep_client hp)

section
variable {s : State}

theorem clientStep_rendering {i : Fin 4} {forever : Bool} (h : s.client = .rendering i forever) :
    clientStep s = readRes (renderByte i forever) s := by
  unfold clientStep; rw [h]

theorem clientStep_table {rows : List HostRow} {next : HostNext} (h : s.client = .table rows next) :
    clientStep s = tableStep rows next s := by
  unfold clientStep; rw [h]

theorem clientStep_unlisted {n : Nat} (h : s.client = .unlisted n) :
    clientStep s = unlistedStep (s.unlistedAction n) s := by
  unfold clientStep; rw [h]

theorem hostReadStep_of_some {v : Byte} (h : s.res = some v) :
    hostReadStep s = { s with resReads := s.resReads ++ [v] } := readRes_of_some h

theorem hostReadStep_of_none (h : s.res = none) : hostReadStep s = raise .resUndef 0 s := readRes_of_none h

/-- An algorithm with nothing left to issue or decide takes a step that changes nothing. -/
theorem clientStep_of_not_clientMoves (h : clientMoves s = false) : clientStep s = s := by
  unfold clientMoves at h
  split at h
  · next hc => unfold clientStep; rw [hc]
  · cases h
  · cases h
  · next n hc =>
    rw [clientStep_unlisted hc, show s.unlistedAction n = .finish by simpa using h]
    rfl

theorem enterRow_of_some {rows : List HostRow} {n : Nat} {row : HostRow} (h : rows[n]? = some row) :
    enterRow rows n s = { s with prog := s.prog ++ row.words, client := clientAt rows row.next } := by
  unfold enterRow; rw [h]

theorem enterRow_of_none {rows : List HostRow} {n : Nat} (h : rows[n]? = none) :
    enterRow rows n s = { s with client := .stream } := by
  unfold enterRow; rw [h]

end

/-- An algorithm reads RES and goes on with the row that the value selects (R228). -/
theorem tableStep_onRes_of_some {s : State} (rows : List HostRow) (cases : List (Byte × Nat)) (otherwise : Nat) {v : Byte}
    (h : s.res = some v) :
    tableStep rows (.onRes cases otherwise) s =
      enterRow rows (selectRow cases otherwise v) { s with resReads := s.resReads ++ [v] } :=
  readRes_of_some h

/-- A read of RES while it holds none raises `F_RES_UNDEF` (R245). -/
theorem tableStep_onRes_of_none {s : State} (rows : List HostRow) (cases : List (Byte × Nat)) (otherwise : Nat)
    (h : s.res = none) : tableStep rows (.onRes cases otherwise) s = raise .resUndef 0 s :=
  readRes_of_none h

/-- The row that a value selects is that of the first case with the value. -/
theorem selectRow_eq (cases : List (Byte × Nat)) (otherwise : Nat) (v : Byte) :
    selectRow cases otherwise v = match cases.find? (fun c => c.1 == v) with | some c => c.2 | none => otherwise := by
  induction cases with
  | nil => rfl
  | cons c cs ih =>
    unfold selectRow at ih ⊢
    rw [List.lookup_cons, List.find?_cons, BEq.comm (a := v)]
    cases c.1 == v with
    | true => rfl
    | false => exact ih

/-! ## `MAIN_ITER` -/

theorem iterationHead_words : iterationHead.map encode = [0x12000000, 0x13000000] := rfl

/-- The words that follow the read of byte `i`: its rendering, and the read of the next byte or, after byte 3, the head of
the firmware's next iteration (R226, R227). -/
theorem afterByteRead_words (l : Launch) (i : Fin 4) (forever : Bool) (v : Byte) :
    (afterByteRead l i forever v).map encode = (lcdHex l (2 * i.val + 1) 1 v).map encode ++
      (if i.val = 3 then (if forever then [0x12000000, 0x13000000] else []) else [encode (.frmRead (i.val + 1))]) := by
  rw [afterByteRead, List.map_append]
  congr 1
  by_cases hi : i.val = 3
  · cases forever <;> simp [hi, iterationHead_words]
  · simp [hi, show i.val < 3 by omega]

theorem nextClient_eq (i : Fin 4) (forever : Bool) :
    nextClient i forever =
      if i.val = 3 then (if forever then .rendering 0 true else .stream) else .rendering (i + 1) forever := by
  by_cases hi : i.val = 3
  · simp [nextClient, hi]
  · simp [nextClient, hi, show i.val < 3 by omega]

/-- The rendering of byte `i` (R226). -/
theorem renderByte_eq (i : Fin 4) (forever : Bool) (v : Byte) (s : State) :
    renderByte i forever v s = { s with
      prog := s.prog ++ (lcdHex s.launch (2 * i.val + 1) 1 v).map encode ++
        (if i.val = 3 then (if forever then [0x12000000, 0x13000000] else []) else [encode (.frmRead (i.val + 1))])
      client :=
        if i.val = 3 then (if forever then .rendering 0 true else .stream) else .rendering (i + 1) forever } := by
  rw [List.append_assoc, ← afterByteRead_words, ← nextClient_eq]
  rfl

/-! ## The firmware's loop -/

/-- The HOST runs the main loop for ever (R227). -/
def InFirmware (s : State) : Prop := ∃ i, s.client = .rendering i true

theorem InFirmware.not_endState {s : State} (h : InFirmware s) : ¬ EndState s := by
  obtain ⟨i, hi⟩ := h
  rintro ⟨-, hm, -⟩
  simp [clientMoves, hi] at hm

theorem nextClient_forever (i : Fin 4) : ∃ j, nextClient i true = .rendering j true := by
  unfold nextClient
  split
  · exact ⟨_, rfl⟩
  · exact ⟨_, rfl⟩

/-- The loop has no exit: after each byte it goes on. -/
theorem InFirmware.clientStep {s : State} (h : InFirmware s) : InFirmware (clientStep s) := by
  obtain ⟨i, hi⟩ := h
  rw [clientStep_rendering hi]
  cases hres : s.res with
  | none => rw [readRes_of_none hres]; exact ⟨i, hi⟩
  | some v => rw [readRes_of_some hres]; exact nextClient_forever i

theorem hostReadStep_client (s : State) : (hostReadStep s).client = s.client := by
  cases h : s.res with
  | none => rw [hostReadStep_of_none h]; rfl
  | some v => rw [hostReadStep_of_some h]

theorem InFirmware.agentStep {m : Move} {s t : State} (h : InFirmware s) (hs : agentStep m s = .next t) :
    InFirmware t := by
  have of_client {u : State} (hu : u.client = s.client) : InFirmware u := h.imp fun _ hi => hu.trans hi
  obtain ⟨-, rfl⟩ | ⟨-, rfl⟩ | ⟨-, -, -, hc⟩ | ⟨-, -, -, hh⟩ | ⟨-, -, -, rfl⟩ | ⟨-, rfl⟩ := agentStep_cases hs
  · exact of_client rfl
  · exact of_client (engineStep_frame s).client
  · obtain ⟨-, i, -, -, he⟩ := ctrlStep_cases hc
    exact of_client (exec_frame he).client
  · obtain ⟨w, -, -, -, rfl⟩ | ⟨-, i, -, -, he⟩ | ⟨-, rfl⟩ := hostStep_cases hh
    · exact of_client rfl
    · exact of_client (exec_frame he).client
    · exact h.clientStep
  · exact of_client (hostReadStep_client s)
  · exact h

theorem InFirmware.step {s t : State} (h : InFirmware s) (hs : step s = .next t) : InFirmware t :=
  InFirmware.agentStep (s := afterChoice s) h (step_cases hs).2

/-- What every step keeps, a run keeps. -/
theorem runFor_keeps {P : State → Prop} (hP : ∀ {s t}, P s → step s = .next t → P t) {k : Nat} {s t : State} (h : P s)
    (hk : runFor k s = .next t) : P t := by
  induction k generalizing s with
  | zero => cases hk; exact h
  | succ k ih =>
    cases hs : step s with
    | next u => exact ih (hP h hs) ((runFor_succ hs k).symm.trans hk)
    | fault r => simp [runFor, Host.Core.run, core, hs] at hk
    | refused r => simp [runFor, Host.Core.run, core, hs] at hk

/-- Settles O59: a step of the rendering is a read of RES and `renderByte`; that the firmware's loop goes on is an invariant
of every agent's step. -/
theorem mainIterationRendersEachByte : Obligations.MainIterationRendersEachByte := by
  refine ⟨fun s => ⟨rfl, rfl, ?_, rfl⟩, fun s i forever v hl hm hr hf hp hc hv => ?_, fun k s t i hc hk => ?_⟩
  · simp [startFirmware, iterationHead_words]
  · rw [step_client hl hm hr hf hp, clientStep_rendering (s := afterChoice s) hc,
      readRes_of_some (s := afterChoice s) hv]
    exact congrArg _ (renderByte_eq i forever v _)
  · exact (runFor_keeps InFirmware.step ⟨i, hc⟩ hk).not_endState

/-! ## The end of a run -/

/-- A run has at most one end, the first of its end states (R232). -/
theorem EndsAfter.unique {k m : Nat} {s t u : State} (h : EndsAfter k s t) (h' : EndsAfter m s u) : k = m ∧ t = u := by
  obtain ⟨hk, ht, hfirst⟩ := h
  obtain ⟨hm, hu, hfirst'⟩ := h'
  obtain hlt | rfl | hgt := Nat.lt_trichotomy k m
  · exact absurd ht (hfirst' k t hlt hk)
  · exact ⟨rfl, Host.Outcome.next.inj (hk.symm.trans hm)⟩
  · exact absurd hu (hfirst m u hgt hm)

/-- At an end state neither CTRL nor the HOST has anything to do (R64, R232). -/
theorem EndState.step {s : State} (h : EndState s) (hl : launchRefusal s.launch = none)
    (hm : nextMove s = .host ∨ nextMove s = .ctrl) : step s = .next (afterChoice s) := by
  obtain ⟨hp, hc, hr, hf⟩ := h
  obtain hm | hm := hm
  · rw [step_client hl hm hr hf (Nat.le_of_eq hp.symm), clientStep_of_not_clientMoves (s := afterChoice s) hc]
  · exact step_ctrl_disabled hl hm (.inl hr)

/-- Settles O60: the HOST's step by the form of its algorithm, the uniqueness of an end, and the rest at an end. -/
theorem hostAlgorithmsDecideTheNextWords : Obligations.HostAlgorithmsDecideTheNextWords := by
  refine ⟨fun s hl hm hr hf hp => ?_, fun _ _ _ _ _ => EndsAfter.unique, fun _ hl h hm => h.step hl hm⟩
  rw [step_client hl hm hr hf hp]
  have htable {rows : List HostRow} {next : HostNext} (hc : s.client = .table rows next) :
      clientStep (afterChoice s) = tableStep rows next (afterChoice s) := clientStep_table hc
  refine ⟨fun rows n row hc hrow => ?_, fun rows n hc hrow => ?_, fun rows hc => ?_, fun rows cases otherwise hc => ?_,
    fun n hc => ?_⟩
  · exact congrArg _ ((htable hc).trans (enterRow_of_some hrow))
  · exact congrArg _ ((htable hc).trans (enterRow_of_none hrow))
  · exact congrArg _ (htable hc)
  · rw [htable hc]
    have hsel (v : Byte) := congrArg (rows[·]?) (selectRow_eq cases otherwise v)
    have hread {v : Byte} (hv : s.res = some v) :=
      tableStep_onRes_of_some (s := afterChoice s) rows cases otherwise hv
    refine ⟨fun hv => ?_, fun v row hv hrow => ?_, fun v hv hrow => ?_⟩
    · exact congrArg _ (tableStep_onRes_of_none rows cases otherwise hv)
    · exact congrArg _ ((hread hv).trans (enterRow_of_some ((hsel v).trans hrow)))
    · exact congrArg _ ((hread hv).trans (enterRow_of_none ((hsel v).trans hrow)))
  · rw [clientStep_unlisted (s := afterChoice s) hc]
    change Host.Outcome.next (unlistedStep (Config.hostAlgorithm n s.resReads s.cpc) (afterChoice s)) = _
    cases Config.hostAlgorithm n s.resReads s.cpc with
    | issue w => rfl
    | finish => rfl
    | read =>
      cases hv : s.res with
      | none => exact congrArg _ (hostReadStep_of_none (s := afterChoice s) hv)
      | some v => exact congrArg _ (hostReadStep_of_some (s := afterChoice s) hv)

end Sys2Proof.Machine
end

section
/-! A fault and what can still move under it (R242), the delays in every fair execution (R251), the timer primitives (R255
to R259), and the launches that have a meaning (R252). -/

namespace Sys2Proof.Machine

/-! ## A fault -/

/-- Settles O18: TICK and the ENGINE are the only agents that a fault does not disable, and of these the ENGINE moves only
with a request pending. -/
theorem faultIsSticky : Obligations.FaultIsSticky := by
  intro s t hf h
  have h := step_move h
  generalize nextMove s = m at h ⊢
  cases h with
  | tick => exact .inr (.inl ⟨rfl, rfl⟩)
  | engine =>
    by_cases hq : NoRequest s
    · exact .inl (engineStep_of_noRequest (s := afterChoice s) hq)
    · have hpending : s.seStartReq = true ∨ s.seStopReq = true ∨ s.seTxPend = true := by
        simpa only [NoRequest, not_and_or, Bool.not_eq_false] using hq
      have f := engineStep_frame (afterChoice s)
      exact .inr (.inr ⟨rfl, hpending, f.fault, f.ready, f.cur, f.cpc, f.res, f.now⟩)
  | ctrl _ _ hn => exact absurd hn hf
  | issue _ _ hn => exact absurd hn hf
  | host _ _ _ hn => exact absurd hn hf
  | stays => exact .inl rfl

/-! ## Time in a fair execution -/

theorem now_le_of_step {s t : State} (h : step s = .next t) : s.now ≤ t.now := by
  rw [(step_move h).now]
  split
  · exact Nat.le_succ _
  · exact Nat.le_refl _

section
variable {x : Nat → State} (hx : Execution x)
include hx

theorem Execution.now_mono : Monotone fun n => (x n).now :=
  monotone_nat_of_le_succ fun n => now_le_of_step (hx n)

/-- Time passes every bound (R67). -/
theorem Execution.eventually_now (hfair : Fair x) (n T : Nat) : ∃ m, n ≤ m ∧ T ≤ (x m).now := by
  induction T with
  | zero => exact ⟨n, Nat.le_refl _, Nat.zero_le _⟩
  | succ T ih =>
    obtain ⟨m, hnm, hT⟩ := ih
    obtain ⟨k, hmk, hk⟩ := hfair.tick m
    refine ⟨k + 1, by omega, ?_⟩
    rw [(timeMovesOnlyByTick _ _ (hx k)).1 hk]
    exact Nat.succ_le_succ (hT.trans (hx.now_mono hmk))

/-- If `P` holds until `Q` does, it holds for ever or `Q` comes. -/
theorem Execution.always_or_eventually {P Q : State → Prop} (hstays : ∀ s t, P s → step s = .next t → P t ∨ Q t)
    {n m : Nat} (hnm : n ≤ m) (hn : P (x n)) : P (x m) ∨ ∃ k, Q (x k) := by
  induction m, hnm using Nat.le_induction with
  | base => exact .inl hn
  | succ m _ ih =>
    obtain hm | hq := ih
    · exact (hstays _ _ hm (hx m)).imp_right fun h => ⟨_, h⟩
    · exact .inr hq

/-- If `P` holds until `Q` does, `P` keeps CTRL enabled, and CTRL's step from `P` at time `T` or later reaches `Q`, then
`Q` comes. -/
theorem Execution.eventually_of_time (hfair : Fair x) (T : Nat) {P Q : State → Prop}
    (henabled : ∀ s, P s → ctrlEnabled s = true)
    (hstep : ∀ s t, P s → step s = .next t → (P t ∧ (nextMove s = .ctrl → s.now < T)) ∨ Q t)
    {n : Nat} (hn : P (x n)) : ∃ m, Q (x m) := by
  have hstays (s t : State) (h : P s) (hs : step s = .next t) : P t ∨ Q t := (hstep s t h hs).imp_left And.left
  obtain ⟨m, hnm, hT⟩ := hx.eventually_now hfair n T
  obtain hm | hq := hx.always_or_eventually hstays hnm hn
  · refine hx.eventually_of_fair hfair.ctrl (P := fun s => P s ∧ T ≤ s.now) (fun s h => henabled s h.1)
      (fun s t h hs => ?_) (fun s t h hc hs => ?_) ⟨hm, hT⟩
    · exact (hstays s t h.1 hs).imp_left fun hp => ⟨hp, h.2.trans (now_le_of_step hs)⟩
    · exact (hstep s t h.1 hs).resolve_left fun hp => absurd (hp.2 hc) (Nat.not_lt.mpr h.2)
  · exact hq

end

/-! ## A delay in progress -/

/-- The step of operation `i` awaits a delay of `d` ticks: a `SYS.DELAY` does (R224), and a debounce (R185). -/
inductive AwaitsDelay (s : State) : Instr → Nat → Prop
  | sysDelay (n : Nat) : AwaitsDelay s (.sysDelay n) n
  | debounce {i : Instr} (hi : i = .decFrame ∨ i = .decService) (hd : s.dstate = .debounce) :
    AwaitsDelay s i s.launch.tDebounce

/-- The delay is over: a `SYS.DELAY` is complete (R224), and a debounce has turned the indicator on (R185). -/
def DelayOver (i : Instr) (s : State) : Prop :=
  match i with
  | .sysDelay _ => s.ready = true
  | _ => s.dstate = .ldrWaitHigh ∧ s.ind = true

/-- Operation `i` is in progress, in a delay of `d` ticks since time `t0`. -/
structure Delaying (i : Instr) (d t0 : Nat) (s : State) : Prop where
  running : Running i s
  awaits : AwaitsDelay s i d
  start : s.dlyT0 = some t0

theorem AwaitsDelay.congr {i : Instr} {d : Nat} {s t : State} (h : AwaitsDelay s i d) (hd : t.dstate = s.dstate)
    (hl : t.launch = s.launch) : AwaitsDelay t i d := by
  cases h with
  | sysDelay => exact .sysDelay d
  | debounce hi hs => exact hl ▸ .debounce hi (hd.trans hs)

theorem Running.operationOk {i : Instr} {s : State} (h : Running i s) : OperationOk i s := by
  obtain ⟨j, hj, hc, ho⟩ := h.inv.busy h.ready
  obtain rfl : i = j := encode_inj h.wf hj (Option.some.inj (h.cur.symm.trans hc))
  exact ho

/-- An operation that awaits a delay has noted when it began (R32). -/
theorem Running.delaying {i : Instr} {d : Nat} {s : State} (h : Running i s) (ha : AwaitsDelay s i d) :
    ∃ t0, Delaying i d t0 s := by
  have hsome : s.dlyT0.isSome = true := by
    cases ha with
    | sysDelay => exact h.operationOk.2.2
    | debounce hi hd => exact (h.operationOk.decoderOk hi).2.1 hd
  obtain ⟨t0, ht⟩ := Option.isSome_iff_exists.mp hsome
  exact ⟨t0, h, ha, ht⟩

namespace Delaying

variable {i : Instr} {d t0 : Nat} {s : State} (h : Delaying i d t0 s)
include h

theorem ctrlEnabled_eq : ctrlEnabled s = true := by simp [ctrlEnabled, h.running.ready, h.running.fault]

theorem exec_before (hn : s.now < t0 + d) : exec i s = .next s := by
  obtain ⟨hrun, ha, ht⟩ := h
  cases ha with
  | sysDelay => exact (exec_sysDelay hrun.ready hrun.fault).trans (congrArg _ (delayStep_before ht hn))
  | debounce hi hd =>
    exact exec_of_decoderSpins hi hrun.ready hrun.fault ((debounce_spins_iff hd ht).mpr hn)

theorem exec_after (hn : t0 + d ≤ s.now) : ∃ t, exec i s = .next t ∧ DelayOver i t := by
  obtain ⟨hrun, ha, ht⟩ := h
  cases ha with
  | sysDelay => exact ⟨_, (exec_sysDelay hrun.ready hrun.fault).trans (congrArg _ (delayStep_after ht hn)), rfl⟩
  | debounce hi hd =>
    refine ⟨_, (exec_decoder hi hrun.ready hrun.fault (by simp [hd])).trans (decoderStep_debounce hd ht hn), ?_⟩
    obtain rfl | rfl := hi <;> exact ⟨rfl, rfl⟩

theorem afterChoice : Delaying i d t0 (afterChoice s) :=
  ⟨h.running.afterChoice, h.awaits.congr rfl rfl, h.start⟩

theorem tickStep : Delaying i d t0 (tickStep s) :=
  ⟨⟨h.running.inv.tickStep, h.running.ready, h.running.fault, h.running.cur, h.running.wf⟩, h.awaits.congr rfl rfl,
    h.start⟩

theorem engineStep : Delaying i d t0 (engineStep s) := by
  have f := engineStep_frame s
  have hrun := h.running
  exact ⟨⟨hrun.inv.engineStep, f.ready.trans hrun.ready, f.fault.trans hrun.fault, f.cur.trans hrun.cur, hrun.wf⟩,
    h.awaits.congr f.dstate f.launch, f.dlyT0.trans h.start⟩

theorem exec_cases {t : State} (he : exec i s = .next t) : (t = s ∧ s.now < t0 + d) ∨ DelayOver i t := by
  obtain hn | hn := Nat.lt_or_ge s.now (t0 + d)
  · exact .inl ⟨Host.Outcome.next.inj (he.symm.trans (h.exec_before hn)), hn⟩
  · obtain ⟨u, hu, hover⟩ := h.exec_after hn
    rw [Host.Outcome.next.inj (he.symm.trans hu)]
    exact .inr hover

/-- Every step of every agent: the delay goes on, and CTRL spins only before its end; or it is over. -/
theorem agentMove {m : Move} {t : State} (hm : AgentMove s m t) :
    (Delaying i d t0 t ∧ (m = .ctrl → s.now < t0 + d)) ∨ DelayOver i t := by
  cases hm with
  | tick => exact .inl ⟨h.tickStep, nofun⟩
  | engine => exact .inl ⟨h.engineStep, nofun⟩
  | ctrl j hr hf hw hc hs =>
    obtain rfl : i = j := encode_inj h.running.wf hw (Option.some.inj (h.running.cur.symm.trans hc))
    refine (h.exec_cases ((exec_ctrl i hf hr).trans hs)).imp_left fun ⟨ht, hn⟩ => ⟨ht ▸ h, fun _ => hn⟩
  | issue j hr => exact absurd (h.running.ready.symm.trans hr) Bool.false_ne_true
  | host _ _ hr => exact absurd (h.running.ready.symm.trans hr) Bool.false_ne_true
  | stays _ hm =>
    obtain ⟨-, he⟩ | ⟨hm, -⟩ := hm
    · exact absurd (he.symm.trans h.ctrlEnabled_eq) Bool.false_ne_true
    · exact .inl ⟨h, by obtain rfl | rfl := hm <;> nofun⟩

theorem step_cases {t : State} (hs : step s = .next t) :
    (Delaying i d t0 t ∧ (nextMove s = .ctrl → s.now < t0 + d)) ∨ DelayOver i t :=
  h.afterChoice.agentMove (step_move hs)

end Delaying

theorem Running.eventually_delayOver {x : Nat → State} (hx : Execution x) (hfair : Fair x) {i : Instr} {d n : Nat}
    (h : Running i (x n)) (ha : AwaitsDelay (x n) i d) : ∃ m, DelayOver i (x m) := by
  obtain ⟨t0, hd⟩ := h.delaying ha
  exact hx.eventually_of_time hfair (t0 + d) (fun _ h => h.ctrlEnabled_eq) (fun _ _ h hs => h.step_cases hs) hd

/-- Settles O50: no agent but CTRL ends the delay, time passes its end, and then CTRL's next step ends it. -/
theorem fairDelaysEnd : Obligations.FairDelaysEnd := by
  intro x hx hfair hinv hf hr
  refine ⟨fun n hn hc => ?_, fun hc hd => ?_⟩
  · have h : Running (.sysDelay n) (x 0) := ⟨hinv, hr, hf, hc, decide_eq_true hn⟩
    exact h.eventually_delayOver hx hfair (.sysDelay n)
  · obtain ⟨i, hi, hw, hc⟩ := exists_decoderOperation hc
    have h : Running i (x 0) := ⟨hinv, hr, hf, hc, hw⟩
    have hover := h.eventually_delayOver hx hfair (.debounce hi hd)
    obtain rfl | rfl := hi <;> exact hover

/-! ## The timer primitives -/

/-- Settles O33: the three writes are their definitions, and a read is the count or a draw of the timer's width. -/
theorem timerPrimitives : Obligations.TimerPrimitives :=
  fun s => ⟨rfl, rfl, rfl, fun h => (tmrRead_of_count h).1, tmrRead_lt s⟩

/-! ## The launches that have a meaning -/

theorem launchParametersOk_iff (l : Launch) :
    launchParametersOk l = true ↔
      6 ≤ l.tmrWidth ∧ (l.leaderMax = none ∨ ∃ m, l.leaderMax = some m ∧ 0x1F ≤ m) ∧
      l.tDebounce < 2 ^ 24 ∧ l.tCmd < 2 ^ 24 ∧ l.tPwr < 2 ^ 24 ∧ l.tPost < 2 ^ 24 := by
  simp only [launchParametersOk, Bool.and_eq_true, decide_eq_true_eq, and_assoc]
  refine and_congr_right' (and_congr_left' ?_)
  cases l.leaderMax with
  | none => simp
  | some m => exact decide_eq_true_iff.trans (by simp [Config.leaderMin])

theorem isPowerDelay_iff (l : Launch) (item : InitItem) :
    isPowerDelay l item = true ↔ ∃ n, item = .delay n ∧ n.toNat = 100 * l.ticksPerMs := by
  cases item <;> simp [isPowerDelay, Launch.tPwr]

theorem initSequenceOk_iff (l : Launch) :
    initSequenceOk l = true ↔
      ∃ n : BitVec 24, InitItem.delay n ∈ l.initSeq.tail.dropLast ∧ n.toNat = 100 * l.ticksPerMs := by
  simp only [initSequenceOk, List.any_eq_true, isPowerDelay_iff]
  exact ⟨fun ⟨_, hmem, n, hitem, hn⟩ => ⟨n, hitem ▸ hmem, hn⟩, fun ⟨n, hmem, hn⟩ => ⟨_, hmem, n, rfl, hn⟩⟩

theorem bootOk_iff (b : BootPremises) :
    bootOk b = true ↔ b.configured = true ∧ b.watchdogOff = true ∧ b.interruptsOff = true ∧ b.busIdle = true ∧
      b.engineReady = true := by
  simp only [bootOk, Bool.and_eq_true, and_assoc]

/-- A launch has a meaning exactly when none of the five grounds of R252 stands against it. -/
theorem launchRefusal_eq_none_iff (l : Launch) :
    launchRefusal l = none ↔
      launchParametersOk l = true ∧ l.gate ≠ .defective ∧ l.showLeader = false ∧ initSequenceOk l = true ∧
        bootOk l.boot = true := by
  simp [launchRefusal, ite_eq_iff]

/-! ## No agent's step is refused -/

theorem decoderStep_ne_refused (s : State) (r : Refusal) : decoderStep s ≠ .refused r := by
  unfold decoderStep
  split <;> nofun

theorem ctrlAction_ne_refused (i : Instr) (s : State) (r : Refusal) : ctrlAction i s ≠ .refused r := by
  cases i with
  | decFrame => exact decoderStep_ne_refused s r
  | decService =>
    change serviceStep s ≠ _
    unfold serviceStep
    split
    · nofun
    · exact decoderStep_ne_refused s r
  | frmRead k =>
    change frmReadStep k s ≠ _
    unfold frmReadStep
    split <;> nofun
  | _ => nofun

theorem exec_ne_refused (i : Instr) (s : State) (r : Refusal) : exec i s ≠ .refused r := by
  rw [exec_eq_operation, operation]
  repeat' split
  · nofun
  · nofun
  · exact ctrlAction_ne_refused i s r

theorem ctrlStep_ne_refused (s : State) (r : Refusal) : ctrlStep s ≠ .refused r := by
  unfold ctrlStep
  split
  · exact exec_ne_refused _ s r
  · nofun

theorem hostStep_ne_refused (s : State) (r : Refusal) : hostStep s ≠ .refused r := by
  unfold hostStep issueWord
  repeat' split
  · nofun
  · exact exec_ne_refused _ _ r
  · nofun

theorem agentStep_ne_refused (m : Move) (s : State) (r : Refusal) : agentStep m s ≠ .refused r := by
  unfold agentStep
  split
  · nofun
  · split
    · exact ctrlStep_ne_refused s r
    · nofun
  · nofun
  · split
    · exact hostStep_ne_refused s r
    · nofun
  · split <;> nofun

/-- A step is refused exactly on the ground on which its launch is (R252). -/
theorem step_eq_refused_iff (s : State) (r : Refusal) : step s = .refused r ↔ launchRefusal s.launch = some r := by
  unfold step
  split
  · next q hq => simp [hq]
  · next hn => exact iff_of_false (agentStep_ne_refused _ _ r) (by simp [hn])

/-- Settles O55: the five grounds one by one, and a step checks the launch and nothing else. -/
theorem launchesRefused : Obligations.LaunchesRefused := by
  refine ⟨fun l => ?_, fun s r => (step_eq_refused_iff s r).symm⟩
  rw [launchRefusal_eq_none_iff, launchParametersOk_iff, initSequenceOk_iff, bootOk_iff]

end Sys2Proof.Machine
end

section
/-! What the invariant is worth: every step keeps it, and a state that meets it has a next state
(10_state.md section 9, 60_exceptions.md section 2). -/

namespace Sys2Proof.Machine

/-! ## Preservation -/

/-- Settles O7: the inversion of a step names the agent's move, and each move keeps the invariant. -/
theorem stepKeepsTheInvariant : Obligations.StepKeepsTheInvariant :=
  fun _ _ h hs => h.step hs

/-! ## Progress of each agent -/

/-- `DEC.SERVICE` has a step in every decoder state: `IDLE`, where the decoder has none, is its presence check (R222). -/
theorem exists_serviceStep (s : State) : ∃ t, serviceStep s = .next t := by
  unfold serviceStep
  split
  · exact ⟨_, rfl⟩
  · next hd => exact exists_decoderStep hd

/-- An operation in one of its own sub-states has a step: the decoder of `DEC.FRAME` is not idle (R184), and the index of
an encodable `FRM.READ` names a byte of the frame (R96). -/
theorem OperationOk.exists_ctrlAction {i : Instr} {s : State} (h : OperationOk i s) (hw : i.wf = true) :
    ∃ t, ctrlAction i s = .next t := by
  cases i with
  | decFrame =>
    obtain ⟨-, hd, -⟩ := h
    exact exists_decoderStep hd
  | decService => exact exists_serviceStep s
  | frmRead k => exact ⟨_, dif_pos (of_decide_eq_true hw)⟩
  | _ => exact ⟨_, rfl⟩

theorem Inv.exists_ctrlStep {s : State} (h : Inv s) (hr : s.ready = false) (hf : s.fault = none) :
    ∃ t, ctrlStep s = .next t := by
  obtain ⟨i, hw, hc, ho⟩ := h.busy hr
  rw [ctrlStep_eq hc (decode_encode hw), exec_ctrl i hf hr]
  exact ho.exists_ctrlAction hw

/-- The HOST's step needs no invariant: an illegal word raises a fault, and a legal one only issues (R66, R243). -/
theorem exists_hostStep {s : State} (hr : s.ready = true) (hf : s.fault = none) : ∃ t, hostStep s = .next t := by
  cases hp : s.prog[s.cpc]? with
  | none => exact ⟨clientStep s, by simp [hostStep, hp]⟩
  | some w =>
    cases hd : decode w with
    | illegal why => exact ⟨_, hostStep_illegal hp hd⟩
    | legal i => exact ⟨_, (hostStep_legal hp hd).trans (exec_issue i (s := { s with cpc := s.cpc + 1 }) hf hr)⟩

theorem Inv.exists_agentStep {s : State} (h : Inv s) (m : Move) : ∃ t, agentStep m s = .next t := by
  cases m with
  | tick => exact ⟨_, rfl⟩
  | engine => exact ⟨_, rfl⟩
  | ctrl =>
    simp only [agentStep]
    split
    · next he =>
      obtain ⟨hr, hf⟩ : s.ready = false ∧ s.fault = none := by simpa [ctrlEnabled] using he
      exact h.exists_ctrlStep hr hf
    · exact ⟨_, rfl⟩
  | host =>
    simp only [agentStep]
    split
    · next he =>
      obtain ⟨hr, hf⟩ : s.ready = true ∧ s.fault = none := by simpa [hostEnabled] using he
      exact exists_hostStep hr hf
    · exact ⟨_, rfl⟩
  | hostRead =>
    simp only [agentStep]
    split <;> exact ⟨_, rfl⟩

/-- Settles O8: the launch is not refused, so the step is the chosen agent's, and every agent has a step. -/
theorem invariantStatesNeverStop : Obligations.InvariantStatesNeverStop := by
  intro s h
  rw [step_eq h.launch]
  exact h.afterChoice.exists_agentStep (nextMove s)

end Sys2Proof.Machine
end
